-- ==== Sys2Proof/Word.lean ====
section
/-! DEFINITION. The word types of I2C-TE: bytes, 16-bit words, 7-bit slave addresses, 5-bit window
offsets, and the 8-byte buffers (00_scope R7, R11; 10_state R33, R34). -/

namespace Sys2Proof

/-- A register of the window, or a byte on the bus (`REG_BITS` = `DATA_BITS` = 8, 00_scope R7). -/
abbrev Byte := BitVec 8

/-- A data word (`WORD_BITS` = 16, 00_scope R7). -/
abbrev Word := BitVec 16

/-- A slave address (`ADDR_BITS` = 7, 00_scope R7). -/
abbrev Addr7 := BitVec 7

/-- An offset of the register window, the low 5 bits of an access (20_memory R60). -/
abbrev Offset := BitVec 5

/-- One of the two buffers, `BUF_DEPTH` = 8 bytes (10_state R33, R34). -/
abbrev Buffer := Vector Byte 8

end Sys2Proof
end

