-- ==== Sys2Proof/Machine/Ports.lean ====
section
/-! DEFINITION. The closed sets of names the machine's state and its ports are made of: the engine's
phases and operations (10_state R37), the outcomes (60_exceptions R210), the PHY's actions, statuses
and events (10_state R41, R42), the registers of the window (10_state R20), and the turns of the
agents (00_scope R9). -/

namespace Sys2Proof.Machine

/-- The outcome set, closed with seven members (60_exceptions R210). -/
inductive CommandOutcome where
  | success
  | configError
  | noDataError
  | checksumError
  | ackError
  | busError
  | paramError
  deriving DecidableEq, Repr

/-- `E.phase`, the sequencer position (10_state R37, R38). -/
inductive Phase where
  | idle
  | decode
  | start
  | addr
  | txData
  | rxByte
  | rxAck
  | stop
  deriving DecidableEq, Repr

/-- `E.op`, the decoded operation (10_state R37). -/
inductive EngineOp where
  | transmit
  | receive
  | wtr
  | verify
  | reserved
  deriving DecidableEq, Repr

/-- `E.leg`, the direction of the current leg (10_state R37). -/
inductive Leg where
  | w
  | r
  deriving DecidableEq, Repr

/-- The actions the engine issues to the PHY (10_state R41, 30_encoding R99). -/
inductive PhyAction where
  | start
  | send (b : Byte)
  | ack
  | nack
  /-- The not-acknowledge of a zero-count read; it has no completion event. -/
  | nack0
  | stop
  deriving DecidableEq, Repr

/-- An entry of the bus trace: an issued action, or a received byte (10_state R45). -/
inductive TraceEntry where
  | action (a : PhyAction)
  | rx (d : Byte)
  deriving DecidableEq, Repr

/-- The twelve abstract PHY statuses (10_state R42, 30_encoding R100). -/
inductive PhyStatus where
  | startSent
  | repStartSent
  | addrWAck
  | addrWNack
  | addrRAck
  | addrRNack
  | txAck
  | txNack
  | rxAckSent
  | rxNackSent
  | busFault
  /-- Any other status, for example lost arbitration. -/
  | other
  deriving DecidableEq, Repr, Inhabited

/-- A PHY completion event (10_state R42). -/
inductive PhyEvent where
  | done (s : PhyStatus)
  | byte (d : Byte)
  | stopDone
  deriving DecidableEq, Repr

/-- What one status tells the engine (60_exceptions R213): go on, or end with one of two outcomes. -/
inductive Verdict where
  | proceed
  | ackError
  | busError
  deriving DecidableEq, Repr

/-- The registers of the window (10_state R20). -/
inductive Reg where
  | cmd
  | status
  | outcome
  | addr
  | txlen
  | rxcnt
  | rxlen
  | chkerr
  | txbuf (i : Fin 8)
  | rxbuf (i : Fin 8)
  | ckhi
  | cklo
  | ckrcv
  | ckcalc
  | ckmatch
  /-- Offsets 0x1D to 0x1F (10_state R36). -/
  | reserved (i : Fin 3)
  deriving DecidableEq, Repr

/-- What a host access does (20_memory R61). -/
inductive HostOp where
  | read
  | write (v : Byte)
  deriving DecidableEq, Repr

/-- One host access: its host address, its width in bits, and what it does (20_memory R60, R65). -/
structure HostAccess where
  addr  : Nat
  width : Nat
  op    : HostOp
  deriving DecidableEq, Repr

/-- A value the host has read, with the offset it was read at (00_scope R10). -/
structure HostRead where
  off   : Offset
  value : Byte
  deriving DecidableEq, Repr

/-- Which agent takes the next atomic step, and with what (00_scope R9, 70_reset R240). -/
inductive Turn where
  /-- The engine's decode step, which needs no event (40_bus R121). -/
  | engine
  /-- The environment delivers an event and the engine processes it (40_bus R122). -/
  | phy (e : PhyEvent)
  /-- The same, from a concrete PHY that reports a numeric status code (30_encoding R100). -/
  | phyCode (code : Nat)
  /-- A host access (20_memory R61). -/
  | host (a : HostAccess)
  /-- The platform asserts reset (70_reset R240). -/
  | reset
  deriving DecidableEq, Repr

end Sys2Proof.Machine
end

