-- ==== Sys2Proof/Config.lean ====
section
/-! DEFINITION. The parameters of 00_scope R7: those the spec fixes are definitions, those it marks
OPEN are constants with no body, so that a claim holds for every value of them. -/

namespace Sys2Proof.Config

/-- `BUF_DEPTH`: bytes of TXBUF and of RXBUF (00_scope R7). -/
def bufDepth : Nat := 8

/-- `REG_SPAN`: bytes of the register window (00_scope R7). -/
def regSpan : Nat := 32

/-- `ADDR_RESET` (00_scope R7, 10_state R28). -/
def addrReset : Addr7 := 0#7

/-- `REG_BASE`, OPEN: the host address of offset 0 (00_scope R7, 20_memory R60). Log 5. -/
opaque regBase : Nat

/-- `CHECK_FN`, OPEN: the checksum of a 16-bit word, a total function of the word alone
(42_checksum R189). Log 4. -/
opaque checkFn : Word → Byte

/-- `PHY_STATUS_CLASS`, OPEN: the class of a concrete PHY's status code (30_encoding R100). Log 6. -/
opaque phyStatusClass : Nat → Machine.PhyStatus

/-- `SOFTRESET_RECOVERY`, OPEN: a host duty that no rule uses (70_reset R249). Log 7. -/
opaque softResetRecovery : Nat

end Sys2Proof.Config
end

