-- ==== Sys2Proof/Syntax.lean ====
section
/-! DEFINITION. The commands of I2C-TE: one constructor per row of spec/opcode_table.json
(30_encoding R91, R92, R94). -/

namespace Sys2Proof

/-- The command byte, row by row. A constructor's fields are the row's bits that are not fixed: the
STOP bit of TRANSMIT and RECEIVE, and the don't-care bits of the other rows. These are kept, although
no effect reads them, because the CMD register reads the accepted byte back whole (10_state R21). -/
inductive Instr where
  /-- `0000 s 001` (R133). -/
  | transmit (stop : Bool)
  /-- `0000 s 010` (R134). -/
  | receive (stop : Bool)
  /-- `0000 x 011`; bit 3 is ignored (R160, R93). -/
  | writeThenRead (x : Bool)
  /-- `0000 x 100`; bit 3 is ignored (R182, R93). -/
  | verify (x : Bool)
  /-- `0000 x 000`: reserved, not a no-op (R92, R211). -/
  | reservedOp0 (x : Bool)
  /-- `0000 x 101` (R211). -/
  | reservedOp5 (x : Bool)
  /-- `0000 x 110` (R211). -/
  | reservedOp6 (x : Bool)
  /-- `0000 x 111` (R211). -/
  | reservedOp7 (x : Bool)
  /-- `1xxxxxxx` (R94, R211). -/
  | reservedBit7 (low : BitVec 7)
  /-- `01xxxxxx` (R94, R211). -/
  | reservedBit6 (low : BitVec 6)
  /-- `001xxxxx` (R94, R211). -/
  | reservedBit5 (low : BitVec 5)
  /-- `0001xxxx` (R94, R211). -/
  | reservedBit4 (low : BitVec 4)
  deriving DecidableEq, Repr

end Sys2Proof
end

