-- ==== Sys2Proof/WellFormed.lean ====
section
/-! DEFINITION. Which terms are legal: commands, host accesses (20_memory R60, R65), and the events a
waiting phase may be given (10_state R44). -/

namespace Sys2Proof

/-- Every term of `Instr` is a command: the fields' types hold exactly the row's free bits
(30_encoding R94: every one of the 256 bytes is accepted). -/
def Instr.wf : Instr → Bool
  | .transmit _ | .receive _ | .writeThenRead _ | .verify _ => true
  | .reservedOp0 _ | .reservedOp5 _ | .reservedOp6 _ | .reservedOp7 _ => true
  | .reservedBit7 _ | .reservedBit6 _ | .reservedBit5 _ | .reservedBit4 _ => true

namespace Machine

/-- A host access is 8 bits wide (20_memory R65). -/
def HostAccess.widthOk (a : HostAccess) : Bool := a.width == 8

/-- A host access lies in the window of 32 bytes at `REG_BASE` (20_memory R60). -/
def HostAccess.inWindow (a : HostAccess) : Bool :=
  decide (Config.regBase ≤ a.addr ∧ a.addr < Config.regBase + Config.regSpan)

/-- A host access the block has a step for. -/
def HostAccess.wf (a : HostAccess) : Bool := a.widthOk && a.inWindow

/-- The waiting phases, in which the engine awaits an event (40_bus R122). -/
def Phase.waiting : Phase → Bool
  | .idle | .decode => false
  | .start | .addr | .txData | .rxByte | .rxAck | .stop => true

/-- The kind of event each phase expects (10_state R44): `DONE(s)` in START, ADDR, TXDATA and RXACK,
`BYTE(d)` in RXBYTE, `STOP_DONE` in STOP, nothing in IDLE and DECODE. -/
def PhyEvent.fits (e : PhyEvent) (p : Phase) : Bool :=
  match p, e with
  | .start, .done _ | .addr, .done _ | .txData, .done _ | .rxAck, .done _ => true
  | .rxByte, .byte _ => true
  | .stop, .stopDone => true
  | _, _ => false

/-- A turn that the contract of 10_state R44 and the window of 20_memory R60 and R65 allow in phase
`p`. -/
def Turn.wf (t : Turn) (p : Phase) : Bool :=
  match t with
  | .engine | .reset => true
  | .phy e => e.fits p
  | .phyCode c => (PhyEvent.done (Config.phyStatusClass c)).fits p
  | .host a => a.wf

end Machine

end Sys2Proof
end

