-- ==== Sys2Proof/Decode.lean ====
section
/-! DEFINITION. Decoding the command byte (30_encoding R91 to R95), total on every byte, and after it
the encoder, written from the same table. -/

namespace Sys2Proof

/-- `c[2:0]`, the operation field (30_encoding R91). -/
def opField (c : Byte) : BitVec 3 := c.extractLsb' 0 3

/-- `c[3]`, the STOP bit (30_encoding R91, R93). -/
def stopBit (c : Byte) : Bool := c.getLsbD 3

/-- The command a byte stands for (30_encoding R95): first the reserved high nibble, highest set bit
first, as the table's four rows split it; then the operation field. -/
def decodeByte (c : Byte) : Instr :=
  if c.getLsbD 7 then .reservedBit7 (c.extractLsb' 0 7)
  else if c.getLsbD 6 then .reservedBit6 (c.extractLsb' 0 6)
  else if c.getLsbD 5 then .reservedBit5 (c.extractLsb' 0 5)
  else if c.getLsbD 4 then .reservedBit4 (c.extractLsb' 0 4)
  else if opField c = 0b001#3 then .transmit (stopBit c)
  else if opField c = 0b010#3 then .receive (stopBit c)
  else if opField c = 0b011#3 then .writeThenRead (stopBit c)
  else if opField c = 0b100#3 then .verify (stopBit c)
  else if opField c = 0b101#3 then .reservedOp5 (stopBit c)
  else if opField c = 0b110#3 then .reservedOp6 (stopBit c)
  else if opField c = 0b111#3 then .reservedOp7 (stopBit c)
  else .reservedOp0 (stopBit c)

/-- Why bytes are not a command: only that there is none. No byte value is refused (30_encoding
R95), since a reserved byte is itself a command (R94). -/
inductive DecodeError where
  | noByte
  deriving DecidableEq, Repr

/-- Decode the first byte of a list; the rest is returned. -/
def decode : List Byte → Except DecodeError (Instr × List Byte)
  | [] => .error .noByte
  | c :: rest => .ok (decodeByte c, rest)

/-- `decode(c)` of 30_encoding R95, the value of `E.op`, as the rule writes it. -/
def decodeOp (c : Byte) : Machine.EngineOp :=
  if c.extractLsb' 4 4 ≠ 0b0000#4 then .reserved
  else if opField c = 0b001#3 then .transmit
  else if opField c = 0b010#3 then .receive
  else if opField c = 0b011#3 then .wtr
  else if opField c = 0b100#3 then .verify
  else .reserved

/-- The operation of a command (30_encoding R92). -/
def Instr.op : Instr → Machine.EngineOp
  | .transmit _ => .transmit
  | .receive _ => .receive
  | .writeThenRead _ => .wtr
  | .verify _ => .verify
  | .reservedOp0 _ | .reservedOp5 _ | .reservedOp6 _ | .reservedOp7 _ => .reserved
  | .reservedBit7 _ | .reservedBit6 _ | .reservedBit5 _ | .reservedBit4 _ => .reserved

/-- The byte `0000 b ppp` (30_encoding R91). -/
def lowNibbleByte (b : Bool) (p : BitVec 3) : Byte := 0b0000#4 ++ BitVec.ofBool b ++ p

/-- The command byte of a command (30_encoding R91, R92, R94). -/
def encodeByte : Instr → Byte
  | .transmit stop => lowNibbleByte stop 0b001#3
  | .receive stop => lowNibbleByte stop 0b010#3
  | .writeThenRead x => lowNibbleByte x 0b011#3
  | .verify x => lowNibbleByte x 0b100#3
  | .reservedOp0 x => lowNibbleByte x 0b000#3
  | .reservedOp5 x => lowNibbleByte x 0b101#3
  | .reservedOp6 x => lowNibbleByte x 0b110#3
  | .reservedOp7 x => lowNibbleByte x 0b111#3
  | .reservedBit7 low => 0b1#1 ++ low
  | .reservedBit6 low => 0b01#2 ++ low
  | .reservedBit5 low => 0b001#3 ++ low
  | .reservedBit4 low => 0b0001#4 ++ low

/-- The bytes of a command: one (30_encoding R90). -/
def encode (i : Instr) : List Byte := [encodeByte i]

/-- The rows of spec/opcode_table.json as (mask, match) pairs, in the table's order. -/
def opcodeRows : List (Byte × Byte) :=
  [(0xF7#8, 0x01#8), (0xF7#8, 0x02#8), (0xF7#8, 0x03#8), (0xF7#8, 0x04#8),
   (0xF7#8, 0x00#8), (0xF7#8, 0x05#8), (0xF7#8, 0x06#8), (0xF7#8, 0x07#8),
   (0x80#8, 0x80#8), (0xC0#8, 0x40#8), (0xE0#8, 0x20#8), (0xF0#8, 0x10#8)]

/-- The place of a command's row in `opcodeRows`. -/
def Instr.row : Instr → Nat
  | .transmit _ => 0
  | .receive _ => 1
  | .writeThenRead _ => 2
  | .verify _ => 3
  | .reservedOp0 _ => 4
  | .reservedOp5 _ => 5
  | .reservedOp6 _ => 6
  | .reservedOp7 _ => 7
  | .reservedBit7 _ => 8
  | .reservedBit6 _ => 9
  | .reservedBit5 _ => 10
  | .reservedBit4 _ => 11

/-- The instruction the decoder reads from a table word: a command is one byte, so a word of another
length, or of more than 8 bits, is none. Log 15. -/
def decodeTableWord (nbits w : Nat) : Option Instr :=
  if nbits = 8 ∧ w < 256 then
    match decode [BitVec.ofNat 8 w] with
    | .ok (i, _) => some i
    | .error _ => none
  else none

end Sys2Proof
end

