-- ==== Sys2Proof/Machine/State.lean ====
section
/-! DEFINITION. The state of I2C-TE (10_state R20 to R47), its reset value, and the reasons a step can
stop. -/

namespace Sys2Proof.Machine

/-- Reasons the machine stops with a fault. The block itself has no traps: its failures are outcomes
of commands (60_exceptions R210), which are next states. -/
inductive Fault where
  /-- Raised by a host access whose address is not in the 32-byte window: it "is not an access to
  I2C-TE" (10_state R36, 20_memory R60). Safe: the model stops, the block is not concerned. Log 9. -/
  | outsideWindow (addr : Nat)
  deriving DecidableEq, Repr

/-- Reasons a step has no meaning. -/
inductive Refusal where
  /-- An instruction that has no meaning yet. Safe. No arm raises it. -/
  | notModelled (mnemonic : String)
  /-- Raised by a host access wider or narrower than 8 bits: "A model must refuse a wider or narrower
  access to the window: it has no step" (20_memory R65). Safe. Log 9. -/
  | accessWidth (bits : Nat)
  /-- Raised by a PHY event that breaks the contract of 10_state R44: while the engine is in IDLE or
  DECODE, or of a kind the phase does not expect. "A model may refuse such an event, and must not give
  it a meaning." Safe. Log 10. -/
  | phyContract
  deriving DecidableEq, Repr

@[ext]
structure State where
  /-- STATUS bit 0 (10_state R23). -/
  busy : Bool
  /-- STATUS bit 1 (10_state R24). -/
  valid : Bool
  /-- STATUS bit 2, write 1 to clear (10_state R25). -/
  ovr : Bool
  /-- STATUS bit 3 (10_state R26). -/
  held : Bool
  /-- OUTCOME (10_state R27). -/
  outcome : CommandOutcome
  /-- ADDR, 7 bits (10_state R28). -/
  addr : Addr7
  /-- TXLEN (10_state R29). -/
  txlen : Byte
  /-- RXCNT (10_state R30). -/
  rxcnt : Byte
  /-- RXLEN (10_state R31). -/
  rxlen : Byte
  /-- CHKERR (10_state R32). -/
  chkerr : Byte
  /-- TXBUF0 to TXBUF7 (10_state R33). -/
  txbuf : Buffer
  /-- RXBUF0 to RXBUF7 (10_state R34). -/
  rxbuf : Buffer
  /-- CKHI (10_state R35). -/
  ckhi : Byte
  /-- CKLO (10_state R35). -/
  cklo : Byte
  /-- CKRCV (10_state R35). -/
  ckrcv : Byte
  /-- `E.phase` (10_state R37, R38). -/
  phase : Phase
  /-- `E.cmd`, the CMD read-back (10_state R21, R37). -/
  cmd : Byte
  /-- `E.op` (10_state R37). -/
  op : EngineOp
  /-- `E.leg` (10_state R37). -/
  leg : Leg
  /-- `E.stop` (10_state R37). -/
  stop : Bool
  /-- `E.idx` (10_state R37). -/
  idx : Nat
  /-- `E.n` (10_state R37). -/
  n : Nat
  /-- The bus trace, oldest entry first (10_state R45): observation state. -/
  trace : List TraceEntry
  /-- The model's own: the event on the PHY port in an event step, none between steps. Log 1. -/
  phyEvent : Option PhyEvent
  /-- The model's own: the turns of the agents still to come, oldest first (00_scope R9). Log 1. -/
  inputs : List Turn
  /-- The model's own: what the host's reads have returned, oldest first (00_scope R10). Log 8. -/
  hostReads : List HostRead
  deriving DecidableEq, Repr

/-- The machine right after reset (10_state R47). The last three fields are the model's own (logs 1
and 8). -/
def State.reset : State where
  busy := false
  valid := false
  ovr := false
  held := false
  outcome := .success
  addr := Config.addrReset
  txlen := 0x00#8
  rxcnt := 0x00#8
  rxlen := 0x00#8
  chkerr := 0x00#8
  txbuf := Vector.replicate 8 0x00#8
  rxbuf := Vector.replicate 8 0x00#8
  ckhi := 0x00#8
  cklo := 0x00#8
  ckrcv := 0x00#8
  phase := .idle
  cmd := 0x00#8
  op := .reserved
  leg := .w
  stop := false
  idx := 0
  n := 0
  trace := []
  phyEvent := none
  inputs := []
  hostReads := []

end Sys2Proof.Machine
end

