-- ==== Sys2Proof/Machine/Operands.lean ====
section
/-! DEFINITION. Operand forms: buffer bytes, the address byte (30_encoding R96), counts (R98), the
big-endian words and groups of the received data (20_memory R67, 42_checksum R181), and the place of a
register in the window (10_state R20). -/

namespace Sys2Proof.Machine

/-- Byte `i` of a buffer, zero-based (00_scope R12). No byte 8 or above exists, and no reachable state
asks for one. Log 11. -/
def bufGet (b : Buffer) (i : Nat) : Byte := if h : i < 8 then b[i] else 0x00#8

/-- `b[i] <- v` (00_scope R12). Log 11. -/
def bufSet (b : Buffer) (i : Nat) (v : Byte) : Buffer := b.setIfInBounds i v

/-- A buffer of eight bytes 0x00 (10_state R47, R48). -/
def bufZero : Buffer := Vector.replicate 8 0x00#8

/-- `(zext_8(ADDR[6:0]) << 1) | dir` (30_encoding R96). -/
def addrByte (a : Addr7) (dir : Bool) : Byte :=
  (a.setWidth 8 <<< 1) ||| (BitVec.ofBool dir).setWidth 8

/-- The direction bit of a leg: 0 for a write leg, 1 for a read leg (30_encoding R96). -/
def Leg.dir : Leg → Bool
  | .w => false
  | .r => true

/-- A count passes decode when it is at most `BUF_DEPTH` (10_state R29, R30; 40_bus R121). -/
def countOk (c : Byte) : Bool := decide (c.toNat ≤ Config.bufDepth)

/-- `a : b`, the word with high byte `a` (00_scope R11, 20_memory R67). -/
def wordOf (hi lo : Byte) : Word := hi ++ lo

/-- `w[15:8]`. -/
def hiByte (w : Word) : Byte := w.extractLsb' 8 8

/-- `w[7:0]`. -/
def loByte (w : Word) : Byte := w.extractLsb' 0 8

/-- `word_g = RXBUF[3g] : RXBUF[3g+1]` (42_checksum R181). -/
def groupWord (b : Buffer) (g : Nat) : Word := wordOf (bufGet b (3 * g)) (bufGet b (3 * g + 1))

/-- `check_g = RXBUF[3g+2]` (42_checksum R181). -/
def groupCheck (b : Buffer) (g : Nat) : Byte := bufGet b (3 * g + 2)

/-- The register at an offset (10_state R20). -/
def Reg.ofOffset (off : Offset) : Reg :=
  match off.toNat with
  | 0x00 => .cmd
  | 0x01 => .status
  | 0x02 => .outcome
  | 0x03 => .addr
  | 0x04 => .txlen
  | 0x05 => .rxcnt
  | 0x06 => .rxlen
  | 0x07 => .chkerr
  | 0x18 => .ckhi
  | 0x19 => .cklo
  | 0x1A => .ckrcv
  | 0x1B => .ckcalc
  | 0x1C => .ckmatch
  | 0x1D => .reserved 0
  | 0x1E => .reserved 1
  | 0x1F => .reserved 2
  | k => if k < 0x10 then .txbuf (Fin.ofNat 8 k) else .rxbuf (Fin.ofNat 8 k)

/-- `off(REG)`: the offset of a register (10_state R20, 30_encoding R102). -/
def Reg.offset : Reg → Offset
  | .cmd => 0x00#5
  | .status => 0x01#5
  | .outcome => 0x02#5
  | .addr => 0x03#5
  | .txlen => 0x04#5
  | .rxcnt => 0x05#5
  | .rxlen => 0x06#5
  | .chkerr => 0x07#5
  | .txbuf i => BitVec.ofNat 5 (0x08 + i.val)
  | .rxbuf i => BitVec.ofNat 5 (0x10 + i.val)
  | .ckhi => 0x18#5
  | .cklo => 0x19#5
  | .ckrcv => 0x1A#5
  | .ckcalc => 0x1B#5
  | .ckmatch => 0x1C#5
  | .reserved i => BitVec.ofNat 5 (0x1D + i.val)

/-- The offset of a host address, where it lies in the window (20_memory R60). Log 5. -/
def routeOffset (addr : Nat) : Option Offset :=
  if Config.regBase ≤ addr ∧ addr < Config.regBase + Config.regSpan then
    some (BitVec.ofNat 5 (addr - Config.regBase))
  else none

end Sys2Proof.Machine
end

