-- ==== Sys2Proof/Machine/Flags.lean ====
section
/-! DEFINITION. Status computations: the STATUS byte (10_state R22), outcome codes (30_encoding R97),
what a PHY status means in each phase (40_bus R124 to R129, 60_exceptions R213), and the checker's
match flag (42_checksum R188). -/

namespace Sys2Proof.Machine

/-- OUTCOME's code in bits 2:0, bits 7:3 zero (30_encoding R97). -/
def CommandOutcome.code : CommandOutcome → Byte
  | .success => 0x00#8
  | .configError => 0x01#8
  | .noDataError => 0x02#8
  | .checksumError => 0x03#8
  | .ackError => 0x04#8
  | .busError => 0x05#8
  | .paramError => 0x06#8

/-- `0000 : HELD : OVR : VALID : BUSY` (20_memory R62, 10_state R22). -/
def statusByte (s : State) : Byte :=
  0b0000#4 ++ BitVec.ofBool s.held ++ BitVec.ofBool s.ovr ++ BitVec.ofBool s.valid
    ++ BitVec.ofBool s.busy

/-- The write-1-to-clear rule of STATUS.OVR (10_state R22, 20_memory R63): OVR after a write of `v`. -/
def ovrAfterStatusWrite (v : Byte) (ovr : Bool) : Bool := if v.getLsbD 2 then false else ovr

/-- START phase: both start statuses go on, whichever start it is (40_bus R124, R140). -/
def startVerdict (st : PhyStatus) : Verdict :=
  if st = .startSent ∨ st = .repStartSent then .proceed else .busError

/-- ADDR phase of a write leg (40_bus R125). -/
def addrWVerdict (st : PhyStatus) : Verdict :=
  if st = .addrWAck then .proceed else if st = .addrWNack then .ackError else .busError

/-- ADDR phase of a read leg (40_bus R126). -/
def addrRVerdict (st : PhyStatus) : Verdict :=
  if st = .addrRAck then .proceed else if st = .addrRNack then .ackError else .busError

/-- TXDATA phase (40_bus R127). -/
def txVerdict (st : PhyStatus) : Verdict :=
  if st = .txAck then .proceed else if st = .txNack then .ackError else .busError

/-- The handshake status expected for a received byte: NACK for the last, ACK for the others
(40_bus R129). -/
def expectedHandshake (last : Bool) : PhyStatus := if last then .rxNackSent else .rxAckSent

/-- RXACK phase (40_bus R129). -/
def rxAckVerdict (last : Bool) (st : PhyStatus) : Verdict :=
  if st = expectedHandshake last then .proceed
  else if st = .rxAckSent ∨ st = .rxNackSent then .ackError
  else .busError

/-- `zext_8(CKCALC == CKRCV)` (42_checksum R188). -/
def matchByte (calculated received : Byte) : Byte := if calculated = received then 0x01#8 else 0x00#8

/-- The mask with bit `g` set (42_checksum R186). -/
def groupBit (g : Nat) : Byte := 0x01#8 <<< g

end Sys2Proof.Machine
end

