-- ==== Sys2Proof/Machine/Ops.lean ====
section
/-! DEFINITION. The engine's shared operations: issuing an action, clearing the receive state,
completing and failing a command (what an ISA calls taking an exception, 60_exceptions R214, 40_bus
R136) and, beside it, accepting the next one (60_exceptions R220, 40_bus R120); the leg procedure
(40_bus R123 to R132); and the host's reads and writes of the window (20_memory R62 to R64). -/

namespace Sys2Proof.Machine

namespace State

/-- `issue(a)`: append the action to the bus trace and hand it to the PHY (00_scope R12). -/
def issue (a : PhyAction) (s : State) : State := { s with trace := s.trace ++ [.action a] }

/-- `goto p` (00_scope R12). -/
def goto (p : Phase) (s : State) : State := { s with phase := p }

/-- `E.op <- o` (40_bus R121). -/
def latchOp (o : EngineOp) (s : State) : State := { s with op := o }

/-- `R.STATUS.HELD <- b` (40_bus R124, R131). -/
def setHeld (b : Bool) (s : State) : State := { s with held := b }

/-- `RXLEN <- v` (40_bus R132). -/
def setRxlen (v : Byte) (s : State) : State := { s with rxlen := v }

/-- `CHKERR <- m` (42_checksum R182). -/
def setChkerr (m : Byte) (s : State) : State := { s with chkerr := m }

/-- The environment presents an event on the PHY port (00_scope R9). -/
def presentEvent (e : PhyEvent) (s : State) : State := { s with phyEvent := some e }

/-- The engine takes the event from the PHY port (40_bus R122). -/
def takeEvent (s : State) : State := { s with phyEvent := none }

/-- The turns still to come (00_scope R9). -/
def setInputs (l : List Turn) (s : State) : State := { s with inputs := l }

/-- `clearRx` (10_state R48). -/
def clearRx (s : State) : State := { s with rxbuf := bufZero, rxlen := 0x00#8 }

/-- `complete(o)` (60_exceptions R214): the end of every command. -/
def complete (o : CommandOutcome) (s : State) : State :=
  { s with outcome := o, valid := true, busy := false, phase := .idle }

/-- `fail(o)` (40_bus R136, R137): a read leg discards what it received; no further action is issued. -/
def fail (o : CommandOutcome) (s : State) : State :=
  match s.leg with
  | .w => s.complete o
  | .r => s.clearRx.complete o

/-- `accept(c)` (40_bus R120). -/
def accept (c : Byte) (s : State) : State := { s with cmd := c, busy := true, phase := .decode }

/-- `drop()` (20_memory R64). -/
def drop (s : State) : State := { s with ovr := true }

/-! The host's writes of single registers (20_memory R63). -/

def setOvr (b : Bool) (s : State) : State := { s with ovr := b }
def setAddr (a : Addr7) (s : State) : State := { s with addr := a }
def setTxlen (v : Byte) (s : State) : State := { s with txlen := v }
def setRxcnt (v : Byte) (s : State) : State := { s with rxcnt := v }
def storeTx (i : Nat) (v : Byte) (s : State) : State := { s with txbuf := bufSet s.txbuf i v }
def setCkhi (v : Byte) (s : State) : State := { s with ckhi := v }
def setCklo (v : Byte) (s : State) : State := { s with cklo := v }
def setCkrcv (v : Byte) (s : State) : State := { s with ckrcv := v }

/-- The host has one more read value (00_scope R10). -/
def logRead (r : HostRead) (s : State) : State := { s with hostReads := s.hostReads ++ [r] }

/-- The byte count of a leg (40_bus R123). -/
def legCount (dir : Leg) (s : State) : Nat :=
  match dir with
  | .w => s.txlen.toNat
  | .r => s.rxcnt.toNat

/-- The leg's direction, stop flag, index and count (40_bus R123). -/
def setLeg (dir : Leg) (stop : Bool) (s : State) : State :=
  { s with leg := dir, stop := stop, idx := 0, n := s.legCount dir }

/-- `beginLeg(dir, stop)` (40_bus R123). -/
def beginLeg (dir : Leg) (stop : Bool) (s : State) : State :=
  ((s.setLeg dir stop).issue .start).goto .start

/-- The end of a command whose last leg is done: a read leg declares its bytes valid (40_bus R132). -/
def finish (s : State) : State :=
  match s.leg with
  | .w => s.complete .success
  | .r => (s.setRxlen (BitVec.ofNat 8 s.n)).complete .success

/-- `legDone()` (40_bus R132): the write leg of WRITE_THEN_READ begins the read leg (41_composite
R161). -/
def legDone (s : State) : State :=
  if s.op = .wtr ∧ s.leg = .w then s.beginLeg .r true else s.finish

/-- `endLeg()` (40_bus R130). -/
def endLeg (s : State) : State :=
  if s.stop then (s.issue .stop).goto .stop else s.legDone

/-- `txNext()` (40_bus R125). -/
def txNext (s : State) : State :=
  if s.idx < s.n then (s.issue (.send (bufGet s.txbuf s.idx))).goto .txData else s.endLeg

/-- Whether the current byte is the leg's last: `E.idx = E.n - 1` (40_bus R128, R129). -/
def lastByte (s : State) : Bool := decide (s.idx + 1 = s.n)

/-- Act on a verdict: go on, or abort with its outcome (60_exceptions R213). -/
def judge (v : Verdict) (goOn : State → State) (s : State) : State :=
  match v with
  | .proceed => goOn s
  | .ackError => s.fail .ackError
  | .busError => s.fail .busError

/-- START accepted: the address byte goes out (40_bus R124). -/
def sendAddress (s : State) : State :=
  ((s.setHeld true).issue (.send (addrByte s.addr s.leg.dir))).goto .addr

/-- START phase, `DONE(st)` (40_bus R124). -/
def onStart (st : PhyStatus) (s : State) : State := s.judge (startVerdict st) sendAddress

/-- The read address was acknowledged (40_bus R126, R135). -/
def beginReceive (s : State) : State :=
  if s.n = 0 then (s.issue .nack0).endLeg else s.goto .rxByte

/-- ADDR phase, `DONE(st)` (40_bus R125 for a write leg, R126 for a read leg). -/
def onAddr (st : PhyStatus) (s : State) : State :=
  match s.leg with
  | .w => s.judge (addrWVerdict st) txNext
  | .r => s.judge (addrRVerdict st) beginReceive

/-- `E.idx <- E.idx + 1`. -/
def nextIndex (s : State) : State := { s with idx := s.idx + 1 }

/-- TXDATA phase, `DONE(st)` (40_bus R127). -/
def onTxData (st : PhyStatus) (s : State) : State :=
  s.judge (txVerdict st) (fun s => s.nextIndex.txNext)

/-- `RXBUF[E.idx] <- d`, and the entry `RX(d)` of the trace (40_bus R128). -/
def storeRx (d : Byte) (s : State) : State :=
  { s with rxbuf := bufSet s.rxbuf s.idx d, trace := s.trace ++ [.rx d] }

/-- RXBYTE phase, `BYTE(d)` (40_bus R128). -/
def onRxByte (d : Byte) (s : State) : State :=
  ((s.storeRx d).issue (if s.lastByte then .nack else .ack)).goto .rxAck

/-- The handshake of a received byte is done (40_bus R129). -/
def rxNext (s : State) : State :=
  if s.idx < s.n then s.goto .rxByte else s.endLeg

/-- RXACK phase, `DONE(st)` (40_bus R129). -/
def onRxAck (st : PhyStatus) (s : State) : State :=
  s.judge (rxAckVerdict s.lastByte st) (fun s => s.nextIndex.rxNext)

/-- STOP phase, `STOP_DONE` (40_bus R131). -/
def onStopDone (s : State) : State := (s.setHeld false).legDone

end State

/-- The engine processes one event (40_bus R122): each phase takes the kind of event it expects, and
an event of another kind is refused (10_state R44). -/
def onEvent (e : PhyEvent) (s : State) : Host.Outcome State Fault Refusal :=
  match s.phase, e with
  | .start, .done st => .next (s.onStart st)
  | .addr, .done st => .next (s.onAddr st)
  | .txData, .done st => .next (s.onTxData st)
  | .rxByte, .byte d => .next (s.onRxByte d)
  | .rxAck, .done st => .next (s.onRxAck st)
  | .stop, .stopDone => .next s.onStopDone
  | _, _ => .refused .phyContract

/-- The engine's step in a waiting phase (40_bus R122): it takes the event on the PHY port; with none
there no event step is enabled and it stays where it is (10_state R43). -/
def eventStep (s : State) : Host.Outcome State Fault Refusal :=
  match s.phyEvent with
  | none => .next s
  | some e => onEvent e s.takeEvent

/-- One atomic step of a command: it is accepted in IDLE (40_bus R120), decoded in DECODE (R121), and
sequenced by events in the waiting phases (R122). `onDecode` is the command's own case of the decode
step. Log 12. -/
def commandStep (i : Instr) (onDecode : State → State) (s : State) :
    Host.Outcome State Fault Refusal :=
  match s.phase with
  | .idle => .next (s.accept (encodeByte i))
  | .decode => .next (onDecode (s.latchOp i.op))
  | .start | .addr | .txData | .rxByte | .rxAck | .stop => eventStep s

/-- `MemRead` of one register, the checksum function given (20_memory R62). CKCALC and CKMATCH are
computed here, at each read (log 13). -/
def readRegWith (f : Word → Byte) (r : Reg) (s : State) : Byte :=
  match r with
  | .cmd => s.cmd
  | .status => statusByte s
  | .outcome => s.outcome.code
  | .addr => s.addr.setWidth 8
  | .txlen => s.txlen
  | .rxcnt => s.rxcnt
  | .rxlen => s.rxlen
  | .chkerr => s.chkerr
  | .txbuf i => bufGet s.txbuf i.val
  | .rxbuf i => bufGet s.rxbuf i.val
  | .ckhi => s.ckhi
  | .cklo => s.cklo
  | .ckrcv => s.ckrcv
  | .ckcalc => f (wordOf s.ckhi s.cklo)
  | .ckmatch => matchByte (f (wordOf s.ckhi s.cklo)) s.ckrcv
  | .reserved _ => 0x00#8

/-- `MemRead` of one register under `CHECK_FN` (20_memory R62). -/
def readReg (r : Reg) (s : State) : Byte := readRegWith Config.checkFn r s

/-- `MemRead(off, 1)` (20_memory R62). -/
def memRead (off : Offset) (s : State) : Byte := readReg (Reg.ofOffset off) s

/-- A write the engine may not see while it runs: dropped while BUSY (20_memory R63, R64). -/
def writeWhenIdle (write : State → State) (s : State) : State := if s.busy then s.drop else write s

/-- `MemWrite` of one register (20_memory R63). -/
def writeReg (r : Reg) (v : Byte) (s : State) : State :=
  match r with
  | .cmd => writeWhenIdle (State.accept v) s
  | .status => s.setOvr (ovrAfterStatusWrite v s.ovr)
  | .outcome | .rxlen | .chkerr | .rxbuf _ | .ckcalc | .ckmatch | .reserved _ => s
  | .addr => writeWhenIdle (State.setAddr (v.setWidth 7)) s
  | .txlen => writeWhenIdle (State.setTxlen v) s
  | .rxcnt => writeWhenIdle (State.setRxcnt v) s
  | .txbuf i => writeWhenIdle (State.storeTx i.val v) s
  | .ckhi => s.setCkhi v
  | .cklo => s.setCklo v
  | .ckrcv => s.setCkrcv v

/-- `MemWrite(off, 1, v)` (20_memory R63). -/
def memWrite (off : Offset) (v : Byte) (s : State) : State := writeReg (Reg.ofOffset off) v s

/-- A host read: no register changes (20_memory R62, R66); the host has the value (00_scope R10). -/
def hostRead (off : Offset) (s : State) : State :=
  s.logRead ⟨off, memRead off s⟩

/-- One host access (20_memory R61): 8 bits wide (R65) and in the window (R60). -/
def hostAccess (a : HostAccess) (s : State) : Host.Outcome State Fault Refusal :=
  if a.width = 8 then
    match routeOffset a.addr with
    | none => .fault (.outsideWindow a.addr)
    | some off =>
      match a.op with
      | .read => .next (hostRead off s)
      | .write v => .next (memWrite off v s)
  else .refused (.accessWidth a.width)

/-- The reset step (70_reset R240, R241): every piece of the block's state takes its reset value. What
is outside the block stays: the turns to come, and what the host has read. Log 8. -/
def applyReset (s : State) : State :=
  { State.reset with inputs := s.inputs, hostReads := s.hostReads }

end Sys2Proof.Machine
end

