-- ==== Sys2Proof/Machine/BusCommands.lean ====
section
/-! DEFINITION. TRANSMIT and RECEIVE (40_bus R121, R133, R134). -/

namespace Sys2Proof.Machine

/-- TRANSMIT's case of the decode step (40_bus R121). -/
def decodeTransmit (stop : Bool) (s : State) : State :=
  if countOk s.txlen then s.beginLeg .w stop else s.complete .paramError

/-- TRANSMIT (40_bus R133). -/
def execTransmit (stop : Bool) (s : State) : Host.Outcome State Fault Refusal :=
  commandStep (.transmit stop) (decodeTransmit stop) s

/-- RECEIVE's case of the decode step (40_bus R121): the count is checked before `clearRx`. -/
def decodeReceive (stop : Bool) (s : State) : State :=
  if countOk s.rxcnt then s.clearRx.beginLeg .r stop else s.complete .paramError

/-- RECEIVE (40_bus R134, R135). -/
def execReceive (stop : Bool) (s : State) : Host.Outcome State Fault Refusal :=
  commandStep (.receive stop) (decodeReceive stop) s

end Sys2Proof.Machine
end

