-- ==== Sys2Proof/Machine/Checksum.lean ====
section
/-! DEFINITION. The checksum validator: the VERIFY command (42_checksum R182 to R186) over the open
`CHECK_FN`, and the two candidate instances of it (R190 to R192), which no step uses. -/

namespace Sys2Proof.Machine

/-- One bit step of the CRC (42_checksum R190). -/
def crcBit (c : Byte) : Byte := if c.getLsbD 7 then (c <<< 1) ^^^ 0x31#8 else c <<< 1

/-- One byte of the CRC: XOR it in, then eight bit steps (42_checksum R190). -/
def crcByte (c b : Byte) : Byte :=
  crcBit (crcBit (crcBit (crcBit (crcBit (crcBit (crcBit (crcBit (c ^^^ b))))))))

/-- The instance `CRC8_31_FF`, serial form (42_checksum R190). A candidate only. Log 14. -/
def crc8_31_FF (w : Word) : Byte := crcByte (crcByte 0xFF#8 (hiByte w)) (loByte w)

/-- The XOR of the word bits whose numbers are listed. -/
def xorBits (w : Word) (bits : List Nat) : Bool :=
  bits.foldr (fun i acc => xor (w.getLsbD i) acc) false

/-- The byte whose bits 7 down to 0 are given. -/
def byteOfBits (b7 b6 b5 b4 b3 b2 b1 b0 : Bool) : Byte :=
  BitVec.ofBool b7 ++ BitVec.ofBool b6 ++ BitVec.ofBool b5 ++ BitVec.ofBool b4
    ++ BitVec.ofBool b3 ++ BitVec.ofBool b2 ++ BitVec.ofBool b1 ++ BitVec.ofBool b0

/-- `CRC8_31_FF` in its parallel form (42_checksum R191). -/
def crc8Parallel (w : Word) : Byte :=
  byteOfBits
    (xor (xorBits w [14, 13, 10, 9, 8, 5, 3, 2]) true)
    (xorBits w [13, 12, 9, 8, 7, 4, 2, 1])
    (xorBits w [15, 12, 11, 8, 7, 6, 3, 1, 0])
    (xorBits w [13, 11, 9, 8, 7, 6, 3, 0])
    (xorBits w [14, 13, 12, 9, 7, 6, 3])
    (xorBits w [13, 12, 11, 8, 6, 5, 2])
    (xorBits w [15, 12, 11, 10, 7, 5, 4, 1])
    (xor (xorBits w [15, 14, 11, 10, 9, 6, 4, 3, 0]) true)

/-- The instance `XOR8` (42_checksum R192). A candidate only. -/
def xor8 (w : Word) : Byte := hiByte w ^^^ loByte w

/-- Group `g` fails its check (42_checksum R182, R186). -/
def groupBad (f : Word → Byte) (b : Buffer) (g : Nat) : Bool :=
  decide (f (groupWord b g) ≠ groupCheck b g)

/-- The mismatch mask of the first `k` groups: every group is checked (42_checksum R182, R186). -/
def mismatchMask (f : Word → Byte) (b : Buffer) : Nat → Byte
  | 0 => 0x00#8
  | k + 1 => mismatchMask f b k ||| (if groupBad f b k then groupBit k else 0x00#8)

/-- The end of a VERIFY whose groups were checked with mask `m` (42_checksum R182, R185). -/
def verdictOfMask (m : Byte) (s : State) : State :=
  if m = 0x00#8 then (s.setChkerr m).complete .success
  else (s.setChkerr m).clearRx.complete .checksumError

/-- `verify()` (42_checksum R182), the checksum function given. -/
def verifyWith (f : Word → Byte) (s : State) : State :=
  if s.rxlen.toNat = 0 then (s.setChkerr 0x00#8).complete .noDataError
  else if s.rxlen.toNat % 3 ≠ 0 then (s.setChkerr 0x00#8).complete .paramError
  else verdictOfMask (mismatchMask f s.rxbuf (s.rxlen.toNat / 3)) s

/-- VERIFY (42_checksum R182): all of it happens in the decode step. -/
def execVerify (x : Bool) (s : State) : Host.Outcome State Fault Refusal :=
  commandStep (.verify x) (verifyWith Config.checkFn) s

end Sys2Proof.Machine
end

