-- ==== Sys2Proof/Machine/Composite.lean ====
section
/-! DEFINITION. WRITE_THEN_READ (41_composite R160 to R164). -/

namespace Sys2Proof.Machine

/-- WRITE_THEN_READ's case of the decode step (40_bus R121): the write leg never has a stop (41_composite
R161); the read leg is begun by `legDone`. -/
def decodeWriteThenRead (s : State) : State :=
  if countOk s.txlen && countOk s.rxcnt then s.clearRx.beginLeg .w false
  else s.complete .paramError

/-- WRITE_THEN_READ (41_composite R160). -/
def execWriteThenRead (x : Bool) (s : State) : Host.Outcome State Fault Refusal :=
  commandStep (.writeThenRead x) decodeWriteThenRead s

end Sys2Proof.Machine
end

