-- ==== Sys2Proof/Machine/Reserved.lean ====
section
/-! DEFINITION. The RESERVED commands (60_exceptions R211, 30_encoding R94): accepted like any other,
and completed at decode with PARAM_ERROR. -/

namespace Sys2Proof.Machine

/-- The decode step of a RESERVED command (40_bus R121, 60_exceptions R211). -/
def decodeReserved (s : State) : State := s.complete .paramError

/-- RESERVED, row `0000 x 000` (60_exceptions R211). -/
def execReservedOp0 (x : Bool) (s : State) : Host.Outcome State Fault Refusal :=
  commandStep (.reservedOp0 x) decodeReserved s

/-- RESERVED, row `0000 x 101` (60_exceptions R211). -/
def execReservedOp5 (x : Bool) (s : State) : Host.Outcome State Fault Refusal :=
  commandStep (.reservedOp5 x) decodeReserved s

/-- RESERVED, row `0000 x 110` (60_exceptions R211). -/
def execReservedOp6 (x : Bool) (s : State) : Host.Outcome State Fault Refusal :=
  commandStep (.reservedOp6 x) decodeReserved s

/-- RESERVED, row `0000 x 111` (60_exceptions R211). -/
def execReservedOp7 (x : Bool) (s : State) : Host.Outcome State Fault Refusal :=
  commandStep (.reservedOp7 x) decodeReserved s

/-- RESERVED, row `1xxxxxxx` (60_exceptions R211). -/
def execReservedBit7 (low : BitVec 7) (s : State) : Host.Outcome State Fault Refusal :=
  commandStep (.reservedBit7 low) decodeReserved s

/-- RESERVED, row `01xxxxxx` (60_exceptions R211). -/
def execReservedBit6 (low : BitVec 6) (s : State) : Host.Outcome State Fault Refusal :=
  commandStep (.reservedBit6 low) decodeReserved s

/-- RESERVED, row `001xxxxx` (60_exceptions R211). -/
def execReservedBit5 (low : BitVec 5) (s : State) : Host.Outcome State Fault Refusal :=
  commandStep (.reservedBit5 low) decodeReserved s

/-- RESERVED, row `0001xxxx` (60_exceptions R211). -/
def execReservedBit4 (low : BitVec 4) (s : State) : Host.Outcome State Fault Refusal :=
  commandStep (.reservedBit4 low) decodeReserved s

end Sys2Proof.Machine
end

