-- ==== Sys2Proof/Machine/Dispatch.lean ====
section
/-! DEFINITION. One arm per command: its next atomic step (log 12). -/

namespace Sys2Proof.Machine

def exec (i : Instr) (s : State) : Host.Outcome State Fault Refusal :=
  match i with
  | .transmit stop => Sys2Proof.Machine.execTransmit stop s
  | .receive stop => Sys2Proof.Machine.execReceive stop s
  | .writeThenRead x => Sys2Proof.Machine.execWriteThenRead x s
  | .verify x => Sys2Proof.Machine.execVerify x s
  | .reservedOp0 x => Sys2Proof.Machine.execReservedOp0 x s
  | .reservedOp5 x => Sys2Proof.Machine.execReservedOp5 x s
  | .reservedOp6 x => Sys2Proof.Machine.execReservedOp6 x s
  | .reservedOp7 x => Sys2Proof.Machine.execReservedOp7 x s
  | .reservedBit7 low => Sys2Proof.Machine.execReservedBit7 low s
  | .reservedBit6 low => Sys2Proof.Machine.execReservedBit6 low s
  | .reservedBit5 low => Sys2Proof.Machine.execReservedBit5 low s
  | .reservedBit4 low => Sys2Proof.Machine.execReservedBit4 low s

end Sys2Proof.Machine
end

