-- ==== Sys2Proof/Machine/Turns.lean ====
section
/-! DEFINITION. One turn of one agent (00_scope R9): which atomic step it is. -/

namespace Sys2Proof.Machine

/-- The command the engine runs: `decode(E.cmd)` (40_bus R121, 30_encoding R95). -/
def fetchCommand (s : State) : Instr := decodeByte s.cmd

/-- The engine's turn with no event: the decode step where the phase is DECODE (40_bus R121). In any
other phase no such step is enabled, and the turn lapses (logs 2 and 3). -/
def engineTurn (s : State) : Host.Outcome State Fault Refusal :=
  match s.phase with
  | .decode => exec (fetchCommand s) s
  | .idle | .start | .addr | .txData | .rxByte | .rxAck | .stop => .next s

/-- The environment delivers an event and the engine processes it in the same step (40_bus R122); in
IDLE and DECODE no event may arrive (10_state R44). -/
def phyTurn (e : PhyEvent) (s : State) : Host.Outcome State Fault Refusal :=
  match s.phase with
  | .idle | .decode => .refused .phyContract
  | .start | .addr | .txData | .rxByte | .rxAck | .stop =>
    exec (fetchCommand s) (s.presentEvent e)

/-- One turn (00_scope R9, 70_reset R240). -/
def takeTurn (t : Turn) (s : State) : Host.Outcome State Fault Refusal :=
  match t with
  | .engine => engineTurn s
  | .phy e => phyTurn e s
  | .phyCode c => phyTurn (.done (Config.phyStatusClass c)) s
  | .host a => hostAccess a s
  | .reset => .next (applyReset s)

/-- Put a command where the engine fetches its next one: `E.cmd`, in the DECODE phase with BUSY set,
as the acceptance of 40_bus R120 leaves them, and the next turn the engine's. Log 16. -/
def placeCommand (c : Byte) (s : State) : State :=
  { s with
    cmd := c
    busy := true
    phase := .decode
    inputs := match s.inputs with
      | [] => []
      | t :: rest => .engine :: t :: rest }

end Sys2Proof.Machine
end

