-- ==== Sys2Proof/Machine/Step.lean ====
section
/-! DEFINITION. One step of the machine: the next turn of `inputs` (00_scope R9). -/

namespace Sys2Proof.Machine

/-- The next atomic step. With no turn listed the engine decodes if it can, which needs nothing from
outside, and otherwise everything stays as it is: an idle block, or a hang (40_bus R143). Log 2. -/
def step (s : State) : Host.Outcome State Fault Refusal :=
  match s.inputs with
  | [] => engineTurn s
  | t :: rest => takeTurn t (s.setInputs rest)

/-- The state with a command byte placed as the next one the engine runs (log 16). -/
def State.withFetchWord (s : State) (nbits w : Nat) : State :=
  placeCommand (BitVec.ofNat 8 (w % 2 ^ nbits)) s

end Sys2Proof.Machine
end

