-- ==== Sys2Proof/Machine/HostProgram.lean ====
section
/-! DEFINITION. The host-program and environment-script notations (30_encoding R102 to R104) as turns
of `inputs`. -/

namespace Sys2Proof.Machine.HostProgram

/-- `wr REG, imm8` (30_encoding R102). -/
def wr (r : Reg) (v : Byte) : Turn :=
  .host { addr := Config.regBase + r.offset.toNat, width := 8, op := .write v }

/-- `rd REG` (30_encoding R102). -/
def rd (r : Reg) : Turn :=
  .host { addr := Config.regBase + r.offset.toNat, width := 8, op := .read }

/-- `cmd TRANSMIT` and `cmd TRANSMIT, stop` (30_encoding R103). -/
def cmdTransmit (stop : Bool) : Turn := wr .cmd (if stop then 0x09#8 else 0x01#8)

/-- `cmd RECEIVE` and `cmd RECEIVE, stop` (30_encoding R103). -/
def cmdReceive (stop : Bool) : Turn := wr .cmd (if stop then 0x0A#8 else 0x02#8)

/-- `cmd WTR` (30_encoding R103). -/
def cmdWtr : Turn := wr .cmd 0x03#8

/-- `cmd VERIFY` (30_encoding R103). -/
def cmdVerify : Turn := wr .cmd 0x04#8

/-- The buffer writes of `ldtx`, from TXBUF`k` on. -/
def ldtxFrom (k : Nat) : List Byte → List Turn
  | [] => []
  | b :: bs => wr (.txbuf (Fin.ofNat 8 k)) b :: ldtxFrom (k + 1) bs

/-- `ldtx b0, ..., b(k-1)`, k at most 8 (30_encoding R103). -/
def ldtx (bs : List Byte) : List Turn := ldtxFrom 0 bs ++ [wr .txlen (BitVec.ofNat 8 bs.length)]

/-- `ldw16 w`: a big-endian command word (30_encoding R103, 20_memory R67). -/
def ldw16 (w : Word) : List Turn :=
  [wr (.txbuf 0) (hiByte w), wr (.txbuf 1) (loByte w), wr .txlen 0x02#8]

/-- `k` reads of `poll`, each of STATUS (30_encoding R103). How many it takes is the host's to see. -/
def polls (k : Nat) : List Turn := List.replicate k (rd .status)

/-- `poll` ends at a read with bit 0 = 0 (30_encoding R103). -/
def pollEnds (v : Byte) : Bool := !v.getLsbD 0

/-- `clrovr` (30_encoding R103). -/
def clrovr : Turn := wr .status 0x04#8

/-- `env: e1, e2, ...` (30_encoding R104). -/
def env (es : List PhyEvent) : List Turn := es.map .phy

end Sys2Proof.Machine.HostProgram
end

