-- ==== Sys2Proof/Safety.lean ====
section
/-! DEFINITION. What claims are stated in terms of: the invariant of a safe run (10_state R48, R49),
the bus trace and the events of a leg (40_bus R141, R142), and a run in which the environment always
answers. -/

namespace Sys2Proof.Machine

/-- The engine is in a waiting phase (40_bus R122). -/
abbrev State.Waiting (s : State) : Prop := s.phase.waiting = true

/-- How many bytes of RXBUF may hold received data: RXLEN when no read leg is receiving, and what has
come in so far while one is (10_state R34, 20_memory R77). -/
def rxFilled (s : State) : Nat :=
  match s.phase with
  | .idle | .decode | .start | .addr | .txData => s.rxlen.toNat
  | .rxByte => s.idx
  | .rxAck => s.idx + 1
  | .stop =>
    match s.leg with
    | .w => s.rxlen.toNat
    | .r => s.n

/-- The operations whose legs run in a direction: TRANSMIT and the first leg of WRITE_THEN_READ write,
RECEIVE and the second leg read (40_bus R121, 41_composite R161). -/
def legOfOp (op : EngineOp) (leg : Leg) : Prop :=
  match leg with
  | .w => op = .transmit ∨ op = .wtr
  | .r => op = .receive ∨ op = .wtr

/-- The engine is not in the middle of some other command than `i`: while it waits, `E.op` and `E.leg`
are ones `i` runs with, and it receives bytes only in a read leg (10_state R38). `EngineInv` gives it of the
command of `E.cmd`. -/
def Running (i : Instr) (s : State) : Prop :=
  s.Waiting → s.op = i.op ∧ legOfOp i.op s.leg ∧ (s.phase = .rxByte → s.leg = .r)

/-- What `E.idx` is in each waiting phase (10_state R38, R49 (c)). -/
def indexOk (s : State) : Prop :=
  match s.phase with
  | .idle | .decode => True
  | .start | .addr => s.idx = 0
  | .txData => s.leg = .w ∧ s.idx < s.n
  | .rxByte | .rxAck => s.leg = .r ∧ s.idx < s.n
  | .stop => s.idx = s.n ∧ s.stop = true

/-- What holds of the engine while a bus command runs. -/
structure LegInv (s : State) : Prop where
  /-- `E.op` is the accepted byte's operation (40_bus R121). -/
  op_decoded : s.op = decodeOp s.cmd
  op_leg : legOfOp s.op s.leg
  /-- `E.n` is the count register of the leg, at most `BUF_DEPTH` (40_bus R121, R123). -/
  n_count : s.n = s.legCount s.leg
  n_le : s.n ≤ 8
  index_ok : indexOk s
  /-- WRITE_THEN_READ stops its read leg only, and its read count has passed decode (41_composite R161,
  40_bus R121). -/
  wtr_stop : s.op = .wtr → (s.stop = true ↔ s.leg = .r)
  wtr_count : s.op = .wtr → s.rxcnt.toNat ≤ 8
  /-- TRANSMIT and RECEIVE take their stop flag from the command byte (30_encoding R93). -/
  own_stop : s.op ≠ .wtr → s.stop = stopBit s.cmd
  /-- The start has been accepted once the START phase is left (10_state R26). -/
  held_after_start : s.phase ≠ .start → s.held = true
  /-- RXLEN stays 0 until a read leg succeeds (20_memory R77). -/
  rxlen_zero : s.op ≠ .transmit → s.rxlen = 0x00#8

/-- The invariant every step keeps (10_state R48, R49). -/
structure EngineInv (s : State) : Prop where
  /-- 10_state R49 (a). -/
  busy_iff : s.busy = true ↔ s.phase ≠ .idle
  /-- 10_state R49 (b). -/
  rxlen_le : s.rxlen.toNat ≤ 8
  /-- CHKERR bits 7:2 are 0 (10_state R49 (d)). -/
  chkerr_lt : s.chkerr.toNat < 4
  /-- The bytes of RXBUF that hold no received data are 0x00 (10_state R48). -/
  rx_tail : ∀ i < 8, rxFilled s ≤ i → bufGet s.rxbuf i = 0x00#8
  /-- No event is on the port between steps (10_state R44). -/
  port_empty : s.phyEvent = none
  /-- OUTCOME holds its reset value until a command has completed (10_state R24). -/
  not_valid : s.valid = false → s.outcome = .success
  /-- CONFIG_ERROR is never written (60_exceptions R212). -/
  no_config : s.outcome ≠ .configError
  leg_inv : s.Waiting → LegInv s

/-- The statuses that let a command go on, phase by phase (60_exceptions R213, third column). -/
def statusGoesOn (s : State) (st : PhyStatus) : Prop :=
  (s.phase = .start ∧ (st = .startSent ∨ st = .repStartSent)) ∨
  (s.phase = .addr ∧ s.leg = .w ∧ st = .addrWAck) ∨
  (s.phase = .addr ∧ s.leg = .r ∧ st = .addrRAck) ∨
  (s.phase = .txData ∧ st = .txAck) ∨
  (s.phase = .rxAck ∧ s.idx ≠ s.n - 1 ∧ st = .rxAckSent) ∨
  (s.phase = .rxAck ∧ s.idx = s.n - 1 ∧ st = .rxNackSent)

/-- The statuses that end a command with ACK_ERROR, phase by phase (60_exceptions R213). -/
def statusAckFails (s : State) (st : PhyStatus) : Prop :=
  (s.phase = .addr ∧ s.leg = .w ∧ st = .addrWNack) ∨
  (s.phase = .addr ∧ s.leg = .r ∧ st = .addrRNack) ∨
  (s.phase = .txData ∧ st = .txNack) ∨
  (s.phase = .rxAck ∧ s.idx ≠ s.n - 1 ∧ st = .rxNackSent) ∨
  (s.phase = .rxAck ∧ s.idx = s.n - 1 ∧ st = .rxAckSent)

/-- The trace of the data bytes of a write leg (40_bus R141). -/
def sendTrace (b : Buffer) (n : Nat) : List TraceEntry :=
  (List.range n).map (fun i => .action (.send (bufGet b i)))

/-- `[STOP if s]` (40_bus R141). -/
def stopTrace (stop : Bool) : List TraceEntry := if stop then [.action .stop] else []

/-- The trace of a successful write leg (40_bus R141). -/
def writeLegTrace (a : Addr7) (b : Buffer) (n : Nat) (stop : Bool) : List TraceEntry :=
  .action .start :: .action (.send (addrByte a false)) :: sendTrace b n ++ stopTrace stop

/-- The trace of the received bytes: ACK after each but the last, NACK after the last (40_bus R141). -/
def receiveTrace : List Byte → List TraceEntry
  | [] => []
  | [d] => [.rx d, .action .nack]
  | d :: d' :: ds => .rx d :: .action .ack :: receiveTrace (d' :: ds)

/-- The data part of a read leg: NACK0 where the count is 0 (40_bus R135, R141). -/
def readDataTrace (ds : List Byte) : List TraceEntry :=
  if ds = [] then [.action .nack0] else receiveTrace ds

/-- The trace of a successful read leg (40_bus R141). -/
def readLegTrace (a : Addr7) (ds : List Byte) (stop : Bool) : List TraceEntry :=
  .action .start :: .action (.send (addrByte a true)) :: readDataTrace ds ++ stopTrace stop

/-- The stop's completion, where the leg has a stop. -/
def stopEvents (stop : Bool) : List PhyEvent := if stop then [.stopDone] else []

/-- The events of a successful write leg whose start is reported as `st` (40_bus R142). -/
def writeLegEvents (st : PhyStatus) (n : Nat) (stop : Bool) : List PhyEvent :=
  .done st :: .done .addrWAck :: List.replicate n (.done .txAck) ++ stopEvents stop

/-- The events of the received bytes of a successful read leg (40_bus R128, R129). -/
def receiveEvents : List Byte → List PhyEvent
  | [] => []
  | [d] => [.byte d, .done .rxNackSent]
  | d :: d' :: ds => .byte d :: .done .rxAckSent :: receiveEvents (d' :: ds)

/-- The events of a successful read leg whose start is reported as `st` (40_bus R142). -/
def readLegEvents (st : PhyStatus) (ds : List Byte) (stop : Bool) : List PhyEvent :=
  .done st :: .done .addrRAck :: receiveEvents ds ++ stopEvents stop

/-- RXBUF after a read leg that received `ds`: the bytes in order, then 0x00 (10_state R34, R48). -/
def rxImage (ds : List Byte) : Buffer := Vector.ofFn (fun i : Fin 8 => ds.getD i.val 0x00#8)

/-- The engine's step at its present phase, the environment answering with status `st` or byte `d`,
whichever kind of event the phase expects (10_state R43, R44). -/
def answerTurn (st : PhyStatus) (d : Byte) (s : State) : Turn :=
  match s.phase with
  | .idle | .decode => .engine
  | .start | .addr | .txData | .rxAck => .phy (.done st)
  | .rxByte => .phy (.byte d)
  | .stop => .phy .stopDone

/-- The engine alone, its environment answering every wait from a list: one step an answer. -/
def serve : List (PhyStatus × Byte) → State → Host.Outcome State Fault Refusal
  | [], s => .next s
  | (st, d) :: answers, s =>
    match step (s.setInputs [answerTurn st d s]) with
    | .next s' => serve answers s'
    | .fault f => .fault f
    | .refused r => .refused r

/-- A hang (40_bus R143): the engine waits, and no turn of any agent is left. -/
def Hung (s : State) : Prop := s.Waiting ∧ s.inputs = []

end Sys2Proof.Machine
end

