-- ==== Sys2Proof/Certificates/Slice0/Obligations.lean ====
section
/-! DEFINITION. The statements about the model, for the provers. Each docstring names the rules of spec/
it formalises, or the log entry it rests on. `inputs := rest` in a conclusion says only that the turn
taken is off the model's list of turns to come (log 1). -/

open Sys2Proof Sys2Proof.Machine

/-! ## Encoding -/

/-- Decoding the bytes of any command gives it back with the bytes after it, and a decoded byte
encodes to itself: no bit of the command byte is dropped (30_encoding R91, R94, R95). -/
def Obligations.DecodeAndEncodeAgree : Prop :=
  (∀ (i : Instr) (rest : List Byte), decode (encode i ++ rest) = .ok (i, rest)) ∧
  ∀ (c : Byte) (i : Instr) (rest rest' : List Byte),
    decode (c :: rest) = .ok (i, rest') → rest' = rest ∧ encode i = [c]

/-- 30_encoding R95: a nonzero high nibble is RESERVED, else bits 2:0 choose; and the twelve rows of the
table are disjoint and cover every byte: exactly the row of the decoded command matches. -/
def Obligations.DecodingOrder : Prop :=
  ∀ c : Byte,
    (c.extractLsb' 4 4 ≠ 0#4 → (decodeByte c).op = .reserved) ∧
    (c.extractLsb' 4 4 = 0#4 →
      (decodeByte c).op =
        if c.extractLsb' 0 3 = 1#3 then .transmit
        else if c.extractLsb' 0 3 = 2#3 then .receive
        else if c.extractLsb' 0 3 = 3#3 then .wtr
        else if c.extractLsb' 0 3 = 4#3 then .verify
        else .reserved) ∧
    opcodeRows.map (fun row => decide (c &&& row.1 = row.2)) =
      (List.range 12).map (fun j => decide ((decodeByte c).row = j))

/-- 30_encoding R101, the command map in prose: the eight legal bytes, every other byte RESERVED. -/
def Obligations.CommandMap : Prop :=
  decodeByte 0x01#8 = .transmit false ∧ decodeByte 0x09#8 = .transmit true ∧
  decodeByte 0x02#8 = .receive false ∧ decodeByte 0x0A#8 = .receive true ∧
  decodeByte 0x03#8 = .writeThenRead false ∧ decodeByte 0x0B#8 = .writeThenRead true ∧
  decodeByte 0x04#8 = .verify false ∧ decodeByte 0x0C#8 = .verify true ∧
  ∀ c : Byte, c ∉ [0x01#8, 0x09#8, 0x02#8, 0x0A#8, 0x03#8, 0x0B#8, 0x04#8, 0x0C#8] →
    (decodeByte c).op = .reserved

/-- 30_encoding R96: the first byte of every leg, sent right after the start is accepted, is
`ADDR[6:0] : dir`, dir 0 for a write leg and 1 for a read leg. -/
def Obligations.AddressByteFollowsStart : Prop :=
  ∀ (i : Instr) (s : State) (st : PhyStatus), s.phase = .start → s.phyEvent = some (.done st) →
    (st = .startSent ∨ st = .repStartSent) →
    ∃ t, exec i s = .next t ∧
      t.trace = s.trace ++ [.action (.send (s.addr ++ (if s.leg = .r then 1#1 else 0#1)))]

/-! ## The step -/

/-- A step runs the command the engine has latched: in DECODE with no turn or the engine's turn next,
and in a waiting phase with the event of the turn on the PHY port. It also runs exactly the command
`withFetchWord` places (40_bus R121, R122; logs 1, 2, 12, 16). -/
def Obligations.StepRunsDecodedCommand : Prop :=
  ∀ (i : Instr) (s : State) (rest : List Turn),
    (s.cmd = encodeByte i → s.phase = .decode → s.inputs = [] → step s = exec i s) ∧
    (s.cmd = encodeByte i → s.phase = .decode → s.inputs = .engine :: rest →
      step s = exec i { s with inputs := rest }) ∧
    (∀ e, s.cmd = encodeByte i → s.phase.waiting = true → s.inputs = .phy e :: rest →
      step s = exec i { s with inputs := rest, phyEvent := some e }) ∧
    (∀ c, s.cmd = encodeByte i → s.phase.waiting = true → s.inputs = .phyCode c :: rest →
      step s = exec i
        { s with inputs := rest, phyEvent := some (.done (Config.phyStatusClass c)) }) ∧
    step (s.withFetchWord 8 (encodeByte i).toNat) =
      exec i { s with cmd := encodeByte i, busy := true, phase := .decode }

/-- 10_state R47: the reset value of every piece of state. -/
def Obligations.ResetValues : Prop :=
  State.reset.cmd = 0x00#8 ∧ State.reset.busy = false ∧ State.reset.valid = false ∧
  State.reset.ovr = false ∧ State.reset.held = false ∧ statusByte State.reset = 0x00#8 ∧
  State.reset.outcome.code = 0x00#8 ∧ State.reset.addr = 0x00#7 ∧
  State.reset.txlen = 0x00#8 ∧ State.reset.rxcnt = 0x00#8 ∧ State.reset.rxlen = 0x00#8 ∧
  State.reset.chkerr = 0x00#8 ∧
  (∀ i < 8, bufGet State.reset.txbuf i = 0x00#8 ∧ bufGet State.reset.rxbuf i = 0x00#8) ∧
  State.reset.ckhi = 0x00#8 ∧ State.reset.cklo = 0x00#8 ∧ State.reset.ckrcv = 0x00#8 ∧
  memRead 0x1B#5 State.reset = Config.checkFn 0x0000#16 ∧
  memRead 0x1C#5 State.reset = (if Config.checkFn 0x0000#16 = 0x00#8 then 0x01#8 else 0x00#8) ∧
  State.reset.phase = .idle ∧ State.reset.op = .reserved ∧ State.reset.leg = .w ∧
  State.reset.stop = false ∧ State.reset.idx = 0 ∧ State.reset.n = 0 ∧ State.reset.trace = []

/-- 70_reset R240: reset may come at any time, is one atomic step that puts every piece of state to its
reset value, and is the only way out of a hung command: no engine turn and no host access leaves a
waiting phase while BUSY = 1. (That the turns to come and the host's own record of its reads survive is the model's
choice, log 8, and is not said here.) -/
def Obligations.ResetFromAnyState : Prop :=
  (∀ (s : State) (rest : List Turn), s.inputs = .reset :: rest →
    ∃ t, step s = .next t ∧
      { t with inputs := State.reset.inputs, hostReads := State.reset.hostReads } = State.reset) ∧
  ∀ (s t : State) (u : Turn) (rest : List Turn), s.phase.waiting = true → s.busy = true →
    s.inputs = u :: rest → (u = .engine ∨ ∃ a, u = .host a) → step s = .next t →
    t.phase = s.phase ∧ t.busy = true

/-! ## The host's accesses -/

/-- 40_bus R120: a CMD write while BUSY = 0 latches the byte, sets BUSY and goes to DECODE, and nothing
else changes; while BUSY = 1 it is no acceptance and is dropped. -/
def Obligations.AcceptCommand : Prop :=
  ∀ (s : State) (v : Byte) (rest : List Turn), s.inputs = HostProgram.wr .cmd v :: rest →
    (s.busy = false →
      step s = .next { s with inputs := rest, cmd := v, busy := true, phase := .decode }) ∧
    (s.busy = true → step s = .next { s with inputs := rest, ovr := true })

/-- The first atomic step of every command is its acceptance: in IDLE each command's meaning is the
acceptance of its own byte (40_bus R120; the model's choice of what exec covers, log 12). -/
def Obligations.CommandAcceptedFromIdle : Prop :=
  ∀ (i : Instr) (s : State), s.phase = .idle →
    exec i s = .next { s with cmd := encodeByte i, busy := true, phase := .decode }

/-- 20_memory R63: what a host write does at each offset. -/
def Obligations.HostWriteTable : Prop :=
  ∀ (s : State) (v : Byte),
    memWrite 0x01#5 v s = (if v.getLsbD 2 then { s with ovr := false } else s) ∧
    (∀ off ∈ [0x02#5, 0x06#5, 0x07#5, 0x10#5, 0x11#5, 0x12#5, 0x13#5, 0x14#5, 0x15#5, 0x16#5, 0x17#5,
        0x1B#5, 0x1C#5, 0x1D#5, 0x1E#5, 0x1F#5], memWrite off v s = s) ∧
    memWrite 0x18#5 v s = { s with ckhi := v } ∧
    memWrite 0x19#5 v s = { s with cklo := v } ∧
    memWrite 0x1A#5 v s = { s with ckrcv := v } ∧
    (s.busy = false →
      memWrite 0x00#5 v s = { s with cmd := v, busy := true, phase := .decode } ∧
      memWrite 0x03#5 v s = { s with addr := v.extractLsb' 0 7 } ∧
      memWrite 0x04#5 v s = { s with txlen := v } ∧
      memWrite 0x05#5 v s = { s with rxcnt := v } ∧
      ∀ i < 8, ∃ b, memWrite (BitVec.ofNat 5 (0x08 + i)) v s = { s with txbuf := b } ∧
        ∀ j < 8, bufGet b j = if j = i then v else bufGet s.txbuf j) ∧
    (s.busy = true →
      ∀ off ∈ [0x00#5, 0x03#5, 0x04#5, 0x05#5, 0x08#5, 0x09#5, 0x0A#5, 0x0B#5, 0x0C#5, 0x0D#5, 0x0E#5,
        0x0F#5], memWrite off v s = { s with ovr := true }) ∧
    ∀ (off : Offset) (rest : List Turn),
      s.inputs = .host ⟨Config.regBase + off.toNat, 8, .write v⟩ :: rest →
      step s = .next (memWrite off v { s with inputs := rest })

/-- 20_memory R62: what a host read returns at each offset, and that it has no side effect on any state
of the block. (`inputs` and `hostReads` are the model's own, logs 1 and 8.) -/
def Obligations.HostReadTable : Prop :=
  ∀ s : State,
    memRead 0x00#5 s = s.cmd ∧
    memRead 0x01#5 s = 0#4 ++ BitVec.ofBool s.held ++ BitVec.ofBool s.ovr ++ BitVec.ofBool s.valid
      ++ BitVec.ofBool s.busy ∧
    memRead 0x02#5 s = s.outcome.code ∧
    memRead 0x03#5 s = 0#1 ++ s.addr ∧
    memRead 0x04#5 s = s.txlen ∧ memRead 0x05#5 s = s.rxcnt ∧
    memRead 0x06#5 s = s.rxlen ∧ memRead 0x07#5 s = s.chkerr ∧
    (∀ i < 8, memRead (BitVec.ofNat 5 (0x08 + i)) s = bufGet s.txbuf i ∧
      memRead (BitVec.ofNat 5 (0x10 + i)) s = bufGet s.rxbuf i) ∧
    memRead 0x18#5 s = s.ckhi ∧ memRead 0x19#5 s = s.cklo ∧ memRead 0x1A#5 s = s.ckrcv ∧
    memRead 0x1B#5 s = Config.checkFn (s.ckhi ++ s.cklo) ∧
    memRead 0x1C#5 s = (if Config.checkFn (s.ckhi ++ s.cklo) = s.ckrcv then 0x01#8 else 0x00#8) ∧
    memRead 0x1D#5 s = 0x00#8 ∧ memRead 0x1E#5 s = 0x00#8 ∧ memRead 0x1F#5 s = 0x00#8 ∧
    (memRead 0x02#5 s).extractLsb' 3 5 = 0#5 ∧
    (EngineInv s → (memRead 0x07#5 s).extractLsb' 2 6 = 0#6) ∧
    ∀ (off : Offset) (rest : List Turn),
      s.inputs = .host ⟨Config.regBase + off.toNat, 8, .read⟩ :: rest →
      ∃ t, step s = .next t ∧ { t with inputs := s.inputs, hostReads := s.hostReads } = s

/-- The model's record of what the host has read (00_scope R10; the model's choice, log 8): a read step
appends the offset and the value `memRead` gives, and takes its turn off the list. -/
def Obligations.HostReadIsRecorded : Prop :=
  ∀ (s : State) (off : Offset) (rest : List Turn),
    s.inputs = .host ⟨Config.regBase + off.toNat, 8, .read⟩ :: rest →
    step s = .next { s with inputs := rest, hostReads := s.hostReads ++ [⟨off, memRead off s⟩] }

/-- 20_memory R65: an access of another width than 8 bits has no step; it is refused whole, never split
or merged. -/
def Obligations.OnlyByteAccesses : Prop :=
  ∀ (s : State) (a : HostAccess) (rest : List Turn), s.inputs = .host a :: rest →
    (a.width ≠ 8 → step s = .refused (.accessWidth a.width)) ∧
    (∀ t, step s = .next t → a.width = 8)

/-- A byte access outside the window is no access to the block: the model's choice is to stop with a
fault (log 9); inside the window every byte access has a step (20_memory R60, R70). -/
def Obligations.WindowDecides : Prop :=
  ∀ (s : State) (a : HostAccess) (rest : List Turn), s.inputs = .host a :: rest → a.width = 8 →
    ((a.addr < Config.regBase ∨ Config.regBase + 32 ≤ a.addr) →
      step s = .fault (.outsideWindow a.addr)) ∧
    (Config.regBase ≤ a.addr → a.addr < Config.regBase + 32 → ∃ t, step s = .next t)

/-- The contract of 10_state R44: an event has a step exactly where the phase expects its kind, and is
refused, not given a meaning, everywhere else (log 10). -/
def Obligations.EventsOnlyWhereExpected : Prop :=
  ∀ (s : State) (e : PhyEvent) (rest : List Turn), s.inputs = .phy e :: rest →
    ((((s.phase = .start ∨ s.phase = .addr ∨ s.phase = .txData ∨ s.phase = .rxAck) ∧
          ∃ st, e = .done st) ∨
        (s.phase = .rxByte ∧ ∃ d, e = .byte d) ∨ (s.phase = .stop ∧ e = .stopDone)) ∧
      ∃ t, step s = .next t) ∨
    (¬ (((s.phase = .start ∨ s.phase = .addr ∨ s.phase = .txData ∨ s.phase = .rxAck) ∧
          ∃ st, e = .done st) ∨
        (s.phase = .rxByte ∧ ∃ d, e = .byte d) ∨ (s.phase = .stop ∧ e = .stopDone)) ∧
      step s = .refused .phyContract)

/-! ## The leg procedure, event by event -/

/-- 40_bus R124, R140: at every START both start statuses set HELD and send the address byte, whatever
HELD and the leg are; every other status fails with BUS_ERROR. -/
def Obligations.StartPhase : Prop :=
  ∀ (i : Instr) (s : State) (st : PhyStatus), s.phase = .start → s.phyEvent = some (.done st) →
    ((st = .startSent ∨ st = .repStartSent) →
      exec i s = .next { s with
        phyEvent := none, held := true, phase := .addr,
        trace := s.trace ++ [.action (.send (addrByte s.addr (decide (s.leg = .r))))] }) ∧
    (¬ (st = .startSent ∨ st = .repStartSent) →
      exec i s = .next (State.fail .busError { s with phyEvent := none }))

/-- 40_bus R125: the address phase of a write leg, with `txNext`. -/
def Obligations.AddressPhaseOfWriteLeg : Prop :=
  ∀ (i : Instr) (s : State) (st : PhyStatus),
    s.phase = .addr → s.leg = .w → s.phyEvent = some (.done st) →
    (st = .addrWAck → s.idx < s.n →
      exec i s = .next { s with
        phyEvent := none, phase := .txData,
        trace := s.trace ++ [.action (.send (bufGet s.txbuf s.idx))] }) ∧
    (st = .addrWAck → ¬ s.idx < s.n →
      exec i s = .next (State.endLeg { s with phyEvent := none })) ∧
    (st = .addrWNack → exec i s = .next (State.fail .ackError { s with phyEvent := none })) ∧
    (st ≠ .addrWAck → st ≠ .addrWNack →
      exec i s = .next (State.fail .busError { s with phyEvent := none }))

/-- 40_bus R126, R135: the address phase of a read leg; a zero count drives NACK0 and ends the leg in the
same step, with a stop if the leg has one and with SUCCESS and RXLEN = 0 if not. -/
def Obligations.AddressPhaseOfReadLeg : Prop :=
  ∀ (i : Instr) (s : State) (st : PhyStatus),
    s.phase = .addr → s.leg = .r → s.phyEvent = some (.done st) →
    (st = .addrRAck → s.n ≠ 0 →
      exec i s = .next { s with phyEvent := none, phase := .rxByte }) ∧
    (st = .addrRAck → s.n = 0 → s.stop = true →
      exec i s = .next { s with
        phyEvent := none, phase := .stop, trace := s.trace ++ [.action .nack0, .action .stop] }) ∧
    (st = .addrRAck → s.n = 0 → s.stop = false →
      exec i s = .next { s with
        phyEvent := none, trace := s.trace ++ [.action .nack0], rxlen := 0x00#8,
        outcome := .success, valid := true, busy := false, phase := .idle }) ∧
    (st = .addrRNack → exec i s = .next (State.fail .ackError { s with phyEvent := none })) ∧
    (st ≠ .addrRAck → st ≠ .addrRNack →
      exec i s = .next (State.fail .busError { s with phyEvent := none }))

/-- 40_bus R127: an acknowledged data byte sends the next one or ends the leg; a NACK is ACK_ERROR, the
last byte's too, and any other status BUS_ERROR. -/
def Obligations.TransmitDataPhase : Prop :=
  ∀ (i : Instr) (s : State) (st : PhyStatus), s.phase = .txData → s.phyEvent = some (.done st) →
    (st = .txAck → s.idx + 1 < s.n →
      exec i s = .next { s with
        phyEvent := none, idx := s.idx + 1,
        trace := s.trace ++ [.action (.send (bufGet s.txbuf (s.idx + 1)))] }) ∧
    (st = .txAck → ¬ s.idx + 1 < s.n →
      exec i s = .next (State.endLeg { s with phyEvent := none, idx := s.idx + 1 })) ∧
    (st = .txNack → exec i s = .next (State.fail .ackError { s with phyEvent := none })) ∧
    (st ≠ .txAck → st ≠ .txNack →
      exec i s = .next (State.fail .busError { s with phyEvent := none }))

/-- 40_bus R128: a received byte is stored and traced, then acknowledged, the last one with NACK. -/
def Obligations.ReceiveBytePhase : Prop :=
  ∀ (i : Instr) (s : State) (d : Byte),
    s.phase = .rxByte → s.phyEvent = some (.byte d) → s.idx < s.n → s.n ≤ 8 →
    ∃ b, exec i s = .next { s with
        phyEvent := none, phase := .rxAck, rxbuf := b,
        trace := s.trace ++ [.rx d, .action (if s.idx = s.n - 1 then .nack else .ack)] } ∧
      ∀ j < 8, bufGet b j = if j = s.idx then d else bufGet s.rxbuf j

/-- 40_bus R129: the handshake the engine drove goes on to the next byte or ends the leg; the other
handshake status is ACK_ERROR, any other status BUS_ERROR. -/
def Obligations.ReceiveHandshakePhase : Prop :=
  ∀ (i : Instr) (s : State) (st : PhyStatus),
    s.phase = .rxAck → s.phyEvent = some (.done st) → s.idx < s.n →
    (s.idx ≠ s.n - 1 → st = .rxAckSent →
      exec i s = .next { s with phyEvent := none, idx := s.idx + 1, phase := .rxByte }) ∧
    (s.idx = s.n - 1 → st = .rxNackSent →
      exec i s = .next (State.endLeg { s with phyEvent := none, idx := s.idx + 1 })) ∧
    ((s.idx ≠ s.n - 1 ∧ st = .rxNackSent ∨ s.idx = s.n - 1 ∧ st = .rxAckSent) →
      exec i s = .next (State.fail .ackError { s with phyEvent := none })) ∧
    (st ≠ .rxAckSent → st ≠ .rxNackSent →
      exec i s = .next (State.fail .busError { s with phyEvent := none }))

/-- 40_bus R131: STOP_DONE carries no status; HELD is cleared and the leg is done. -/
def Obligations.StopPhase : Prop :=
  ∀ (i : Instr) (s : State), s.phase = .stop → s.phyEvent = some .stopDone →
    exec i s = .next (State.legDone { s with phyEvent := none, held := false })

/-- 40_bus R130, R132 and 41_composite R161: what ends a leg. The write leg of WRITE_THEN_READ begins the
read leg, with a stop, in the same step; any other leg completes with SUCCESS, and a read leg sets
RXLEN to its count. -/
def Obligations.LegEnds : Prop :=
  ∀ s : State,
    (s.stop = true →
      s.endLeg = { s with trace := s.trace ++ [.action .stop], phase := .stop }) ∧
    (s.stop = false → s.endLeg = s.legDone) ∧
    (s.op = .wtr → s.leg = .w →
      s.legDone = { s with
        leg := .r, stop := true, idx := 0, n := s.rxcnt.toNat, phase := .start,
        trace := s.trace ++ [.action .start] }) ∧
    (s.op ≠ .wtr → s.leg = .w →
      s.legDone = { s with outcome := .success, valid := true, busy := false, phase := .idle }) ∧
    (s.leg = .r →
      s.legDone = { s with
        rxlen := BitVec.ofNat 8 s.n, outcome := .success, valid := true, busy := false,
        phase := .idle })

/-- 40_bus R136, R137: a failing leg completes the command with its outcome and issues nothing; a read
leg clears RXBUF and RXLEN first. -/
def Obligations.FailingLeg : Prop :=
  ∀ (o : CommandOutcome) (s : State),
    (s.leg = .w → s.fail o = { s with outcome := o, valid := true, busy := false, phase := .idle }) ∧
    (s.leg = .r →
      ∃ b, s.fail o = { s with
          rxbuf := b, rxlen := 0x00#8, outcome := o, valid := true, busy := false, phase := .idle } ∧
        ∀ j < 8, bufGet b j = 0x00#8)

/-! ## The commands' decode step -/

/-- TRANSMIT's decode step (40_bus R121, R133): a legal count begins the write leg with the command's own
stop flag; a count above 8 completes with PARAM_ERROR and no bus activity. -/
def Obligations.TransmitDecodes : Prop :=
  ∀ (stop : Bool) (s : State), s.phase = .decode →
    (s.txlen.toNat ≤ 8 →
      exec (.transmit stop) s = .next { s with
        op := .transmit, leg := .w, stop := stop, idx := 0, n := s.txlen.toNat, phase := .start,
        trace := s.trace ++ [.action .start] }) ∧
    (8 < s.txlen.toNat →
      exec (.transmit stop) s = .next { s with
        op := .transmit, outcome := .paramError, valid := true, busy := false, phase := .idle })

/-- RECEIVE's decode step (40_bus R121, R134): a legal count clears the receive state and begins the read
leg; a count above 8 completes with PARAM_ERROR and leaves the receive state. -/
def Obligations.ReceiveDecodes : Prop :=
  ∀ (stop : Bool) (s : State), s.phase = .decode →
    (s.rxcnt.toNat ≤ 8 →
      exec (.receive stop) s = .next { s with
        op := .receive, leg := .r, stop := stop, idx := 0, n := s.rxcnt.toNat, phase := .start,
        rxbuf := Vector.replicate 8 0x00#8, rxlen := 0x00#8,
        trace := s.trace ++ [.action .start] }) ∧
    (8 < s.rxcnt.toNat →
      exec (.receive stop) s = .next { s with
        op := .receive, outcome := .paramError, valid := true, busy := false, phase := .idle })

/-- WRITE_THEN_READ's decode step (40_bus R121, 41_composite R160): both counts are checked; the receive
state is cleared and the write leg begins, with no stop, whatever bit 3 of the command is. -/
def Obligations.WriteThenReadDecodes : Prop :=
  ∀ (x : Bool) (s : State), s.phase = .decode →
    (s.txlen.toNat ≤ 8 → s.rxcnt.toNat ≤ 8 →
      exec (.writeThenRead x) s = .next { s with
        op := .wtr, leg := .w, stop := false, idx := 0, n := s.txlen.toNat, phase := .start,
        rxbuf := Vector.replicate 8 0x00#8, rxlen := 0x00#8,
        trace := s.trace ++ [.action .start] }) ∧
    ((8 < s.txlen.toNat ∨ 8 < s.rxcnt.toNat) →
      exec (.writeThenRead x) s = .next { s with
        op := .wtr, outcome := .paramError, valid := true, busy := false, phase := .idle })

/-- VERIFY with no group to check (42_checksum R183, R184): RXLEN = 0 is NO_DATA_ERROR, RXLEN not a
multiple of 3 is PARAM_ERROR; CHKERR is 0 and the receive state is kept. -/
def Obligations.VerifyWithoutGroups : Prop :=
  ∀ (x : Bool) (s : State), s.phase = .decode →
    (s.rxlen = 0x00#8 →
      exec (.verify x) s = .next { s with
        op := .verify, chkerr := 0x00#8, outcome := .noDataError, valid := true, busy := false,
        phase := .idle }) ∧
    (s.rxlen.toNat % 3 ≠ 0 →
      exec (.verify x) s = .next { s with
        op := .verify, chkerr := 0x00#8, outcome := .paramError, valid := true, busy := false,
        phase := .idle })

/-- VERIFY of one or two groups (42_checksum R181, R182, R185, R186): group g is RXBUF[3g], RXBUF[3g+1]
and RXBUF[3g+2]; CHKERR bit g says whether it mismatched; no mismatch is SUCCESS and keeps the receive
state, any mismatch is CHECKSUM_ERROR and clears it. For every CHECK_FN (log 4). -/
def Obligations.VerifyChecksEveryGroup : Prop :=
  ∀ (x : Bool) (s : State) (k : Nat), s.phase = .decode → (k = 1 ∨ k = 2) →
    s.rxlen = BitVec.ofNat 8 (3 * k) →
    ∃ m : Byte,
      (∀ g < 8, m.getLsbD g = decide (g < k ∧
        Config.checkFn (bufGet s.rxbuf (3 * g) ++ bufGet s.rxbuf (3 * g + 1)) ≠
          bufGet s.rxbuf (3 * g + 2))) ∧
      (m = 0x00#8 →
        exec (.verify x) s = .next { s with
          op := .verify, chkerr := m, outcome := .success, valid := true, busy := false,
          phase := .idle }) ∧
      (m ≠ 0x00#8 →
        exec (.verify x) s = .next { s with
          op := .verify, chkerr := m, rxbuf := Vector.replicate 8 0x00#8, rxlen := 0x00#8,
          outcome := .checksumError, valid := true, busy := false, phase := .idle })

/-- 60_exceptions R211: every RESERVED command completes at decode with PARAM_ERROR, with no bus action
and no other change; CMD reads the byte back. -/
def Obligations.ReservedCompletes : Prop :=
  ∀ (i : Instr) (s : State), i.op = .reserved → s.phase = .decode →
    exec i s = .next { s with
      op := .reserved, outcome := .paramError, valid := true, busy := false, phase := .idle } ∧
    ∀ s' : State, s'.phase = .idle → ∃ t u,
      exec i s' = .next t ∧ exec i t = .next u ∧ memRead 0x00#5 u = encodeByte i ∧
        u.outcome.code = 0x06#8 ∧ u.trace = s'.trace ∧ u.held = s'.held ∧ u.rxlen = s'.rxlen ∧
        u.rxbuf = s'.rxbuf ∧ u.chkerr = s'.chkerr

/-! ## Frames -/

/-- What TRANSMIT leaves unchanged (40_bus R133): every register of the window but CMD (at acceptance),
STATUS and OUTCOME; OVR of STATUS; HELD outside the START and STOP phases; CMD outside IDLE. -/
def Obligations.TransmitFrame : Prop :=
  ∀ (stop : Bool) (s t : State), Running (.transmit stop) s → exec (.transmit stop) s = .next t →
    (∀ off : Offset, off ≠ 0x00#5 → off ≠ 0x01#5 → off ≠ 0x02#5 → memRead off t = memRead off s) ∧
    (t.addr = s.addr ∧ t.txlen = s.txlen ∧ t.rxcnt = s.rxcnt ∧ t.rxlen = s.rxlen ∧
      t.chkerr = s.chkerr ∧ t.txbuf = s.txbuf ∧ t.rxbuf = s.rxbuf ∧ t.ckhi = s.ckhi ∧
      t.cklo = s.cklo ∧ t.ckrcv = s.ckrcv) ∧
    t.ovr = s.ovr ∧ (s.phase ≠ .start → s.phase ≠ .stop → t.held = s.held) ∧
    (s.phase ≠ .idle → t.cmd = s.cmd) ∧ (t.phase ≠ .idle → t.outcome = s.outcome ∧ t.valid = s.valid)

/-- What RECEIVE and WRITE_THEN_READ leave unchanged (40_bus R134, 41_composite R160): as TRANSMIT, but
that RXLEN and RXBUF are also written. -/
def Obligations.ReadingCommandsFrame : Prop :=
  ∀ (i : Instr) (s t : State), (i.op = .receive ∨ i.op = .wtr) → Running i s →
    exec i s = .next t →
    (∀ off : Offset, off ≠ 0x00#5 → off ≠ 0x01#5 → off ≠ 0x02#5 → off ≠ 0x06#5 →
      (off.toNat < 0x10 ∨ 0x17 < off.toNat) → memRead off t = memRead off s) ∧
    (t.addr = s.addr ∧ t.txlen = s.txlen ∧ t.rxcnt = s.rxcnt ∧ t.chkerr = s.chkerr ∧
      t.txbuf = s.txbuf ∧ t.ckhi = s.ckhi ∧ t.cklo = s.cklo ∧ t.ckrcv = s.ckrcv) ∧
    t.ovr = s.ovr ∧ (s.phase ≠ .start → s.phase ≠ .stop → t.held = s.held) ∧
    (s.phase ≠ .idle → t.cmd = s.cmd) ∧ (t.phase ≠ .idle → t.outcome = s.outcome ∧ t.valid = s.valid)

/-- What VERIFY leaves unchanged (42_checksum R182, R193 (c)): everything but CMD (at acceptance), STATUS,
OUTCOME, CHKERR, RXLEN and RXBUF; no bus action, HELD and OVR kept. -/
def Obligations.VerifyFrame : Prop :=
  ∀ (x : Bool) (s t : State), Running (.verify x) s → exec (.verify x) s = .next t →
    (∀ off : Offset, off ≠ 0x00#5 → off ≠ 0x01#5 → off ≠ 0x02#5 → off ≠ 0x06#5 → off ≠ 0x07#5 →
      (off.toNat < 0x10 ∨ 0x17 < off.toNat) → memRead off t = memRead off s) ∧
    (t.addr = s.addr ∧ t.txlen = s.txlen ∧ t.rxcnt = s.rxcnt ∧ t.txbuf = s.txbuf ∧
      t.ckhi = s.ckhi ∧ t.cklo = s.cklo ∧ t.ckrcv = s.ckrcv) ∧
    t.held = s.held ∧ t.ovr = s.ovr ∧ t.trace = s.trace ∧
    (s.phase ≠ .idle → t.cmd = s.cmd) ∧ (t.outcome ≠ .checksumError → t.rxbuf = s.rxbuf ∧ t.rxlen = s.rxlen)

/-- What a RESERVED command leaves unchanged (60_exceptions R211): everything but CMD (at acceptance),
STATUS and OUTCOME; no bus action, HELD, OVR, the receive state and CHKERR kept. -/
def Obligations.ReservedFrame : Prop :=
  ∀ (i : Instr) (s t : State), i.op = .reserved → Running i s → exec i s = .next t →
    (∀ off : Offset, off ≠ 0x00#5 → off ≠ 0x01#5 → off ≠ 0x02#5 → memRead off t = memRead off s) ∧
    (t.addr = s.addr ∧ t.txlen = s.txlen ∧ t.rxcnt = s.rxcnt ∧ t.rxlen = s.rxlen ∧
      t.chkerr = s.chkerr ∧ t.txbuf = s.txbuf ∧ t.rxbuf = s.rxbuf ∧ t.ckhi = s.ckhi ∧
      t.cklo = s.cklo ∧ t.ckrcv = s.ckrcv) ∧
    t.held = s.held ∧ t.ovr = s.ovr ∧ t.trace = s.trace ∧ (s.phase ≠ .idle → t.cmd = s.cmd)

/-! ## Whole commands -/

/-- A TRANSMIT whose events are all the expected ones, from its decode step to its end: it awaits
`2 + n + s` events, its trace is that of 40_bus R141, and it completes with SUCCESS (40_bus R133, R142,
R144). -/
def Obligations.TransmitRunSucceeds : Prop :=
  ∀ (s : State) (stop : Bool) (st : PhyStatus) (rest : List Turn),
    s.phase = .decode → s.cmd = encodeByte (.transmit stop) → s.txlen.toNat ≤ 8 →
    (st = .startSent ∨ st = .repStartSent) →
    s.inputs = .engine :: (writeLegEvents st s.txlen.toNat stop).map .phy ++ rest →
    Host.Core.run Sys2Proof.core (1 + (2 + s.txlen.toNat + (if stop then 1 else 0))) s = .next { s with
      op := .transmit, leg := .w, stop := stop, idx := s.txlen.toNat, n := s.txlen.toNat,
      phase := .idle, busy := false, valid := true, outcome := .success, held := !stop,
      trace := s.trace ++ writeLegTrace s.addr s.txbuf s.txlen.toNat stop,
      phyEvent := none, inputs := rest }

/-- A RECEIVE whose events are all the expected ones and whose peer sends the bytes `ds`: it awaits
`2 + 2n + s` events, its trace is that of 40_bus R141 (NACK0 for no bytes), RXBUF holds the bytes and
RXLEN their number (40_bus R134, R135, R142). -/
def Obligations.ReceiveRunSucceeds : Prop :=
  ∀ (s : State) (stop : Bool) (st : PhyStatus) (ds : List Byte) (rest : List Turn),
    s.phase = .decode → s.cmd = encodeByte (.receive stop) → s.rxcnt.toNat ≤ 8 →
    ds.length = s.rxcnt.toNat → (st = .startSent ∨ st = .repStartSent) →
    s.inputs = .engine :: (readLegEvents st ds stop).map .phy ++ rest →
    Host.Core.run Sys2Proof.core (1 + (2 + 2 * s.rxcnt.toNat + (if stop then 1 else 0))) s =
      .next { s with
        op := .receive, leg := .r, stop := stop, idx := s.rxcnt.toNat, n := s.rxcnt.toNat,
        phase := .idle, busy := false, valid := true, outcome := .success, held := !stop,
        rxbuf := rxImage ds, rxlen := s.rxcnt,
        trace := s.trace ++ readLegTrace s.addr ds stop, phyEvent := none, inputs := rest }

/-- A WRITE_THEN_READ whose events are all the expected ones: the write leg without a stop, the read leg
with one, and the two traces one after the other (41_composite R160, R161, R163; 40_bus R142). -/
def Obligations.WriteThenReadRunSucceeds : Prop :=
  ∀ (s : State) (x : Bool) (st st' : PhyStatus) (ds : List Byte) (rest : List Turn),
    s.phase = .decode → s.cmd = encodeByte (.writeThenRead x) → s.txlen.toNat ≤ 8 →
    s.rxcnt.toNat ≤ 8 → ds.length = s.rxcnt.toNat →
    (st = .startSent ∨ st = .repStartSent) → (st' = .startSent ∨ st' = .repStartSent) →
    s.inputs = .engine ::
      (writeLegEvents st s.txlen.toNat false ++ readLegEvents st' ds true).map .phy ++ rest →
    Host.Core.run Sys2Proof.core (1 + (2 + s.txlen.toNat) + (2 + 2 * s.rxcnt.toNat + 1)) s =
      .next { s with
        op := .wtr, leg := .r, stop := true, idx := s.rxcnt.toNat, n := s.rxcnt.toNat,
        phase := .idle, busy := false, valid := true, outcome := .success, held := false,
        rxbuf := rxImage ds, rxlen := s.rxcnt,
        trace := s.trace ++ writeLegTrace s.addr s.txbuf s.txlen.toNat false
          ++ readLegTrace s.addr ds true,
        phyEvent := none, inputs := rest }

/-- With every event delivered, whatever its status or byte, every command completes after at most 29
events (40_bus R142): from a decode step of any legal state, 30 answered engine steps end with BUSY = 0
and VALID = 1. -/
def Obligations.EveryAnsweredCommandCompletes : Prop :=
  ∀ (s : State) (answers : List (PhyStatus × Byte)), EngineInv s → s.phase = .decode →
    answers.length = 30 →
    ∃ t, serve answers s = .next t ∧ t.phase = .idle ∧ t.busy = false ∧ t.valid = true

/-! ## Invariants -/

/-- The invariant holds right after reset. -/
def Obligations.InvariantAtReset : Prop := EngineInv State.reset

/-- Every step of every agent keeps the invariant: R48's and R49's facts about RXBUF, BUSY, RXLEN, CHKERR
and the index, the operation, stop flag and counts of the running leg, and the empty PHY port. -/
def Obligations.StepKeepsInvariant : Prop :=
  ∀ s t : State, EngineInv s → step s = .next t → EngineInv t

/-- The facts of 10_state R48 and R49 (a), (c), (d) and the first part of (b) follow from the invariant,
as they are read by the host. -/
def Obligations.InvariantGivesStatedFacts : Prop :=
  ∀ s : State, EngineInv s →
    (s.busy = true ↔ s.phase ≠ .idle) ∧
    s.rxlen.toNat ≤ 8 ∧
    ((s.phase = .txData ∨ s.phase = .rxByte ∨ s.phase = .rxAck) → s.idx ≤ s.n ∧ s.n ≤ 8) ∧
    (memRead 0x02#5 s).extractLsb' 3 5 = 0#5 ∧ (memRead 0x01#5 s).extractLsb' 4 4 = 0#4 ∧
    (memRead 0x03#5 s).extractLsb' 7 1 = 0#1 ∧ (memRead 0x07#5 s).extractLsb' 2 6 = 0#6 ∧
    (memRead 0x1C#5 s).extractLsb' 1 7 = 0#7 ∧
    (s.busy = false → ∀ i < 8, s.rxlen.toNat ≤ i → memRead (BitVec.ofNat 5 (0x10 + i)) s = 0x00#8)

/-! ## Rules over every step -/

/-- 20_memory R64: while a command runs no step but reset changes ADDR, TXLEN, RXCNT or TXBUF; a host
write of them, or of CMD, is dropped: it changes nothing but OVR, which becomes 1. -/
def Obligations.OperandsStableWhileBusy : Prop :=
  (∀ (s t : State), s.busy = true → (∀ rest, s.inputs ≠ .reset :: rest) → step s = .next t →
    t.addr = s.addr ∧ t.txlen = s.txlen ∧ t.rxcnt = s.rxcnt ∧ t.txbuf = s.txbuf) ∧
  ∀ (s : State) (r : Reg) (v : Byte) (rest : List Turn), s.busy = true →
    (r = .cmd ∨ r = .addr ∨ r = .txlen ∨ r = .rxcnt ∨ ∃ i, r = .txbuf i) →
    s.inputs = HostProgram.wr r v :: rest →
    step s = .next { s with inputs := rest, ovr := true }

/-- 60_exceptions R214, R218 and 10_state R27: OUTCOME changes only in the step that completes a command,
and a step that ends a command, reset apart, leaves VALID = 1, BUSY = 0 and the phase IDLE. -/
def Obligations.OutcomeWrittenByCompletionOnly : Prop :=
  ∀ s t : State, (∀ rest, s.inputs ≠ .reset :: rest) → step s = .next t →
    (t.outcome ≠ s.outcome →
      s.phase ≠ .idle ∧ t.phase = .idle ∧ t.valid = true ∧ t.busy = false) ∧
    (s.phase ≠ .idle → t.phase = .idle → t.valid = true ∧ t.busy = false) ∧
    (s.busy = true → t.busy = false → t.phase = .idle ∧ t.valid = true)

/-- 10_state R24: VALID is 0 after reset, set by every completion and cleared only by reset; while it is
0 OUTCOME reads 0x00. -/
def Obligations.ValidMarksOutcome : Prop :=
  State.reset.valid = false ∧
  (∀ (s t : State) (rest : List Turn), s.inputs = .reset :: rest → step s = .next t →
    t.valid = false) ∧
  (∀ s : State, EngineInv s → s.valid = false → memRead 0x02#5 s = 0x00#8) ∧
  ∀ s t : State, (∀ rest, s.inputs ≠ .reset :: rest) → step s = .next t →
    (s.valid = true → t.valid = true) ∧
    (s.valid = false → t.valid = true → s.phase ≠ .idle ∧ t.phase = .idle) ∧
    (s.phase ≠ .idle → t.phase = .idle → t.valid = true)

/-- 10_state R26: HELD is set by an accepted START, cleared by a completed STOP and by reset, changed by
nothing else, so a failing command keeps it; and no command's step depends on it. -/
def Obligations.HeldRule : Prop :=
  (∀ s t : State, EngineInv s → (∀ rest, s.inputs ≠ .reset :: rest) → step s = .next t →
    (t.held ≠ s.held →
      (s.phase = .start ∧ t.phase = .addr ∧ t.held = true) ∨
      (s.phase = .stop ∧ t.phase ≠ .stop ∧ t.held = false)) ∧
    (s.phase = .start → t.phase = .addr → t.held = true) ∧
    (s.phase = .stop → t.phase ≠ .stop → t.held = false)) ∧
  (∀ (s t : State) (rest : List Turn), s.inputs = .reset :: rest → step s = .next t →
    t.held = false) ∧
  ∀ (i : Instr) (s t : State) (b : Bool), exec i s = .next t →
    ∃ b', exec i { s with held := b } = .next { t with held := b' }

/-- 10_state R32: only VERIFY and reset write CHKERR. -/
def Obligations.ChkerrWrittenByVerifyOnly : Prop :=
  ∀ s t : State, (∀ rest, s.inputs ≠ .reset :: rest) → step s = .next t → t.chkerr ≠ s.chkerr →
    s.phase = .decode ∧ ∃ x, s.cmd = encodeByte (.verify x)

/-- 10_state R31: the points at which RXLEN changes, reset apart. -/
def Obligations.RxlenWriters : Prop :=
  ∀ s t : State, EngineInv s → (∀ rest, s.inputs ≠ .reset :: rest) → step s = .next t →
    t.rxlen ≠ s.rxlen →
    (s.phase = .decode ∧ (decodeOp s.cmd = .receive ∨ decodeOp s.cmd = .wtr) ∧ t.phase = .start ∧
      t.rxlen = 0x00#8) ∨
    (s.phase.waiting = true ∧ s.leg = .r ∧ t.phase = .idle ∧ t.outcome = .success ∧
      t.rxlen = s.rxcnt) ∨
    (s.phase.waiting = true ∧ s.leg = .r ∧ t.phase = .idle ∧
      (t.outcome = .ackError ∨ t.outcome = .busError) ∧ t.rxlen = 0x00#8) ∨
    (s.phase = .decode ∧ decodeOp s.cmd = .verify ∧ t.outcome = .checksumError ∧
      t.rxlen = 0x00#8)

/-- The bus trace only grows, reset apart, and only by engine steps: a host access adds nothing
(10_state R45). -/
def Obligations.TraceOnlyGrows : Prop :=
  ∀ s t : State, (∀ rest, s.inputs ≠ .reset :: rest) → step s = .next t →
    (∃ l, t.trace = s.trace ++ l) ∧
    ((s.phase = .idle ∨ ∃ a rest, s.inputs = .host a :: rest) → t.trace = s.trace)

/-- 10_state R21: `E.cmd` is the byte of the last accepted command, legal or reserved: it changes only
by the acceptance of the byte written. -/
def Obligations.CmdHoldsAcceptedByte : Prop :=
  ∀ s t : State, (∀ rest, s.inputs ≠ .reset :: rest) → step s = .next t → t.cmd ≠ s.cmd →
    s.busy = false ∧ t.busy = true ∧ t.phase = .decode ∧
    ∃ a rest, s.inputs = .host a :: rest ∧ a.op = .write t.cmd ∧ routeOffset a.addr = some 0x00#5

/-- 10_state R25: OVR is set only by a dropped write, and cleared only by a STATUS write with bit 2 set,
reset apart; setting it has no other effect. -/
def Obligations.OvrRule : Prop :=
  ∀ s t : State, (∀ rest, s.inputs ≠ .reset :: rest) → step s = .next t → t.ovr ≠ s.ovr →
    (s.busy = true ∧ ∃ a rest v off, s.inputs = .host a :: rest ∧ a.op = .write v ∧
      routeOffset a.addr = some off ∧
      off ∈ [0x00#5, 0x03#5, 0x04#5, 0x05#5, 0x08#5, 0x09#5, 0x0A#5, 0x0B#5, 0x0C#5, 0x0D#5, 0x0E#5,
        0x0F#5] ∧
      t = { s with inputs := rest, ovr := true }) ∨
    (∃ a rest v, s.inputs = .host a :: rest ∧ a.op = .write v ∧ v.getLsbD 2 = true ∧
      routeOffset a.addr = some 0x01#5 ∧ t = { s with inputs := rest, ovr := false })

/-- 60_exceptions R215: a BUS_FAULT status ends the command with BUS_ERROR, never ACK_ERROR, in every
phase that reads a status, whatever command runs. -/
def Obligations.BusFaultTakesPrecedence : Prop :=
  ∀ (i : Instr) (s : State),
    (s.phase = .start ∨ s.phase = .addr ∨ s.phase = .txData ∨ s.phase = .rxAck) →
    s.phyEvent = some (.done .busFault) →
    ∃ t, exec i s = .next t ∧ t.outcome = .busError ∧ t.phase = .idle ∧ t.busy = false ∧
      t.trace = s.trace ∧ t.held = s.held

/-- 60_exceptions R213: in every waiting phase the statuses that go on, that give ACK_ERROR and that give
BUS_ERROR. "Goes on" is: no failure outcome in a completed command. -/
def Obligations.StatusOutcomeTable : Prop :=
  ∀ (i : Instr) (s : State) (st : PhyStatus),
    (s.phase = .start ∨ s.phase = .addr ∨ s.phase = .txData ∨ (s.phase = .rxAck ∧ s.idx < s.n)) →
    s.phyEvent = some (.done st) →
    ∃ t, exec i s = .next t ∧
      (statusGoesOn s st → t.phase = .idle → t.outcome = .success) ∧
      (statusAckFails s st → t.phase = .idle ∧ t.outcome = .ackError) ∧
      (¬ statusGoesOn s st → ¬ statusAckFails s st → t.phase = .idle ∧ t.outcome = .busError)

/-- A failing leg issues no action, in particular no STOP and, in WRITE_THEN_READ's write leg, no action
of the read leg; HELD stays; a read leg's bytes are discarded (40_bus R136, R137, R138; 41_composite
R162, R164). -/
def Obligations.FailureIssuesNothing : Prop :=
  ∀ (i : Instr) (s t : State), s.phase.waiting = true → exec i s = .next t → t.phase = .idle →
    t.outcome ≠ .success →
    t.trace = s.trace ∧ t.held = s.held ∧ (t.outcome = .ackError ∨ t.outcome = .busError) ∧
    (s.leg = .w → t.rxlen = s.rxlen ∧ t.rxbuf = s.rxbuf) ∧
    (s.leg = .r → t.rxlen = 0x00#8 ∧ ∀ j < 8, bufGet t.rxbuf j = 0x00#8)

/-- After any failed RECEIVE or WRITE_THEN_READ, RXLEN = 0 and RXBUF holds only 0x00, whichever leg
failed (40_bus R137). -/
def Obligations.FailedReadLeavesNoData : Prop :=
  ∀ (i : Instr) (s t : State), EngineInv { s with phyEvent := none } → s.phase.waiting = true →
    (s.op = .receive ∨ s.op = .wtr) → exec i s = .next t → t.phase = .idle → t.outcome ≠ .success →
    t.rxlen = 0x00#8 ∧ ∀ j < 8, bufGet t.rxbuf j = 0x00#8

/-- 40_bus R143: an engine that gets no event never leaves its phase. With no turn left it stays as it is
for ever, and under host accesses and engine turns BUSY stays 1, OUTCOME, the trace and CMD keep their
values, and every CMD write is dropped. -/
def Obligations.HangIsForever : Prop :=
  (∀ (s : State) (k : Nat), Hung s → Host.Core.run Sys2Proof.core k s = .next s) ∧
  ∀ (s t : State) (u : Turn) (rest : List Turn), EngineInv s → s.phase.waiting = true →
    s.inputs = u :: rest → (u = .engine ∨ ∃ a, u = .host a) → step s = .next t →
    t.phase = s.phase ∧ t.busy = true ∧ t.outcome = s.outcome ∧ t.trace = s.trace ∧ t.cmd = s.cmd ∧
    (∀ v, u = HostProgram.wr .cmd v → t = { s with inputs := rest, ovr := true })

/-! ## The checksum validator -/

/-- 42_checksum R187, R188: CKCALC and CKMATCH are combinational in CKHI, CKLO and CKRCV: the read after a
write sees the new value, whatever BUSY is. The reset value of CKMATCH is 0x00 under CRC8_31_FF and
0x01 under XOR8. -/
def Obligations.CheckerIsCombinational : Prop :=
  (∀ s : State, memRead 0x1B#5 s = Config.checkFn (s.ckhi ++ s.cklo) ∧
    memRead 0x1C#5 s = (if Config.checkFn (s.ckhi ++ s.cklo) = s.ckrcv then 0x01#8 else 0x00#8)) ∧
  (∀ (s : State) (hi lo rcv : Byte),
    memRead 0x1B#5 (memWrite 0x19#5 lo (memWrite 0x18#5 hi s)) = Config.checkFn (hi ++ lo) ∧
    memRead 0x1C#5 (memWrite 0x1A#5 rcv (memWrite 0x19#5 lo (memWrite 0x18#5 hi s))) =
      (if Config.checkFn (hi ++ lo) = rcv then 0x01#8 else 0x00#8)) ∧
  (∀ (i : Instr) (s t : State), exec i s = .next t →
    memRead 0x1B#5 t = memRead 0x1B#5 s ∧ memRead 0x1C#5 t = memRead 0x1C#5 s) ∧
  readRegWith crc8_31_FF .ckcalc State.reset = 0x81#8 ∧
  readRegWith crc8_31_FF .ckmatch State.reset = 0x00#8 ∧
  readRegWith xor8 .ckcalc State.reset = 0x00#8 ∧
  readRegWith xor8 .ckmatch State.reset = 0x01#8

/-- 42_checksum R191: the parallel equations and the serial CRC are the same function, for all 65536
words; the constant vector is the check of word 0. -/
def Obligations.CrcParallelIsSerial : Prop :=
  (∀ w : Word, crc8Parallel w = crc8_31_FF w) ∧ crc8_31_FF 0x0000#16 = 0x81#8

/-- 42_checksum R192: XOR8 and its parallel form; swapping the bytes does not change it, and equal bytes
give 0x00. -/
def Obligations.Xor8Form : Prop :=
  (∀ (w : Word) (j : Nat), j < 8 → (xor8 w).getLsbD j = xor (w.getLsbD (j + 8)) (w.getLsbD j)) ∧
  (∀ hi lo : Byte, xor8 (hi ++ lo) = hi ^^^ lo ∧ xor8 (hi ++ lo) = xor8 (lo ++ hi)) ∧
  ∀ b : Byte, xor8 (b ++ b) = 0x00#8

/-- 42_checksum R193, for every checksum function: each group's verdict depends on its own three bytes;
VERIFY issues no action and keeps HELD and the operands; SUCCESS means every group's check holds;
CHECKSUM_ERROR means no data is left. (That the order of the groups does not matter is in the mask's
form: bit g is group g's verdict alone.) -/
def Obligations.ValidatorLaws : Prop :=
  ∀ (f : Word → Byte) (s : State), s.rxlen.toNat ≤ 8 →
    (∀ g < s.rxlen.toNat / 3, (mismatchMask f s.rxbuf (s.rxlen.toNat / 3)).getLsbD g =
      decide (f (bufGet s.rxbuf (3 * g) ++ bufGet s.rxbuf (3 * g + 1)) ≠ bufGet s.rxbuf (3 * g + 2))) ∧
    ((verifyWith f s).trace = s.trace ∧ (verifyWith f s).held = s.held ∧
      (verifyWith f s).addr = s.addr ∧ (verifyWith f s).txlen = s.txlen ∧
      (verifyWith f s).rxcnt = s.rxcnt ∧ (verifyWith f s).txbuf = s.txbuf) ∧
    ((verifyWith f s).outcome = .success → ∀ g < s.rxlen.toNat / 3,
      f (bufGet s.rxbuf (3 * g) ++ bufGet s.rxbuf (3 * g + 1)) = bufGet s.rxbuf (3 * g + 2)) ∧
    ((verifyWith f s).outcome = .checksumError →
      (verifyWith f s).rxlen = 0x00#8 ∧ ∀ j < 8, bufGet (verifyWith f s).rxbuf j = 0x00#8)

/-! ## Host programs -/

/-- `ldw16 w` while the engine is idle leaves the high byte in TXBUF[0], the low byte in TXBUF[1] and
TXLEN = 2: a command word goes out big-endian (30_encoding R103, 20_memory R67). -/
def Obligations.CommandWordIsBigEndian : Prop :=
  ∀ (s : State) (w : Word) (rest : List Turn), s.busy = false →
    s.inputs = HostProgram.ldw16 w ++ rest →
    ∃ b, Host.Core.run Sys2Proof.core 3 s =
        .next { s with inputs := rest, txbuf := b, txlen := 0x02#8 } ∧
      bufGet b 0 ++ bufGet b 1 = w ∧ ∀ j < 8, 2 ≤ j → bufGet b j = bufGet s.txbuf j
end

