-- ==== Sys2Proof/Laws/Decode.lean ====
section
/-! SUPPORT. Small laws of the command byte's fields. -/

namespace Sys2Proof

/-- Decoding takes one byte and returns the rest (30_encoding R90). -/
@[simp] theorem decode_cons (c : Byte) (rest : List Byte) :
    decode (c :: rest) = .ok (decodeByte c, rest) := rfl

@[simp] theorem encode_length (i : Instr) : (encode i).length = 1 := rfl

/-- The STOP bit of a byte `0000 b ppp` is `b`. -/
@[simp] theorem stopBit_lowNibbleByte (b : Bool) (p : BitVec 3) :
    stopBit (lowNibbleByte b p) = b := by revert b p; decide

/-- The operation field of a byte `0000 b ppp` is `ppp`. -/
@[simp] theorem opField_lowNibbleByte (b : Bool) (p : BitVec 3) :
    opField (lowNibbleByte b p) = p := by revert b p; decide

end Sys2Proof
end

