-- ==== Sys2Proof/Laws/State.lean ====
section
/-! SUPPORT. What each update of the state writes and what it keeps: one lemma a field, so that no
proof unfolds a record update. -/

namespace Sys2Proof.Machine.State

/-! `issue` -/

@[simp] theorem issue_busy (a : PhyAction) (s : State) : (s.issue a).busy = s.busy := rfl
@[simp] theorem issue_valid (a : PhyAction) (s : State) : (s.issue a).valid = s.valid := rfl
@[simp] theorem issue_ovr (a : PhyAction) (s : State) : (s.issue a).ovr = s.ovr := rfl
@[simp] theorem issue_held (a : PhyAction) (s : State) : (s.issue a).held = s.held := rfl
@[simp] theorem issue_outcome (a : PhyAction) (s : State) : (s.issue a).outcome = s.outcome := rfl
@[simp] theorem issue_addr (a : PhyAction) (s : State) : (s.issue a).addr = s.addr := rfl
@[simp] theorem issue_txlen (a : PhyAction) (s : State) : (s.issue a).txlen = s.txlen := rfl
@[simp] theorem issue_rxcnt (a : PhyAction) (s : State) : (s.issue a).rxcnt = s.rxcnt := rfl
@[simp] theorem issue_rxlen (a : PhyAction) (s : State) : (s.issue a).rxlen = s.rxlen := rfl
@[simp] theorem issue_chkerr (a : PhyAction) (s : State) : (s.issue a).chkerr = s.chkerr := rfl
@[simp] theorem issue_txbuf (a : PhyAction) (s : State) : (s.issue a).txbuf = s.txbuf := rfl
@[simp] theorem issue_rxbuf (a : PhyAction) (s : State) : (s.issue a).rxbuf = s.rxbuf := rfl
@[simp] theorem issue_ckhi (a : PhyAction) (s : State) : (s.issue a).ckhi = s.ckhi := rfl
@[simp] theorem issue_cklo (a : PhyAction) (s : State) : (s.issue a).cklo = s.cklo := rfl
@[simp] theorem issue_ckrcv (a : PhyAction) (s : State) : (s.issue a).ckrcv = s.ckrcv := rfl
@[simp] theorem issue_phase (a : PhyAction) (s : State) : (s.issue a).phase = s.phase := rfl
@[simp] theorem issue_cmd (a : PhyAction) (s : State) : (s.issue a).cmd = s.cmd := rfl
@[simp] theorem issue_op (a : PhyAction) (s : State) : (s.issue a).op = s.op := rfl
@[simp] theorem issue_leg (a : PhyAction) (s : State) : (s.issue a).leg = s.leg := rfl
@[simp] theorem issue_stop (a : PhyAction) (s : State) : (s.issue a).stop = s.stop := rfl
@[simp] theorem issue_idx (a : PhyAction) (s : State) : (s.issue a).idx = s.idx := rfl
@[simp] theorem issue_n (a : PhyAction) (s : State) : (s.issue a).n = s.n := rfl
@[simp] theorem issue_trace (a : PhyAction) (s : State) : (s.issue a).trace = s.trace ++ [.action a] := rfl
@[simp] theorem issue_phyEvent (a : PhyAction) (s : State) : (s.issue a).phyEvent = s.phyEvent := rfl
@[simp] theorem issue_inputs (a : PhyAction) (s : State) : (s.issue a).inputs = s.inputs := rfl
@[simp] theorem issue_hostReads (a : PhyAction) (s : State) : (s.issue a).hostReads = s.hostReads := rfl

/-! `goto` -/

@[simp] theorem goto_busy (p : Phase) (s : State) : (s.goto p).busy = s.busy := rfl
@[simp] theorem goto_valid (p : Phase) (s : State) : (s.goto p).valid = s.valid := rfl
@[simp] theorem goto_ovr (p : Phase) (s : State) : (s.goto p).ovr = s.ovr := rfl
@[simp] theorem goto_held (p : Phase) (s : State) : (s.goto p).held = s.held := rfl
@[simp] theorem goto_outcome (p : Phase) (s : State) : (s.goto p).outcome = s.outcome := rfl
@[simp] theorem goto_addr (p : Phase) (s : State) : (s.goto p).addr = s.addr := rfl
@[simp] theorem goto_txlen (p : Phase) (s : State) : (s.goto p).txlen = s.txlen := rfl
@[simp] theorem goto_rxcnt (p : Phase) (s : State) : (s.goto p).rxcnt = s.rxcnt := rfl
@[simp] theorem goto_rxlen (p : Phase) (s : State) : (s.goto p).rxlen = s.rxlen := rfl
@[simp] theorem goto_chkerr (p : Phase) (s : State) : (s.goto p).chkerr = s.chkerr := rfl
@[simp] theorem goto_txbuf (p : Phase) (s : State) : (s.goto p).txbuf = s.txbuf := rfl
@[simp] theorem goto_rxbuf (p : Phase) (s : State) : (s.goto p).rxbuf = s.rxbuf := rfl
@[simp] theorem goto_ckhi (p : Phase) (s : State) : (s.goto p).ckhi = s.ckhi := rfl
@[simp] theorem goto_cklo (p : Phase) (s : State) : (s.goto p).cklo = s.cklo := rfl
@[simp] theorem goto_ckrcv (p : Phase) (s : State) : (s.goto p).ckrcv = s.ckrcv := rfl
@[simp] theorem goto_phase (p : Phase) (s : State) : (s.goto p).phase = p := rfl
@[simp] theorem goto_cmd (p : Phase) (s : State) : (s.goto p).cmd = s.cmd := rfl
@[simp] theorem goto_op (p : Phase) (s : State) : (s.goto p).op = s.op := rfl
@[simp] theorem goto_leg (p : Phase) (s : State) : (s.goto p).leg = s.leg := rfl
@[simp] theorem goto_stop (p : Phase) (s : State) : (s.goto p).stop = s.stop := rfl
@[simp] theorem goto_idx (p : Phase) (s : State) : (s.goto p).idx = s.idx := rfl
@[simp] theorem goto_n (p : Phase) (s : State) : (s.goto p).n = s.n := rfl
@[simp] theorem goto_trace (p : Phase) (s : State) : (s.goto p).trace = s.trace := rfl
@[simp] theorem goto_phyEvent (p : Phase) (s : State) : (s.goto p).phyEvent = s.phyEvent := rfl
@[simp] theorem goto_inputs (p : Phase) (s : State) : (s.goto p).inputs = s.inputs := rfl
@[simp] theorem goto_hostReads (p : Phase) (s : State) : (s.goto p).hostReads = s.hostReads := rfl

/-! `latchOp` -/

@[simp] theorem latchOp_busy (o : EngineOp) (s : State) : (s.latchOp o).busy = s.busy := rfl
@[simp] theorem latchOp_valid (o : EngineOp) (s : State) : (s.latchOp o).valid = s.valid := rfl
@[simp] theorem latchOp_ovr (o : EngineOp) (s : State) : (s.latchOp o).ovr = s.ovr := rfl
@[simp] theorem latchOp_held (o : EngineOp) (s : State) : (s.latchOp o).held = s.held := rfl
@[simp] theorem latchOp_outcome (o : EngineOp) (s : State) : (s.latchOp o).outcome = s.outcome := rfl
@[simp] theorem latchOp_addr (o : EngineOp) (s : State) : (s.latchOp o).addr = s.addr := rfl
@[simp] theorem latchOp_txlen (o : EngineOp) (s : State) : (s.latchOp o).txlen = s.txlen := rfl
@[simp] theorem latchOp_rxcnt (o : EngineOp) (s : State) : (s.latchOp o).rxcnt = s.rxcnt := rfl
@[simp] theorem latchOp_rxlen (o : EngineOp) (s : State) : (s.latchOp o).rxlen = s.rxlen := rfl
@[simp] theorem latchOp_chkerr (o : EngineOp) (s : State) : (s.latchOp o).chkerr = s.chkerr := rfl
@[simp] theorem latchOp_txbuf (o : EngineOp) (s : State) : (s.latchOp o).txbuf = s.txbuf := rfl
@[simp] theorem latchOp_rxbuf (o : EngineOp) (s : State) : (s.latchOp o).rxbuf = s.rxbuf := rfl
@[simp] theorem latchOp_ckhi (o : EngineOp) (s : State) : (s.latchOp o).ckhi = s.ckhi := rfl
@[simp] theorem latchOp_cklo (o : EngineOp) (s : State) : (s.latchOp o).cklo = s.cklo := rfl
@[simp] theorem latchOp_ckrcv (o : EngineOp) (s : State) : (s.latchOp o).ckrcv = s.ckrcv := rfl
@[simp] theorem latchOp_phase (o : EngineOp) (s : State) : (s.latchOp o).phase = s.phase := rfl
@[simp] theorem latchOp_cmd (o : EngineOp) (s : State) : (s.latchOp o).cmd = s.cmd := rfl
@[simp] theorem latchOp_op (o : EngineOp) (s : State) : (s.latchOp o).op = o := rfl
@[simp] theorem latchOp_leg (o : EngineOp) (s : State) : (s.latchOp o).leg = s.leg := rfl
@[simp] theorem latchOp_stop (o : EngineOp) (s : State) : (s.latchOp o).stop = s.stop := rfl
@[simp] theorem latchOp_idx (o : EngineOp) (s : State) : (s.latchOp o).idx = s.idx := rfl
@[simp] theorem latchOp_n (o : EngineOp) (s : State) : (s.latchOp o).n = s.n := rfl
@[simp] theorem latchOp_trace (o : EngineOp) (s : State) : (s.latchOp o).trace = s.trace := rfl
@[simp] theorem latchOp_phyEvent (o : EngineOp) (s : State) : (s.latchOp o).phyEvent = s.phyEvent := rfl
@[simp] theorem latchOp_inputs (o : EngineOp) (s : State) : (s.latchOp o).inputs = s.inputs := rfl
@[simp] theorem latchOp_hostReads (o : EngineOp) (s : State) : (s.latchOp o).hostReads = s.hostReads := rfl

/-! `setHeld` -/

@[simp] theorem setHeld_busy (b : Bool) (s : State) : (s.setHeld b).busy = s.busy := rfl
@[simp] theorem setHeld_valid (b : Bool) (s : State) : (s.setHeld b).valid = s.valid := rfl
@[simp] theorem setHeld_ovr (b : Bool) (s : State) : (s.setHeld b).ovr = s.ovr := rfl
@[simp] theorem setHeld_held (b : Bool) (s : State) : (s.setHeld b).held = b := rfl
@[simp] theorem setHeld_outcome (b : Bool) (s : State) : (s.setHeld b).outcome = s.outcome := rfl
@[simp] theorem setHeld_addr (b : Bool) (s : State) : (s.setHeld b).addr = s.addr := rfl
@[simp] theorem setHeld_txlen (b : Bool) (s : State) : (s.setHeld b).txlen = s.txlen := rfl
@[simp] theorem setHeld_rxcnt (b : Bool) (s : State) : (s.setHeld b).rxcnt = s.rxcnt := rfl
@[simp] theorem setHeld_rxlen (b : Bool) (s : State) : (s.setHeld b).rxlen = s.rxlen := rfl
@[simp] theorem setHeld_chkerr (b : Bool) (s : State) : (s.setHeld b).chkerr = s.chkerr := rfl
@[simp] theorem setHeld_txbuf (b : Bool) (s : State) : (s.setHeld b).txbuf = s.txbuf := rfl
@[simp] theorem setHeld_rxbuf (b : Bool) (s : State) : (s.setHeld b).rxbuf = s.rxbuf := rfl
@[simp] theorem setHeld_ckhi (b : Bool) (s : State) : (s.setHeld b).ckhi = s.ckhi := rfl
@[simp] theorem setHeld_cklo (b : Bool) (s : State) : (s.setHeld b).cklo = s.cklo := rfl
@[simp] theorem setHeld_ckrcv (b : Bool) (s : State) : (s.setHeld b).ckrcv = s.ckrcv := rfl
@[simp] theorem setHeld_phase (b : Bool) (s : State) : (s.setHeld b).phase = s.phase := rfl
@[simp] theorem setHeld_cmd (b : Bool) (s : State) : (s.setHeld b).cmd = s.cmd := rfl
@[simp] theorem setHeld_op (b : Bool) (s : State) : (s.setHeld b).op = s.op := rfl
@[simp] theorem setHeld_leg (b : Bool) (s : State) : (s.setHeld b).leg = s.leg := rfl
@[simp] theorem setHeld_stop (b : Bool) (s : State) : (s.setHeld b).stop = s.stop := rfl
@[simp] theorem setHeld_idx (b : Bool) (s : State) : (s.setHeld b).idx = s.idx := rfl
@[simp] theorem setHeld_n (b : Bool) (s : State) : (s.setHeld b).n = s.n := rfl
@[simp] theorem setHeld_trace (b : Bool) (s : State) : (s.setHeld b).trace = s.trace := rfl
@[simp] theorem setHeld_phyEvent (b : Bool) (s : State) : (s.setHeld b).phyEvent = s.phyEvent := rfl
@[simp] theorem setHeld_inputs (b : Bool) (s : State) : (s.setHeld b).inputs = s.inputs := rfl
@[simp] theorem setHeld_hostReads (b : Bool) (s : State) : (s.setHeld b).hostReads = s.hostReads := rfl

/-! `setRxlen` -/

@[simp] theorem setRxlen_busy (v : Byte) (s : State) : (s.setRxlen v).busy = s.busy := rfl
@[simp] theorem setRxlen_valid (v : Byte) (s : State) : (s.setRxlen v).valid = s.valid := rfl
@[simp] theorem setRxlen_ovr (v : Byte) (s : State) : (s.setRxlen v).ovr = s.ovr := rfl
@[simp] theorem setRxlen_held (v : Byte) (s : State) : (s.setRxlen v).held = s.held := rfl
@[simp] theorem setRxlen_outcome (v : Byte) (s : State) : (s.setRxlen v).outcome = s.outcome := rfl
@[simp] theorem setRxlen_addr (v : Byte) (s : State) : (s.setRxlen v).addr = s.addr := rfl
@[simp] theorem setRxlen_txlen (v : Byte) (s : State) : (s.setRxlen v).txlen = s.txlen := rfl
@[simp] theorem setRxlen_rxcnt (v : Byte) (s : State) : (s.setRxlen v).rxcnt = s.rxcnt := rfl
@[simp] theorem setRxlen_rxlen (v : Byte) (s : State) : (s.setRxlen v).rxlen = v := rfl
@[simp] theorem setRxlen_chkerr (v : Byte) (s : State) : (s.setRxlen v).chkerr = s.chkerr := rfl
@[simp] theorem setRxlen_txbuf (v : Byte) (s : State) : (s.setRxlen v).txbuf = s.txbuf := rfl
@[simp] theorem setRxlen_rxbuf (v : Byte) (s : State) : (s.setRxlen v).rxbuf = s.rxbuf := rfl
@[simp] theorem setRxlen_ckhi (v : Byte) (s : State) : (s.setRxlen v).ckhi = s.ckhi := rfl
@[simp] theorem setRxlen_cklo (v : Byte) (s : State) : (s.setRxlen v).cklo = s.cklo := rfl
@[simp] theorem setRxlen_ckrcv (v : Byte) (s : State) : (s.setRxlen v).ckrcv = s.ckrcv := rfl
@[simp] theorem setRxlen_phase (v : Byte) (s : State) : (s.setRxlen v).phase = s.phase := rfl
@[simp] theorem setRxlen_cmd (v : Byte) (s : State) : (s.setRxlen v).cmd = s.cmd := rfl
@[simp] theorem setRxlen_op (v : Byte) (s : State) : (s.setRxlen v).op = s.op := rfl
@[simp] theorem setRxlen_leg (v : Byte) (s : State) : (s.setRxlen v).leg = s.leg := rfl
@[simp] theorem setRxlen_stop (v : Byte) (s : State) : (s.setRxlen v).stop = s.stop := rfl
@[simp] theorem setRxlen_idx (v : Byte) (s : State) : (s.setRxlen v).idx = s.idx := rfl
@[simp] theorem setRxlen_n (v : Byte) (s : State) : (s.setRxlen v).n = s.n := rfl
@[simp] theorem setRxlen_trace (v : Byte) (s : State) : (s.setRxlen v).trace = s.trace := rfl
@[simp] theorem setRxlen_phyEvent (v : Byte) (s : State) : (s.setRxlen v).phyEvent = s.phyEvent := rfl
@[simp] theorem setRxlen_inputs (v : Byte) (s : State) : (s.setRxlen v).inputs = s.inputs := rfl
@[simp] theorem setRxlen_hostReads (v : Byte) (s : State) : (s.setRxlen v).hostReads = s.hostReads := rfl

/-! `setChkerr` -/

@[simp] theorem setChkerr_busy (m : Byte) (s : State) : (s.setChkerr m).busy = s.busy := rfl
@[simp] theorem setChkerr_valid (m : Byte) (s : State) : (s.setChkerr m).valid = s.valid := rfl
@[simp] theorem setChkerr_ovr (m : Byte) (s : State) : (s.setChkerr m).ovr = s.ovr := rfl
@[simp] theorem setChkerr_held (m : Byte) (s : State) : (s.setChkerr m).held = s.held := rfl
@[simp] theorem setChkerr_outcome (m : Byte) (s : State) : (s.setChkerr m).outcome = s.outcome := rfl
@[simp] theorem setChkerr_addr (m : Byte) (s : State) : (s.setChkerr m).addr = s.addr := rfl
@[simp] theorem setChkerr_txlen (m : Byte) (s : State) : (s.setChkerr m).txlen = s.txlen := rfl
@[simp] theorem setChkerr_rxcnt (m : Byte) (s : State) : (s.setChkerr m).rxcnt = s.rxcnt := rfl
@[simp] theorem setChkerr_rxlen (m : Byte) (s : State) : (s.setChkerr m).rxlen = s.rxlen := rfl
@[simp] theorem setChkerr_chkerr (m : Byte) (s : State) : (s.setChkerr m).chkerr = m := rfl
@[simp] theorem setChkerr_txbuf (m : Byte) (s : State) : (s.setChkerr m).txbuf = s.txbuf := rfl
@[simp] theorem setChkerr_rxbuf (m : Byte) (s : State) : (s.setChkerr m).rxbuf = s.rxbuf := rfl
@[simp] theorem setChkerr_ckhi (m : Byte) (s : State) : (s.setChkerr m).ckhi = s.ckhi := rfl
@[simp] theorem setChkerr_cklo (m : Byte) (s : State) : (s.setChkerr m).cklo = s.cklo := rfl
@[simp] theorem setChkerr_ckrcv (m : Byte) (s : State) : (s.setChkerr m).ckrcv = s.ckrcv := rfl
@[simp] theorem setChkerr_phase (m : Byte) (s : State) : (s.setChkerr m).phase = s.phase := rfl
@[simp] theorem setChkerr_cmd (m : Byte) (s : State) : (s.setChkerr m).cmd = s.cmd := rfl
@[simp] theorem setChkerr_op (m : Byte) (s : State) : (s.setChkerr m).op = s.op := rfl
@[simp] theorem setChkerr_leg (m : Byte) (s : State) : (s.setChkerr m).leg = s.leg := rfl
@[simp] theorem setChkerr_stop (m : Byte) (s : State) : (s.setChkerr m).stop = s.stop := rfl
@[simp] theorem setChkerr_idx (m : Byte) (s : State) : (s.setChkerr m).idx = s.idx := rfl
@[simp] theorem setChkerr_n (m : Byte) (s : State) : (s.setChkerr m).n = s.n := rfl
@[simp] theorem setChkerr_trace (m : Byte) (s : State) : (s.setChkerr m).trace = s.trace := rfl
@[simp] theorem setChkerr_phyEvent (m : Byte) (s : State) : (s.setChkerr m).phyEvent = s.phyEvent := rfl
@[simp] theorem setChkerr_inputs (m : Byte) (s : State) : (s.setChkerr m).inputs = s.inputs := rfl
@[simp] theorem setChkerr_hostReads (m : Byte) (s : State) : (s.setChkerr m).hostReads = s.hostReads := rfl

/-! `presentEvent` -/

@[simp] theorem presentEvent_busy (e : PhyEvent) (s : State) : (s.presentEvent e).busy = s.busy := rfl
@[simp] theorem presentEvent_valid (e : PhyEvent) (s : State) : (s.presentEvent e).valid = s.valid := rfl
@[simp] theorem presentEvent_ovr (e : PhyEvent) (s : State) : (s.presentEvent e).ovr = s.ovr := rfl
@[simp] theorem presentEvent_held (e : PhyEvent) (s : State) : (s.presentEvent e).held = s.held := rfl
@[simp] theorem presentEvent_outcome (e : PhyEvent) (s : State) : (s.presentEvent e).outcome = s.outcome := rfl
@[simp] theorem presentEvent_addr (e : PhyEvent) (s : State) : (s.presentEvent e).addr = s.addr := rfl
@[simp] theorem presentEvent_txlen (e : PhyEvent) (s : State) : (s.presentEvent e).txlen = s.txlen := rfl
@[simp] theorem presentEvent_rxcnt (e : PhyEvent) (s : State) : (s.presentEvent e).rxcnt = s.rxcnt := rfl
@[simp] theorem presentEvent_rxlen (e : PhyEvent) (s : State) : (s.presentEvent e).rxlen = s.rxlen := rfl
@[simp] theorem presentEvent_chkerr (e : PhyEvent) (s : State) : (s.presentEvent e).chkerr = s.chkerr := rfl
@[simp] theorem presentEvent_txbuf (e : PhyEvent) (s : State) : (s.presentEvent e).txbuf = s.txbuf := rfl
@[simp] theorem presentEvent_rxbuf (e : PhyEvent) (s : State) : (s.presentEvent e).rxbuf = s.rxbuf := rfl
@[simp] theorem presentEvent_ckhi (e : PhyEvent) (s : State) : (s.presentEvent e).ckhi = s.ckhi := rfl
@[simp] theorem presentEvent_cklo (e : PhyEvent) (s : State) : (s.presentEvent e).cklo = s.cklo := rfl
@[simp] theorem presentEvent_ckrcv (e : PhyEvent) (s : State) : (s.presentEvent e).ckrcv = s.ckrcv := rfl
@[simp] theorem presentEvent_phase (e : PhyEvent) (s : State) : (s.presentEvent e).phase = s.phase := rfl
@[simp] theorem presentEvent_cmd (e : PhyEvent) (s : State) : (s.presentEvent e).cmd = s.cmd := rfl
@[simp] theorem presentEvent_op (e : PhyEvent) (s : State) : (s.presentEvent e).op = s.op := rfl
@[simp] theorem presentEvent_leg (e : PhyEvent) (s : State) : (s.presentEvent e).leg = s.leg := rfl
@[simp] theorem presentEvent_stop (e : PhyEvent) (s : State) : (s.presentEvent e).stop = s.stop := rfl
@[simp] theorem presentEvent_idx (e : PhyEvent) (s : State) : (s.presentEvent e).idx = s.idx := rfl
@[simp] theorem presentEvent_n (e : PhyEvent) (s : State) : (s.presentEvent e).n = s.n := rfl
@[simp] theorem presentEvent_trace (e : PhyEvent) (s : State) : (s.presentEvent e).trace = s.trace := rfl
@[simp] theorem presentEvent_phyEvent (e : PhyEvent) (s : State) : (s.presentEvent e).phyEvent = some e := rfl
@[simp] theorem presentEvent_inputs (e : PhyEvent) (s : State) : (s.presentEvent e).inputs = s.inputs := rfl
@[simp] theorem presentEvent_hostReads (e : PhyEvent) (s : State) : (s.presentEvent e).hostReads = s.hostReads := rfl

/-! `takeEvent` -/

@[simp] theorem takeEvent_busy (s : State) : (s.takeEvent).busy = s.busy := rfl
@[simp] theorem takeEvent_valid (s : State) : (s.takeEvent).valid = s.valid := rfl
@[simp] theorem takeEvent_ovr (s : State) : (s.takeEvent).ovr = s.ovr := rfl
@[simp] theorem takeEvent_held (s : State) : (s.takeEvent).held = s.held := rfl
@[simp] theorem takeEvent_outcome (s : State) : (s.takeEvent).outcome = s.outcome := rfl
@[simp] theorem takeEvent_addr (s : State) : (s.takeEvent).addr = s.addr := rfl
@[simp] theorem takeEvent_txlen (s : State) : (s.takeEvent).txlen = s.txlen := rfl
@[simp] theorem takeEvent_rxcnt (s : State) : (s.takeEvent).rxcnt = s.rxcnt := rfl
@[simp] theorem takeEvent_rxlen (s : State) : (s.takeEvent).rxlen = s.rxlen := rfl
@[simp] theorem takeEvent_chkerr (s : State) : (s.takeEvent).chkerr = s.chkerr := rfl
@[simp] theorem takeEvent_txbuf (s : State) : (s.takeEvent).txbuf = s.txbuf := rfl
@[simp] theorem takeEvent_rxbuf (s : State) : (s.takeEvent).rxbuf = s.rxbuf := rfl
@[simp] theorem takeEvent_ckhi (s : State) : (s.takeEvent).ckhi = s.ckhi := rfl
@[simp] theorem takeEvent_cklo (s : State) : (s.takeEvent).cklo = s.cklo := rfl
@[simp] theorem takeEvent_ckrcv (s : State) : (s.takeEvent).ckrcv = s.ckrcv := rfl
@[simp] theorem takeEvent_phase (s : State) : (s.takeEvent).phase = s.phase := rfl
@[simp] theorem takeEvent_cmd (s : State) : (s.takeEvent).cmd = s.cmd := rfl
@[simp] theorem takeEvent_op (s : State) : (s.takeEvent).op = s.op := rfl
@[simp] theorem takeEvent_leg (s : State) : (s.takeEvent).leg = s.leg := rfl
@[simp] theorem takeEvent_stop (s : State) : (s.takeEvent).stop = s.stop := rfl
@[simp] theorem takeEvent_idx (s : State) : (s.takeEvent).idx = s.idx := rfl
@[simp] theorem takeEvent_n (s : State) : (s.takeEvent).n = s.n := rfl
@[simp] theorem takeEvent_trace (s : State) : (s.takeEvent).trace = s.trace := rfl
@[simp] theorem takeEvent_phyEvent (s : State) : (s.takeEvent).phyEvent = none := rfl
@[simp] theorem takeEvent_inputs (s : State) : (s.takeEvent).inputs = s.inputs := rfl
@[simp] theorem takeEvent_hostReads (s : State) : (s.takeEvent).hostReads = s.hostReads := rfl

/-! `setInputs` -/

@[simp] theorem setInputs_busy (l : List Turn) (s : State) : (s.setInputs l).busy = s.busy := rfl
@[simp] theorem setInputs_valid (l : List Turn) (s : State) : (s.setInputs l).valid = s.valid := rfl
@[simp] theorem setInputs_ovr (l : List Turn) (s : State) : (s.setInputs l).ovr = s.ovr := rfl
@[simp] theorem setInputs_held (l : List Turn) (s : State) : (s.setInputs l).held = s.held := rfl
@[simp] theorem setInputs_outcome (l : List Turn) (s : State) : (s.setInputs l).outcome = s.outcome := rfl
@[simp] theorem setInputs_addr (l : List Turn) (s : State) : (s.setInputs l).addr = s.addr := rfl
@[simp] theorem setInputs_txlen (l : List Turn) (s : State) : (s.setInputs l).txlen = s.txlen := rfl
@[simp] theorem setInputs_rxcnt (l : List Turn) (s : State) : (s.setInputs l).rxcnt = s.rxcnt := rfl
@[simp] theorem setInputs_rxlen (l : List Turn) (s : State) : (s.setInputs l).rxlen = s.rxlen := rfl
@[simp] theorem setInputs_chkerr (l : List Turn) (s : State) : (s.setInputs l).chkerr = s.chkerr := rfl
@[simp] theorem setInputs_txbuf (l : List Turn) (s : State) : (s.setInputs l).txbuf = s.txbuf := rfl
@[simp] theorem setInputs_rxbuf (l : List Turn) (s : State) : (s.setInputs l).rxbuf = s.rxbuf := rfl
@[simp] theorem setInputs_ckhi (l : List Turn) (s : State) : (s.setInputs l).ckhi = s.ckhi := rfl
@[simp] theorem setInputs_cklo (l : List Turn) (s : State) : (s.setInputs l).cklo = s.cklo := rfl
@[simp] theorem setInputs_ckrcv (l : List Turn) (s : State) : (s.setInputs l).ckrcv = s.ckrcv := rfl
@[simp] theorem setInputs_phase (l : List Turn) (s : State) : (s.setInputs l).phase = s.phase := rfl
@[simp] theorem setInputs_cmd (l : List Turn) (s : State) : (s.setInputs l).cmd = s.cmd := rfl
@[simp] theorem setInputs_op (l : List Turn) (s : State) : (s.setInputs l).op = s.op := rfl
@[simp] theorem setInputs_leg (l : List Turn) (s : State) : (s.setInputs l).leg = s.leg := rfl
@[simp] theorem setInputs_stop (l : List Turn) (s : State) : (s.setInputs l).stop = s.stop := rfl
@[simp] theorem setInputs_idx (l : List Turn) (s : State) : (s.setInputs l).idx = s.idx := rfl
@[simp] theorem setInputs_n (l : List Turn) (s : State) : (s.setInputs l).n = s.n := rfl
@[simp] theorem setInputs_trace (l : List Turn) (s : State) : (s.setInputs l).trace = s.trace := rfl
@[simp] theorem setInputs_phyEvent (l : List Turn) (s : State) : (s.setInputs l).phyEvent = s.phyEvent := rfl
@[simp] theorem setInputs_inputs (l : List Turn) (s : State) : (s.setInputs l).inputs = l := rfl
@[simp] theorem setInputs_hostReads (l : List Turn) (s : State) : (s.setInputs l).hostReads = s.hostReads := rfl

/-! `clearRx` -/

@[simp] theorem clearRx_busy (s : State) : (s.clearRx).busy = s.busy := rfl
@[simp] theorem clearRx_valid (s : State) : (s.clearRx).valid = s.valid := rfl
@[simp] theorem clearRx_ovr (s : State) : (s.clearRx).ovr = s.ovr := rfl
@[simp] theorem clearRx_held (s : State) : (s.clearRx).held = s.held := rfl
@[simp] theorem clearRx_outcome (s : State) : (s.clearRx).outcome = s.outcome := rfl
@[simp] theorem clearRx_addr (s : State) : (s.clearRx).addr = s.addr := rfl
@[simp] theorem clearRx_txlen (s : State) : (s.clearRx).txlen = s.txlen := rfl
@[simp] theorem clearRx_rxcnt (s : State) : (s.clearRx).rxcnt = s.rxcnt := rfl
@[simp] theorem clearRx_rxlen (s : State) : (s.clearRx).rxlen = 0x00#8 := rfl
@[simp] theorem clearRx_chkerr (s : State) : (s.clearRx).chkerr = s.chkerr := rfl
@[simp] theorem clearRx_txbuf (s : State) : (s.clearRx).txbuf = s.txbuf := rfl
@[simp] theorem clearRx_rxbuf (s : State) : (s.clearRx).rxbuf = bufZero := rfl
@[simp] theorem clearRx_ckhi (s : State) : (s.clearRx).ckhi = s.ckhi := rfl
@[simp] theorem clearRx_cklo (s : State) : (s.clearRx).cklo = s.cklo := rfl
@[simp] theorem clearRx_ckrcv (s : State) : (s.clearRx).ckrcv = s.ckrcv := rfl
@[simp] theorem clearRx_phase (s : State) : (s.clearRx).phase = s.phase := rfl
@[simp] theorem clearRx_cmd (s : State) : (s.clearRx).cmd = s.cmd := rfl
@[simp] theorem clearRx_op (s : State) : (s.clearRx).op = s.op := rfl
@[simp] theorem clearRx_leg (s : State) : (s.clearRx).leg = s.leg := rfl
@[simp] theorem clearRx_stop (s : State) : (s.clearRx).stop = s.stop := rfl
@[simp] theorem clearRx_idx (s : State) : (s.clearRx).idx = s.idx := rfl
@[simp] theorem clearRx_n (s : State) : (s.clearRx).n = s.n := rfl
@[simp] theorem clearRx_trace (s : State) : (s.clearRx).trace = s.trace := rfl
@[simp] theorem clearRx_phyEvent (s : State) : (s.clearRx).phyEvent = s.phyEvent := rfl
@[simp] theorem clearRx_inputs (s : State) : (s.clearRx).inputs = s.inputs := rfl
@[simp] theorem clearRx_hostReads (s : State) : (s.clearRx).hostReads = s.hostReads := rfl

/-! `complete` -/

@[simp] theorem complete_busy (o : CommandOutcome) (s : State) : (s.complete o).busy = false := rfl
@[simp] theorem complete_valid (o : CommandOutcome) (s : State) : (s.complete o).valid = true := rfl
@[simp] theorem complete_ovr (o : CommandOutcome) (s : State) : (s.complete o).ovr = s.ovr := rfl
@[simp] theorem complete_held (o : CommandOutcome) (s : State) : (s.complete o).held = s.held := rfl
@[simp] theorem complete_outcome (o : CommandOutcome) (s : State) : (s.complete o).outcome = o := rfl
@[simp] theorem complete_addr (o : CommandOutcome) (s : State) : (s.complete o).addr = s.addr := rfl
@[simp] theorem complete_txlen (o : CommandOutcome) (s : State) : (s.complete o).txlen = s.txlen := rfl
@[simp] theorem complete_rxcnt (o : CommandOutcome) (s : State) : (s.complete o).rxcnt = s.rxcnt := rfl
@[simp] theorem complete_rxlen (o : CommandOutcome) (s : State) : (s.complete o).rxlen = s.rxlen := rfl
@[simp] theorem complete_chkerr (o : CommandOutcome) (s : State) : (s.complete o).chkerr = s.chkerr := rfl
@[simp] theorem complete_txbuf (o : CommandOutcome) (s : State) : (s.complete o).txbuf = s.txbuf := rfl
@[simp] theorem complete_rxbuf (o : CommandOutcome) (s : State) : (s.complete o).rxbuf = s.rxbuf := rfl
@[simp] theorem complete_ckhi (o : CommandOutcome) (s : State) : (s.complete o).ckhi = s.ckhi := rfl
@[simp] theorem complete_cklo (o : CommandOutcome) (s : State) : (s.complete o).cklo = s.cklo := rfl
@[simp] theorem complete_ckrcv (o : CommandOutcome) (s : State) : (s.complete o).ckrcv = s.ckrcv := rfl
@[simp] theorem complete_phase (o : CommandOutcome) (s : State) : (s.complete o).phase = .idle := rfl
@[simp] theorem complete_cmd (o : CommandOutcome) (s : State) : (s.complete o).cmd = s.cmd := rfl
@[simp] theorem complete_op (o : CommandOutcome) (s : State) : (s.complete o).op = s.op := rfl
@[simp] theorem complete_leg (o : CommandOutcome) (s : State) : (s.complete o).leg = s.leg := rfl
@[simp] theorem complete_stop (o : CommandOutcome) (s : State) : (s.complete o).stop = s.stop := rfl
@[simp] theorem complete_idx (o : CommandOutcome) (s : State) : (s.complete o).idx = s.idx := rfl
@[simp] theorem complete_n (o : CommandOutcome) (s : State) : (s.complete o).n = s.n := rfl
@[simp] theorem complete_trace (o : CommandOutcome) (s : State) : (s.complete o).trace = s.trace := rfl
@[simp] theorem complete_phyEvent (o : CommandOutcome) (s : State) : (s.complete o).phyEvent = s.phyEvent := rfl
@[simp] theorem complete_inputs (o : CommandOutcome) (s : State) : (s.complete o).inputs = s.inputs := rfl
@[simp] theorem complete_hostReads (o : CommandOutcome) (s : State) : (s.complete o).hostReads = s.hostReads := rfl

/-! `accept` -/

@[simp] theorem accept_busy (c : Byte) (s : State) : (s.accept c).busy = true := rfl
@[simp] theorem accept_valid (c : Byte) (s : State) : (s.accept c).valid = s.valid := rfl
@[simp] theorem accept_ovr (c : Byte) (s : State) : (s.accept c).ovr = s.ovr := rfl
@[simp] theorem accept_held (c : Byte) (s : State) : (s.accept c).held = s.held := rfl
@[simp] theorem accept_outcome (c : Byte) (s : State) : (s.accept c).outcome = s.outcome := rfl
@[simp] theorem accept_addr (c : Byte) (s : State) : (s.accept c).addr = s.addr := rfl
@[simp] theorem accept_txlen (c : Byte) (s : State) : (s.accept c).txlen = s.txlen := rfl
@[simp] theorem accept_rxcnt (c : Byte) (s : State) : (s.accept c).rxcnt = s.rxcnt := rfl
@[simp] theorem accept_rxlen (c : Byte) (s : State) : (s.accept c).rxlen = s.rxlen := rfl
@[simp] theorem accept_chkerr (c : Byte) (s : State) : (s.accept c).chkerr = s.chkerr := rfl
@[simp] theorem accept_txbuf (c : Byte) (s : State) : (s.accept c).txbuf = s.txbuf := rfl
@[simp] theorem accept_rxbuf (c : Byte) (s : State) : (s.accept c).rxbuf = s.rxbuf := rfl
@[simp] theorem accept_ckhi (c : Byte) (s : State) : (s.accept c).ckhi = s.ckhi := rfl
@[simp] theorem accept_cklo (c : Byte) (s : State) : (s.accept c).cklo = s.cklo := rfl
@[simp] theorem accept_ckrcv (c : Byte) (s : State) : (s.accept c).ckrcv = s.ckrcv := rfl
@[simp] theorem accept_phase (c : Byte) (s : State) : (s.accept c).phase = .decode := rfl
@[simp] theorem accept_cmd (c : Byte) (s : State) : (s.accept c).cmd = c := rfl
@[simp] theorem accept_op (c : Byte) (s : State) : (s.accept c).op = s.op := rfl
@[simp] theorem accept_leg (c : Byte) (s : State) : (s.accept c).leg = s.leg := rfl
@[simp] theorem accept_stop (c : Byte) (s : State) : (s.accept c).stop = s.stop := rfl
@[simp] theorem accept_idx (c : Byte) (s : State) : (s.accept c).idx = s.idx := rfl
@[simp] theorem accept_n (c : Byte) (s : State) : (s.accept c).n = s.n := rfl
@[simp] theorem accept_trace (c : Byte) (s : State) : (s.accept c).trace = s.trace := rfl
@[simp] theorem accept_phyEvent (c : Byte) (s : State) : (s.accept c).phyEvent = s.phyEvent := rfl
@[simp] theorem accept_inputs (c : Byte) (s : State) : (s.accept c).inputs = s.inputs := rfl
@[simp] theorem accept_hostReads (c : Byte) (s : State) : (s.accept c).hostReads = s.hostReads := rfl

/-! `drop` -/

@[simp] theorem drop_busy (s : State) : (s.drop).busy = s.busy := rfl
@[simp] theorem drop_valid (s : State) : (s.drop).valid = s.valid := rfl
@[simp] theorem drop_ovr (s : State) : (s.drop).ovr = true := rfl
@[simp] theorem drop_held (s : State) : (s.drop).held = s.held := rfl
@[simp] theorem drop_outcome (s : State) : (s.drop).outcome = s.outcome := rfl
@[simp] theorem drop_addr (s : State) : (s.drop).addr = s.addr := rfl
@[simp] theorem drop_txlen (s : State) : (s.drop).txlen = s.txlen := rfl
@[simp] theorem drop_rxcnt (s : State) : (s.drop).rxcnt = s.rxcnt := rfl
@[simp] theorem drop_rxlen (s : State) : (s.drop).rxlen = s.rxlen := rfl
@[simp] theorem drop_chkerr (s : State) : (s.drop).chkerr = s.chkerr := rfl
@[simp] theorem drop_txbuf (s : State) : (s.drop).txbuf = s.txbuf := rfl
@[simp] theorem drop_rxbuf (s : State) : (s.drop).rxbuf = s.rxbuf := rfl
@[simp] theorem drop_ckhi (s : State) : (s.drop).ckhi = s.ckhi := rfl
@[simp] theorem drop_cklo (s : State) : (s.drop).cklo = s.cklo := rfl
@[simp] theorem drop_ckrcv (s : State) : (s.drop).ckrcv = s.ckrcv := rfl
@[simp] theorem drop_phase (s : State) : (s.drop).phase = s.phase := rfl
@[simp] theorem drop_cmd (s : State) : (s.drop).cmd = s.cmd := rfl
@[simp] theorem drop_op (s : State) : (s.drop).op = s.op := rfl
@[simp] theorem drop_leg (s : State) : (s.drop).leg = s.leg := rfl
@[simp] theorem drop_stop (s : State) : (s.drop).stop = s.stop := rfl
@[simp] theorem drop_idx (s : State) : (s.drop).idx = s.idx := rfl
@[simp] theorem drop_n (s : State) : (s.drop).n = s.n := rfl
@[simp] theorem drop_trace (s : State) : (s.drop).trace = s.trace := rfl
@[simp] theorem drop_phyEvent (s : State) : (s.drop).phyEvent = s.phyEvent := rfl
@[simp] theorem drop_inputs (s : State) : (s.drop).inputs = s.inputs := rfl
@[simp] theorem drop_hostReads (s : State) : (s.drop).hostReads = s.hostReads := rfl

/-! `setOvr` -/

@[simp] theorem setOvr_busy (b : Bool) (s : State) : (s.setOvr b).busy = s.busy := rfl
@[simp] theorem setOvr_valid (b : Bool) (s : State) : (s.setOvr b).valid = s.valid := rfl
@[simp] theorem setOvr_ovr (b : Bool) (s : State) : (s.setOvr b).ovr = b := rfl
@[simp] theorem setOvr_held (b : Bool) (s : State) : (s.setOvr b).held = s.held := rfl
@[simp] theorem setOvr_outcome (b : Bool) (s : State) : (s.setOvr b).outcome = s.outcome := rfl
@[simp] theorem setOvr_addr (b : Bool) (s : State) : (s.setOvr b).addr = s.addr := rfl
@[simp] theorem setOvr_txlen (b : Bool) (s : State) : (s.setOvr b).txlen = s.txlen := rfl
@[simp] theorem setOvr_rxcnt (b : Bool) (s : State) : (s.setOvr b).rxcnt = s.rxcnt := rfl
@[simp] theorem setOvr_rxlen (b : Bool) (s : State) : (s.setOvr b).rxlen = s.rxlen := rfl
@[simp] theorem setOvr_chkerr (b : Bool) (s : State) : (s.setOvr b).chkerr = s.chkerr := rfl
@[simp] theorem setOvr_txbuf (b : Bool) (s : State) : (s.setOvr b).txbuf = s.txbuf := rfl
@[simp] theorem setOvr_rxbuf (b : Bool) (s : State) : (s.setOvr b).rxbuf = s.rxbuf := rfl
@[simp] theorem setOvr_ckhi (b : Bool) (s : State) : (s.setOvr b).ckhi = s.ckhi := rfl
@[simp] theorem setOvr_cklo (b : Bool) (s : State) : (s.setOvr b).cklo = s.cklo := rfl
@[simp] theorem setOvr_ckrcv (b : Bool) (s : State) : (s.setOvr b).ckrcv = s.ckrcv := rfl
@[simp] theorem setOvr_phase (b : Bool) (s : State) : (s.setOvr b).phase = s.phase := rfl
@[simp] theorem setOvr_cmd (b : Bool) (s : State) : (s.setOvr b).cmd = s.cmd := rfl
@[simp] theorem setOvr_op (b : Bool) (s : State) : (s.setOvr b).op = s.op := rfl
@[simp] theorem setOvr_leg (b : Bool) (s : State) : (s.setOvr b).leg = s.leg := rfl
@[simp] theorem setOvr_stop (b : Bool) (s : State) : (s.setOvr b).stop = s.stop := rfl
@[simp] theorem setOvr_idx (b : Bool) (s : State) : (s.setOvr b).idx = s.idx := rfl
@[simp] theorem setOvr_n (b : Bool) (s : State) : (s.setOvr b).n = s.n := rfl
@[simp] theorem setOvr_trace (b : Bool) (s : State) : (s.setOvr b).trace = s.trace := rfl
@[simp] theorem setOvr_phyEvent (b : Bool) (s : State) : (s.setOvr b).phyEvent = s.phyEvent := rfl
@[simp] theorem setOvr_inputs (b : Bool) (s : State) : (s.setOvr b).inputs = s.inputs := rfl
@[simp] theorem setOvr_hostReads (b : Bool) (s : State) : (s.setOvr b).hostReads = s.hostReads := rfl

/-! `setAddr` -/

@[simp] theorem setAddr_busy (a : Addr7) (s : State) : (s.setAddr a).busy = s.busy := rfl
@[simp] theorem setAddr_valid (a : Addr7) (s : State) : (s.setAddr a).valid = s.valid := rfl
@[simp] theorem setAddr_ovr (a : Addr7) (s : State) : (s.setAddr a).ovr = s.ovr := rfl
@[simp] theorem setAddr_held (a : Addr7) (s : State) : (s.setAddr a).held = s.held := rfl
@[simp] theorem setAddr_outcome (a : Addr7) (s : State) : (s.setAddr a).outcome = s.outcome := rfl
@[simp] theorem setAddr_addr (a : Addr7) (s : State) : (s.setAddr a).addr = a := rfl
@[simp] theorem setAddr_txlen (a : Addr7) (s : State) : (s.setAddr a).txlen = s.txlen := rfl
@[simp] theorem setAddr_rxcnt (a : Addr7) (s : State) : (s.setAddr a).rxcnt = s.rxcnt := rfl
@[simp] theorem setAddr_rxlen (a : Addr7) (s : State) : (s.setAddr a).rxlen = s.rxlen := rfl
@[simp] theorem setAddr_chkerr (a : Addr7) (s : State) : (s.setAddr a).chkerr = s.chkerr := rfl
@[simp] theorem setAddr_txbuf (a : Addr7) (s : State) : (s.setAddr a).txbuf = s.txbuf := rfl
@[simp] theorem setAddr_rxbuf (a : Addr7) (s : State) : (s.setAddr a).rxbuf = s.rxbuf := rfl
@[simp] theorem setAddr_ckhi (a : Addr7) (s : State) : (s.setAddr a).ckhi = s.ckhi := rfl
@[simp] theorem setAddr_cklo (a : Addr7) (s : State) : (s.setAddr a).cklo = s.cklo := rfl
@[simp] theorem setAddr_ckrcv (a : Addr7) (s : State) : (s.setAddr a).ckrcv = s.ckrcv := rfl
@[simp] theorem setAddr_phase (a : Addr7) (s : State) : (s.setAddr a).phase = s.phase := rfl
@[simp] theorem setAddr_cmd (a : Addr7) (s : State) : (s.setAddr a).cmd = s.cmd := rfl
@[simp] theorem setAddr_op (a : Addr7) (s : State) : (s.setAddr a).op = s.op := rfl
@[simp] theorem setAddr_leg (a : Addr7) (s : State) : (s.setAddr a).leg = s.leg := rfl
@[simp] theorem setAddr_stop (a : Addr7) (s : State) : (s.setAddr a).stop = s.stop := rfl
@[simp] theorem setAddr_idx (a : Addr7) (s : State) : (s.setAddr a).idx = s.idx := rfl
@[simp] theorem setAddr_n (a : Addr7) (s : State) : (s.setAddr a).n = s.n := rfl
@[simp] theorem setAddr_trace (a : Addr7) (s : State) : (s.setAddr a).trace = s.trace := rfl
@[simp] theorem setAddr_phyEvent (a : Addr7) (s : State) : (s.setAddr a).phyEvent = s.phyEvent := rfl
@[simp] theorem setAddr_inputs (a : Addr7) (s : State) : (s.setAddr a).inputs = s.inputs := rfl
@[simp] theorem setAddr_hostReads (a : Addr7) (s : State) : (s.setAddr a).hostReads = s.hostReads := rfl

/-! `setTxlen` -/

@[simp] theorem setTxlen_busy (v : Byte) (s : State) : (s.setTxlen v).busy = s.busy := rfl
@[simp] theorem setTxlen_valid (v : Byte) (s : State) : (s.setTxlen v).valid = s.valid := rfl
@[simp] theorem setTxlen_ovr (v : Byte) (s : State) : (s.setTxlen v).ovr = s.ovr := rfl
@[simp] theorem setTxlen_held (v : Byte) (s : State) : (s.setTxlen v).held = s.held := rfl
@[simp] theorem setTxlen_outcome (v : Byte) (s : State) : (s.setTxlen v).outcome = s.outcome := rfl
@[simp] theorem setTxlen_addr (v : Byte) (s : State) : (s.setTxlen v).addr = s.addr := rfl
@[simp] theorem setTxlen_txlen (v : Byte) (s : State) : (s.setTxlen v).txlen = v := rfl
@[simp] theorem setTxlen_rxcnt (v : Byte) (s : State) : (s.setTxlen v).rxcnt = s.rxcnt := rfl
@[simp] theorem setTxlen_rxlen (v : Byte) (s : State) : (s.setTxlen v).rxlen = s.rxlen := rfl
@[simp] theorem setTxlen_chkerr (v : Byte) (s : State) : (s.setTxlen v).chkerr = s.chkerr := rfl
@[simp] theorem setTxlen_txbuf (v : Byte) (s : State) : (s.setTxlen v).txbuf = s.txbuf := rfl
@[simp] theorem setTxlen_rxbuf (v : Byte) (s : State) : (s.setTxlen v).rxbuf = s.rxbuf := rfl
@[simp] theorem setTxlen_ckhi (v : Byte) (s : State) : (s.setTxlen v).ckhi = s.ckhi := rfl
@[simp] theorem setTxlen_cklo (v : Byte) (s : State) : (s.setTxlen v).cklo = s.cklo := rfl
@[simp] theorem setTxlen_ckrcv (v : Byte) (s : State) : (s.setTxlen v).ckrcv = s.ckrcv := rfl
@[simp] theorem setTxlen_phase (v : Byte) (s : State) : (s.setTxlen v).phase = s.phase := rfl
@[simp] theorem setTxlen_cmd (v : Byte) (s : State) : (s.setTxlen v).cmd = s.cmd := rfl
@[simp] theorem setTxlen_op (v : Byte) (s : State) : (s.setTxlen v).op = s.op := rfl
@[simp] theorem setTxlen_leg (v : Byte) (s : State) : (s.setTxlen v).leg = s.leg := rfl
@[simp] theorem setTxlen_stop (v : Byte) (s : State) : (s.setTxlen v).stop = s.stop := rfl
@[simp] theorem setTxlen_idx (v : Byte) (s : State) : (s.setTxlen v).idx = s.idx := rfl
@[simp] theorem setTxlen_n (v : Byte) (s : State) : (s.setTxlen v).n = s.n := rfl
@[simp] theorem setTxlen_trace (v : Byte) (s : State) : (s.setTxlen v).trace = s.trace := rfl
@[simp] theorem setTxlen_phyEvent (v : Byte) (s : State) : (s.setTxlen v).phyEvent = s.phyEvent := rfl
@[simp] theorem setTxlen_inputs (v : Byte) (s : State) : (s.setTxlen v).inputs = s.inputs := rfl
@[simp] theorem setTxlen_hostReads (v : Byte) (s : State) : (s.setTxlen v).hostReads = s.hostReads := rfl

/-! `setRxcnt` -/

@[simp] theorem setRxcnt_busy (v : Byte) (s : State) : (s.setRxcnt v).busy = s.busy := rfl
@[simp] theorem setRxcnt_valid (v : Byte) (s : State) : (s.setRxcnt v).valid = s.valid := rfl
@[simp] theorem setRxcnt_ovr (v : Byte) (s : State) : (s.setRxcnt v).ovr = s.ovr := rfl
@[simp] theorem setRxcnt_held (v : Byte) (s : State) : (s.setRxcnt v).held = s.held := rfl
@[simp] theorem setRxcnt_outcome (v : Byte) (s : State) : (s.setRxcnt v).outcome = s.outcome := rfl
@[simp] theorem setRxcnt_addr (v : Byte) (s : State) : (s.setRxcnt v).addr = s.addr := rfl
@[simp] theorem setRxcnt_txlen (v : Byte) (s : State) : (s.setRxcnt v).txlen = s.txlen := rfl
@[simp] theorem setRxcnt_rxcnt (v : Byte) (s : State) : (s.setRxcnt v).rxcnt = v := rfl
@[simp] theorem setRxcnt_rxlen (v : Byte) (s : State) : (s.setRxcnt v).rxlen = s.rxlen := rfl
@[simp] theorem setRxcnt_chkerr (v : Byte) (s : State) : (s.setRxcnt v).chkerr = s.chkerr := rfl
@[simp] theorem setRxcnt_txbuf (v : Byte) (s : State) : (s.setRxcnt v).txbuf = s.txbuf := rfl
@[simp] theorem setRxcnt_rxbuf (v : Byte) (s : State) : (s.setRxcnt v).rxbuf = s.rxbuf := rfl
@[simp] theorem setRxcnt_ckhi (v : Byte) (s : State) : (s.setRxcnt v).ckhi = s.ckhi := rfl
@[simp] theorem setRxcnt_cklo (v : Byte) (s : State) : (s.setRxcnt v).cklo = s.cklo := rfl
@[simp] theorem setRxcnt_ckrcv (v : Byte) (s : State) : (s.setRxcnt v).ckrcv = s.ckrcv := rfl
@[simp] theorem setRxcnt_phase (v : Byte) (s : State) : (s.setRxcnt v).phase = s.phase := rfl
@[simp] theorem setRxcnt_cmd (v : Byte) (s : State) : (s.setRxcnt v).cmd = s.cmd := rfl
@[simp] theorem setRxcnt_op (v : Byte) (s : State) : (s.setRxcnt v).op = s.op := rfl
@[simp] theorem setRxcnt_leg (v : Byte) (s : State) : (s.setRxcnt v).leg = s.leg := rfl
@[simp] theorem setRxcnt_stop (v : Byte) (s : State) : (s.setRxcnt v).stop = s.stop := rfl
@[simp] theorem setRxcnt_idx (v : Byte) (s : State) : (s.setRxcnt v).idx = s.idx := rfl
@[simp] theorem setRxcnt_n (v : Byte) (s : State) : (s.setRxcnt v).n = s.n := rfl
@[simp] theorem setRxcnt_trace (v : Byte) (s : State) : (s.setRxcnt v).trace = s.trace := rfl
@[simp] theorem setRxcnt_phyEvent (v : Byte) (s : State) : (s.setRxcnt v).phyEvent = s.phyEvent := rfl
@[simp] theorem setRxcnt_inputs (v : Byte) (s : State) : (s.setRxcnt v).inputs = s.inputs := rfl
@[simp] theorem setRxcnt_hostReads (v : Byte) (s : State) : (s.setRxcnt v).hostReads = s.hostReads := rfl

/-! `storeTx` -/

@[simp] theorem storeTx_busy (i : Nat) (v : Byte) (s : State) : (s.storeTx i v).busy = s.busy := rfl
@[simp] theorem storeTx_valid (i : Nat) (v : Byte) (s : State) : (s.storeTx i v).valid = s.valid := rfl
@[simp] theorem storeTx_ovr (i : Nat) (v : Byte) (s : State) : (s.storeTx i v).ovr = s.ovr := rfl
@[simp] theorem storeTx_held (i : Nat) (v : Byte) (s : State) : (s.storeTx i v).held = s.held := rfl
@[simp] theorem storeTx_outcome (i : Nat) (v : Byte) (s : State) : (s.storeTx i v).outcome = s.outcome := rfl
@[simp] theorem storeTx_addr (i : Nat) (v : Byte) (s : State) : (s.storeTx i v).addr = s.addr := rfl
@[simp] theorem storeTx_txlen (i : Nat) (v : Byte) (s : State) : (s.storeTx i v).txlen = s.txlen := rfl
@[simp] theorem storeTx_rxcnt (i : Nat) (v : Byte) (s : State) : (s.storeTx i v).rxcnt = s.rxcnt := rfl
@[simp] theorem storeTx_rxlen (i : Nat) (v : Byte) (s : State) : (s.storeTx i v).rxlen = s.rxlen := rfl
@[simp] theorem storeTx_chkerr (i : Nat) (v : Byte) (s : State) : (s.storeTx i v).chkerr = s.chkerr := rfl
@[simp] theorem storeTx_txbuf (i : Nat) (v : Byte) (s : State) : (s.storeTx i v).txbuf = bufSet s.txbuf i v := rfl
@[simp] theorem storeTx_rxbuf (i : Nat) (v : Byte) (s : State) : (s.storeTx i v).rxbuf = s.rxbuf := rfl
@[simp] theorem storeTx_ckhi (i : Nat) (v : Byte) (s : State) : (s.storeTx i v).ckhi = s.ckhi := rfl
@[simp] theorem storeTx_cklo (i : Nat) (v : Byte) (s : State) : (s.storeTx i v).cklo = s.cklo := rfl
@[simp] theorem storeTx_ckrcv (i : Nat) (v : Byte) (s : State) : (s.storeTx i v).ckrcv = s.ckrcv := rfl
@[simp] theorem storeTx_phase (i : Nat) (v : Byte) (s : State) : (s.storeTx i v).phase = s.phase := rfl
@[simp] theorem storeTx_cmd (i : Nat) (v : Byte) (s : State) : (s.storeTx i v).cmd = s.cmd := rfl
@[simp] theorem storeTx_op (i : Nat) (v : Byte) (s : State) : (s.storeTx i v).op = s.op := rfl
@[simp] theorem storeTx_leg (i : Nat) (v : Byte) (s : State) : (s.storeTx i v).leg = s.leg := rfl
@[simp] theorem storeTx_stop (i : Nat) (v : Byte) (s : State) : (s.storeTx i v).stop = s.stop := rfl
@[simp] theorem storeTx_idx (i : Nat) (v : Byte) (s : State) : (s.storeTx i v).idx = s.idx := rfl
@[simp] theorem storeTx_n (i : Nat) (v : Byte) (s : State) : (s.storeTx i v).n = s.n := rfl
@[simp] theorem storeTx_trace (i : Nat) (v : Byte) (s : State) : (s.storeTx i v).trace = s.trace := rfl
@[simp] theorem storeTx_phyEvent (i : Nat) (v : Byte) (s : State) : (s.storeTx i v).phyEvent = s.phyEvent := rfl
@[simp] theorem storeTx_inputs (i : Nat) (v : Byte) (s : State) : (s.storeTx i v).inputs = s.inputs := rfl
@[simp] theorem storeTx_hostReads (i : Nat) (v : Byte) (s : State) : (s.storeTx i v).hostReads = s.hostReads := rfl

/-! `setCkhi` -/

@[simp] theorem setCkhi_busy (v : Byte) (s : State) : (s.setCkhi v).busy = s.busy := rfl
@[simp] theorem setCkhi_valid (v : Byte) (s : State) : (s.setCkhi v).valid = s.valid := rfl
@[simp] theorem setCkhi_ovr (v : Byte) (s : State) : (s.setCkhi v).ovr = s.ovr := rfl
@[simp] theorem setCkhi_held (v : Byte) (s : State) : (s.setCkhi v).held = s.held := rfl
@[simp] theorem setCkhi_outcome (v : Byte) (s : State) : (s.setCkhi v).outcome = s.outcome := rfl
@[simp] theorem setCkhi_addr (v : Byte) (s : State) : (s.setCkhi v).addr = s.addr := rfl
@[simp] theorem setCkhi_txlen (v : Byte) (s : State) : (s.setCkhi v).txlen = s.txlen := rfl
@[simp] theorem setCkhi_rxcnt (v : Byte) (s : State) : (s.setCkhi v).rxcnt = s.rxcnt := rfl
@[simp] theorem setCkhi_rxlen (v : Byte) (s : State) : (s.setCkhi v).rxlen = s.rxlen := rfl
@[simp] theorem setCkhi_chkerr (v : Byte) (s : State) : (s.setCkhi v).chkerr = s.chkerr := rfl
@[simp] theorem setCkhi_txbuf (v : Byte) (s : State) : (s.setCkhi v).txbuf = s.txbuf := rfl
@[simp] theorem setCkhi_rxbuf (v : Byte) (s : State) : (s.setCkhi v).rxbuf = s.rxbuf := rfl
@[simp] theorem setCkhi_ckhi (v : Byte) (s : State) : (s.setCkhi v).ckhi = v := rfl
@[simp] theorem setCkhi_cklo (v : Byte) (s : State) : (s.setCkhi v).cklo = s.cklo := rfl
@[simp] theorem setCkhi_ckrcv (v : Byte) (s : State) : (s.setCkhi v).ckrcv = s.ckrcv := rfl
@[simp] theorem setCkhi_phase (v : Byte) (s : State) : (s.setCkhi v).phase = s.phase := rfl
@[simp] theorem setCkhi_cmd (v : Byte) (s : State) : (s.setCkhi v).cmd = s.cmd := rfl
@[simp] theorem setCkhi_op (v : Byte) (s : State) : (s.setCkhi v).op = s.op := rfl
@[simp] theorem setCkhi_leg (v : Byte) (s : State) : (s.setCkhi v).leg = s.leg := rfl
@[simp] theorem setCkhi_stop (v : Byte) (s : State) : (s.setCkhi v).stop = s.stop := rfl
@[simp] theorem setCkhi_idx (v : Byte) (s : State) : (s.setCkhi v).idx = s.idx := rfl
@[simp] theorem setCkhi_n (v : Byte) (s : State) : (s.setCkhi v).n = s.n := rfl
@[simp] theorem setCkhi_trace (v : Byte) (s : State) : (s.setCkhi v).trace = s.trace := rfl
@[simp] theorem setCkhi_phyEvent (v : Byte) (s : State) : (s.setCkhi v).phyEvent = s.phyEvent := rfl
@[simp] theorem setCkhi_inputs (v : Byte) (s : State) : (s.setCkhi v).inputs = s.inputs := rfl
@[simp] theorem setCkhi_hostReads (v : Byte) (s : State) : (s.setCkhi v).hostReads = s.hostReads := rfl

/-! `setCklo` -/

@[simp] theorem setCklo_busy (v : Byte) (s : State) : (s.setCklo v).busy = s.busy := rfl
@[simp] theorem setCklo_valid (v : Byte) (s : State) : (s.setCklo v).valid = s.valid := rfl
@[simp] theorem setCklo_ovr (v : Byte) (s : State) : (s.setCklo v).ovr = s.ovr := rfl
@[simp] theorem setCklo_held (v : Byte) (s : State) : (s.setCklo v).held = s.held := rfl
@[simp] theorem setCklo_outcome (v : Byte) (s : State) : (s.setCklo v).outcome = s.outcome := rfl
@[simp] theorem setCklo_addr (v : Byte) (s : State) : (s.setCklo v).addr = s.addr := rfl
@[simp] theorem setCklo_txlen (v : Byte) (s : State) : (s.setCklo v).txlen = s.txlen := rfl
@[simp] theorem setCklo_rxcnt (v : Byte) (s : State) : (s.setCklo v).rxcnt = s.rxcnt := rfl
@[simp] theorem setCklo_rxlen (v : Byte) (s : State) : (s.setCklo v).rxlen = s.rxlen := rfl
@[simp] theorem setCklo_chkerr (v : Byte) (s : State) : (s.setCklo v).chkerr = s.chkerr := rfl
@[simp] theorem setCklo_txbuf (v : Byte) (s : State) : (s.setCklo v).txbuf = s.txbuf := rfl
@[simp] theorem setCklo_rxbuf (v : Byte) (s : State) : (s.setCklo v).rxbuf = s.rxbuf := rfl
@[simp] theorem setCklo_ckhi (v : Byte) (s : State) : (s.setCklo v).ckhi = s.ckhi := rfl
@[simp] theorem setCklo_cklo (v : Byte) (s : State) : (s.setCklo v).cklo = v := rfl
@[simp] theorem setCklo_ckrcv (v : Byte) (s : State) : (s.setCklo v).ckrcv = s.ckrcv := rfl
@[simp] theorem setCklo_phase (v : Byte) (s : State) : (s.setCklo v).phase = s.phase := rfl
@[simp] theorem setCklo_cmd (v : Byte) (s : State) : (s.setCklo v).cmd = s.cmd := rfl
@[simp] theorem setCklo_op (v : Byte) (s : State) : (s.setCklo v).op = s.op := rfl
@[simp] theorem setCklo_leg (v : Byte) (s : State) : (s.setCklo v).leg = s.leg := rfl
@[simp] theorem setCklo_stop (v : Byte) (s : State) : (s.setCklo v).stop = s.stop := rfl
@[simp] theorem setCklo_idx (v : Byte) (s : State) : (s.setCklo v).idx = s.idx := rfl
@[simp] theorem setCklo_n (v : Byte) (s : State) : (s.setCklo v).n = s.n := rfl
@[simp] theorem setCklo_trace (v : Byte) (s : State) : (s.setCklo v).trace = s.trace := rfl
@[simp] theorem setCklo_phyEvent (v : Byte) (s : State) : (s.setCklo v).phyEvent = s.phyEvent := rfl
@[simp] theorem setCklo_inputs (v : Byte) (s : State) : (s.setCklo v).inputs = s.inputs := rfl
@[simp] theorem setCklo_hostReads (v : Byte) (s : State) : (s.setCklo v).hostReads = s.hostReads := rfl

/-! `setCkrcv` -/

@[simp] theorem setCkrcv_busy (v : Byte) (s : State) : (s.setCkrcv v).busy = s.busy := rfl
@[simp] theorem setCkrcv_valid (v : Byte) (s : State) : (s.setCkrcv v).valid = s.valid := rfl
@[simp] theorem setCkrcv_ovr (v : Byte) (s : State) : (s.setCkrcv v).ovr = s.ovr := rfl
@[simp] theorem setCkrcv_held (v : Byte) (s : State) : (s.setCkrcv v).held = s.held := rfl
@[simp] theorem setCkrcv_outcome (v : Byte) (s : State) : (s.setCkrcv v).outcome = s.outcome := rfl
@[simp] theorem setCkrcv_addr (v : Byte) (s : State) : (s.setCkrcv v).addr = s.addr := rfl
@[simp] theorem setCkrcv_txlen (v : Byte) (s : State) : (s.setCkrcv v).txlen = s.txlen := rfl
@[simp] theorem setCkrcv_rxcnt (v : Byte) (s : State) : (s.setCkrcv v).rxcnt = s.rxcnt := rfl
@[simp] theorem setCkrcv_rxlen (v : Byte) (s : State) : (s.setCkrcv v).rxlen = s.rxlen := rfl
@[simp] theorem setCkrcv_chkerr (v : Byte) (s : State) : (s.setCkrcv v).chkerr = s.chkerr := rfl
@[simp] theorem setCkrcv_txbuf (v : Byte) (s : State) : (s.setCkrcv v).txbuf = s.txbuf := rfl
@[simp] theorem setCkrcv_rxbuf (v : Byte) (s : State) : (s.setCkrcv v).rxbuf = s.rxbuf := rfl
@[simp] theorem setCkrcv_ckhi (v : Byte) (s : State) : (s.setCkrcv v).ckhi = s.ckhi := rfl
@[simp] theorem setCkrcv_cklo (v : Byte) (s : State) : (s.setCkrcv v).cklo = s.cklo := rfl
@[simp] theorem setCkrcv_ckrcv (v : Byte) (s : State) : (s.setCkrcv v).ckrcv = v := rfl
@[simp] theorem setCkrcv_phase (v : Byte) (s : State) : (s.setCkrcv v).phase = s.phase := rfl
@[simp] theorem setCkrcv_cmd (v : Byte) (s : State) : (s.setCkrcv v).cmd = s.cmd := rfl
@[simp] theorem setCkrcv_op (v : Byte) (s : State) : (s.setCkrcv v).op = s.op := rfl
@[simp] theorem setCkrcv_leg (v : Byte) (s : State) : (s.setCkrcv v).leg = s.leg := rfl
@[simp] theorem setCkrcv_stop (v : Byte) (s : State) : (s.setCkrcv v).stop = s.stop := rfl
@[simp] theorem setCkrcv_idx (v : Byte) (s : State) : (s.setCkrcv v).idx = s.idx := rfl
@[simp] theorem setCkrcv_n (v : Byte) (s : State) : (s.setCkrcv v).n = s.n := rfl
@[simp] theorem setCkrcv_trace (v : Byte) (s : State) : (s.setCkrcv v).trace = s.trace := rfl
@[simp] theorem setCkrcv_phyEvent (v : Byte) (s : State) : (s.setCkrcv v).phyEvent = s.phyEvent := rfl
@[simp] theorem setCkrcv_inputs (v : Byte) (s : State) : (s.setCkrcv v).inputs = s.inputs := rfl
@[simp] theorem setCkrcv_hostReads (v : Byte) (s : State) : (s.setCkrcv v).hostReads = s.hostReads := rfl

/-! `logRead` -/

@[simp] theorem logRead_busy (r : HostRead) (s : State) : (s.logRead r).busy = s.busy := rfl
@[simp] theorem logRead_valid (r : HostRead) (s : State) : (s.logRead r).valid = s.valid := rfl
@[simp] theorem logRead_ovr (r : HostRead) (s : State) : (s.logRead r).ovr = s.ovr := rfl
@[simp] theorem logRead_held (r : HostRead) (s : State) : (s.logRead r).held = s.held := rfl
@[simp] theorem logRead_outcome (r : HostRead) (s : State) : (s.logRead r).outcome = s.outcome := rfl
@[simp] theorem logRead_addr (r : HostRead) (s : State) : (s.logRead r).addr = s.addr := rfl
@[simp] theorem logRead_txlen (r : HostRead) (s : State) : (s.logRead r).txlen = s.txlen := rfl
@[simp] theorem logRead_rxcnt (r : HostRead) (s : State) : (s.logRead r).rxcnt = s.rxcnt := rfl
@[simp] theorem logRead_rxlen (r : HostRead) (s : State) : (s.logRead r).rxlen = s.rxlen := rfl
@[simp] theorem logRead_chkerr (r : HostRead) (s : State) : (s.logRead r).chkerr = s.chkerr := rfl
@[simp] theorem logRead_txbuf (r : HostRead) (s : State) : (s.logRead r).txbuf = s.txbuf := rfl
@[simp] theorem logRead_rxbuf (r : HostRead) (s : State) : (s.logRead r).rxbuf = s.rxbuf := rfl
@[simp] theorem logRead_ckhi (r : HostRead) (s : State) : (s.logRead r).ckhi = s.ckhi := rfl
@[simp] theorem logRead_cklo (r : HostRead) (s : State) : (s.logRead r).cklo = s.cklo := rfl
@[simp] theorem logRead_ckrcv (r : HostRead) (s : State) : (s.logRead r).ckrcv = s.ckrcv := rfl
@[simp] theorem logRead_phase (r : HostRead) (s : State) : (s.logRead r).phase = s.phase := rfl
@[simp] theorem logRead_cmd (r : HostRead) (s : State) : (s.logRead r).cmd = s.cmd := rfl
@[simp] theorem logRead_op (r : HostRead) (s : State) : (s.logRead r).op = s.op := rfl
@[simp] theorem logRead_leg (r : HostRead) (s : State) : (s.logRead r).leg = s.leg := rfl
@[simp] theorem logRead_stop (r : HostRead) (s : State) : (s.logRead r).stop = s.stop := rfl
@[simp] theorem logRead_idx (r : HostRead) (s : State) : (s.logRead r).idx = s.idx := rfl
@[simp] theorem logRead_n (r : HostRead) (s : State) : (s.logRead r).n = s.n := rfl
@[simp] theorem logRead_trace (r : HostRead) (s : State) : (s.logRead r).trace = s.trace := rfl
@[simp] theorem logRead_phyEvent (r : HostRead) (s : State) : (s.logRead r).phyEvent = s.phyEvent := rfl
@[simp] theorem logRead_inputs (r : HostRead) (s : State) : (s.logRead r).inputs = s.inputs := rfl
@[simp] theorem logRead_hostReads (r : HostRead) (s : State) : (s.logRead r).hostReads = s.hostReads ++ [r] := rfl

/-! `setLeg` -/

@[simp] theorem setLeg_busy (d : Leg) (b : Bool) (s : State) : (s.setLeg d b).busy = s.busy := rfl
@[simp] theorem setLeg_valid (d : Leg) (b : Bool) (s : State) : (s.setLeg d b).valid = s.valid := rfl
@[simp] theorem setLeg_ovr (d : Leg) (b : Bool) (s : State) : (s.setLeg d b).ovr = s.ovr := rfl
@[simp] theorem setLeg_held (d : Leg) (b : Bool) (s : State) : (s.setLeg d b).held = s.held := rfl
@[simp] theorem setLeg_outcome (d : Leg) (b : Bool) (s : State) : (s.setLeg d b).outcome = s.outcome := rfl
@[simp] theorem setLeg_addr (d : Leg) (b : Bool) (s : State) : (s.setLeg d b).addr = s.addr := rfl
@[simp] theorem setLeg_txlen (d : Leg) (b : Bool) (s : State) : (s.setLeg d b).txlen = s.txlen := rfl
@[simp] theorem setLeg_rxcnt (d : Leg) (b : Bool) (s : State) : (s.setLeg d b).rxcnt = s.rxcnt := rfl
@[simp] theorem setLeg_rxlen (d : Leg) (b : Bool) (s : State) : (s.setLeg d b).rxlen = s.rxlen := rfl
@[simp] theorem setLeg_chkerr (d : Leg) (b : Bool) (s : State) : (s.setLeg d b).chkerr = s.chkerr := rfl
@[simp] theorem setLeg_txbuf (d : Leg) (b : Bool) (s : State) : (s.setLeg d b).txbuf = s.txbuf := rfl
@[simp] theorem setLeg_rxbuf (d : Leg) (b : Bool) (s : State) : (s.setLeg d b).rxbuf = s.rxbuf := rfl
@[simp] theorem setLeg_ckhi (d : Leg) (b : Bool) (s : State) : (s.setLeg d b).ckhi = s.ckhi := rfl
@[simp] theorem setLeg_cklo (d : Leg) (b : Bool) (s : State) : (s.setLeg d b).cklo = s.cklo := rfl
@[simp] theorem setLeg_ckrcv (d : Leg) (b : Bool) (s : State) : (s.setLeg d b).ckrcv = s.ckrcv := rfl
@[simp] theorem setLeg_phase (d : Leg) (b : Bool) (s : State) : (s.setLeg d b).phase = s.phase := rfl
@[simp] theorem setLeg_cmd (d : Leg) (b : Bool) (s : State) : (s.setLeg d b).cmd = s.cmd := rfl
@[simp] theorem setLeg_op (d : Leg) (b : Bool) (s : State) : (s.setLeg d b).op = s.op := rfl
@[simp] theorem setLeg_leg (d : Leg) (b : Bool) (s : State) : (s.setLeg d b).leg = d := rfl
@[simp] theorem setLeg_stop (d : Leg) (b : Bool) (s : State) : (s.setLeg d b).stop = b := rfl
@[simp] theorem setLeg_idx (d : Leg) (b : Bool) (s : State) : (s.setLeg d b).idx = 0 := rfl
@[simp] theorem setLeg_n (d : Leg) (b : Bool) (s : State) : (s.setLeg d b).n = s.legCount d := rfl
@[simp] theorem setLeg_trace (d : Leg) (b : Bool) (s : State) : (s.setLeg d b).trace = s.trace := rfl
@[simp] theorem setLeg_phyEvent (d : Leg) (b : Bool) (s : State) : (s.setLeg d b).phyEvent = s.phyEvent := rfl
@[simp] theorem setLeg_inputs (d : Leg) (b : Bool) (s : State) : (s.setLeg d b).inputs = s.inputs := rfl
@[simp] theorem setLeg_hostReads (d : Leg) (b : Bool) (s : State) : (s.setLeg d b).hostReads = s.hostReads := rfl

/-! `beginLeg` -/

@[simp] theorem beginLeg_busy (d : Leg) (b : Bool) (s : State) : (s.beginLeg d b).busy = s.busy := rfl
@[simp] theorem beginLeg_valid (d : Leg) (b : Bool) (s : State) : (s.beginLeg d b).valid = s.valid := rfl
@[simp] theorem beginLeg_ovr (d : Leg) (b : Bool) (s : State) : (s.beginLeg d b).ovr = s.ovr := rfl
@[simp] theorem beginLeg_held (d : Leg) (b : Bool) (s : State) : (s.beginLeg d b).held = s.held := rfl
@[simp] theorem beginLeg_outcome (d : Leg) (b : Bool) (s : State) : (s.beginLeg d b).outcome = s.outcome := rfl
@[simp] theorem beginLeg_addr (d : Leg) (b : Bool) (s : State) : (s.beginLeg d b).addr = s.addr := rfl
@[simp] theorem beginLeg_txlen (d : Leg) (b : Bool) (s : State) : (s.beginLeg d b).txlen = s.txlen := rfl
@[simp] theorem beginLeg_rxcnt (d : Leg) (b : Bool) (s : State) : (s.beginLeg d b).rxcnt = s.rxcnt := rfl
@[simp] theorem beginLeg_rxlen (d : Leg) (b : Bool) (s : State) : (s.beginLeg d b).rxlen = s.rxlen := rfl
@[simp] theorem beginLeg_chkerr (d : Leg) (b : Bool) (s : State) : (s.beginLeg d b).chkerr = s.chkerr := rfl
@[simp] theorem beginLeg_txbuf (d : Leg) (b : Bool) (s : State) : (s.beginLeg d b).txbuf = s.txbuf := rfl
@[simp] theorem beginLeg_rxbuf (d : Leg) (b : Bool) (s : State) : (s.beginLeg d b).rxbuf = s.rxbuf := rfl
@[simp] theorem beginLeg_ckhi (d : Leg) (b : Bool) (s : State) : (s.beginLeg d b).ckhi = s.ckhi := rfl
@[simp] theorem beginLeg_cklo (d : Leg) (b : Bool) (s : State) : (s.beginLeg d b).cklo = s.cklo := rfl
@[simp] theorem beginLeg_ckrcv (d : Leg) (b : Bool) (s : State) : (s.beginLeg d b).ckrcv = s.ckrcv := rfl
@[simp] theorem beginLeg_phase (d : Leg) (b : Bool) (s : State) : (s.beginLeg d b).phase = .start := rfl
@[simp] theorem beginLeg_cmd (d : Leg) (b : Bool) (s : State) : (s.beginLeg d b).cmd = s.cmd := rfl
@[simp] theorem beginLeg_op (d : Leg) (b : Bool) (s : State) : (s.beginLeg d b).op = s.op := rfl
@[simp] theorem beginLeg_leg (d : Leg) (b : Bool) (s : State) : (s.beginLeg d b).leg = d := rfl
@[simp] theorem beginLeg_stop (d : Leg) (b : Bool) (s : State) : (s.beginLeg d b).stop = b := rfl
@[simp] theorem beginLeg_idx (d : Leg) (b : Bool) (s : State) : (s.beginLeg d b).idx = 0 := rfl
@[simp] theorem beginLeg_n (d : Leg) (b : Bool) (s : State) : (s.beginLeg d b).n = s.legCount d := rfl
@[simp] theorem beginLeg_trace (d : Leg) (b : Bool) (s : State) : (s.beginLeg d b).trace = s.trace ++ [.action .start] := rfl
@[simp] theorem beginLeg_phyEvent (d : Leg) (b : Bool) (s : State) : (s.beginLeg d b).phyEvent = s.phyEvent := rfl
@[simp] theorem beginLeg_inputs (d : Leg) (b : Bool) (s : State) : (s.beginLeg d b).inputs = s.inputs := rfl
@[simp] theorem beginLeg_hostReads (d : Leg) (b : Bool) (s : State) : (s.beginLeg d b).hostReads = s.hostReads := rfl

/-! `nextIndex` -/

@[simp] theorem nextIndex_busy (s : State) : (s.nextIndex).busy = s.busy := rfl
@[simp] theorem nextIndex_valid (s : State) : (s.nextIndex).valid = s.valid := rfl
@[simp] theorem nextIndex_ovr (s : State) : (s.nextIndex).ovr = s.ovr := rfl
@[simp] theorem nextIndex_held (s : State) : (s.nextIndex).held = s.held := rfl
@[simp] theorem nextIndex_outcome (s : State) : (s.nextIndex).outcome = s.outcome := rfl
@[simp] theorem nextIndex_addr (s : State) : (s.nextIndex).addr = s.addr := rfl
@[simp] theorem nextIndex_txlen (s : State) : (s.nextIndex).txlen = s.txlen := rfl
@[simp] theorem nextIndex_rxcnt (s : State) : (s.nextIndex).rxcnt = s.rxcnt := rfl
@[simp] theorem nextIndex_rxlen (s : State) : (s.nextIndex).rxlen = s.rxlen := rfl
@[simp] theorem nextIndex_chkerr (s : State) : (s.nextIndex).chkerr = s.chkerr := rfl
@[simp] theorem nextIndex_txbuf (s : State) : (s.nextIndex).txbuf = s.txbuf := rfl
@[simp] theorem nextIndex_rxbuf (s : State) : (s.nextIndex).rxbuf = s.rxbuf := rfl
@[simp] theorem nextIndex_ckhi (s : State) : (s.nextIndex).ckhi = s.ckhi := rfl
@[simp] theorem nextIndex_cklo (s : State) : (s.nextIndex).cklo = s.cklo := rfl
@[simp] theorem nextIndex_ckrcv (s : State) : (s.nextIndex).ckrcv = s.ckrcv := rfl
@[simp] theorem nextIndex_phase (s : State) : (s.nextIndex).phase = s.phase := rfl
@[simp] theorem nextIndex_cmd (s : State) : (s.nextIndex).cmd = s.cmd := rfl
@[simp] theorem nextIndex_op (s : State) : (s.nextIndex).op = s.op := rfl
@[simp] theorem nextIndex_leg (s : State) : (s.nextIndex).leg = s.leg := rfl
@[simp] theorem nextIndex_stop (s : State) : (s.nextIndex).stop = s.stop := rfl
@[simp] theorem nextIndex_idx (s : State) : (s.nextIndex).idx = s.idx + 1 := rfl
@[simp] theorem nextIndex_n (s : State) : (s.nextIndex).n = s.n := rfl
@[simp] theorem nextIndex_trace (s : State) : (s.nextIndex).trace = s.trace := rfl
@[simp] theorem nextIndex_phyEvent (s : State) : (s.nextIndex).phyEvent = s.phyEvent := rfl
@[simp] theorem nextIndex_inputs (s : State) : (s.nextIndex).inputs = s.inputs := rfl
@[simp] theorem nextIndex_hostReads (s : State) : (s.nextIndex).hostReads = s.hostReads := rfl

/-! `storeRx` -/

@[simp] theorem storeRx_busy (d : Byte) (s : State) : (s.storeRx d).busy = s.busy := rfl
@[simp] theorem storeRx_valid (d : Byte) (s : State) : (s.storeRx d).valid = s.valid := rfl
@[simp] theorem storeRx_ovr (d : Byte) (s : State) : (s.storeRx d).ovr = s.ovr := rfl
@[simp] theorem storeRx_held (d : Byte) (s : State) : (s.storeRx d).held = s.held := rfl
@[simp] theorem storeRx_outcome (d : Byte) (s : State) : (s.storeRx d).outcome = s.outcome := rfl
@[simp] theorem storeRx_addr (d : Byte) (s : State) : (s.storeRx d).addr = s.addr := rfl
@[simp] theorem storeRx_txlen (d : Byte) (s : State) : (s.storeRx d).txlen = s.txlen := rfl
@[simp] theorem storeRx_rxcnt (d : Byte) (s : State) : (s.storeRx d).rxcnt = s.rxcnt := rfl
@[simp] theorem storeRx_rxlen (d : Byte) (s : State) : (s.storeRx d).rxlen = s.rxlen := rfl
@[simp] theorem storeRx_chkerr (d : Byte) (s : State) : (s.storeRx d).chkerr = s.chkerr := rfl
@[simp] theorem storeRx_txbuf (d : Byte) (s : State) : (s.storeRx d).txbuf = s.txbuf := rfl
@[simp] theorem storeRx_rxbuf (d : Byte) (s : State) : (s.storeRx d).rxbuf = bufSet s.rxbuf s.idx d := rfl
@[simp] theorem storeRx_ckhi (d : Byte) (s : State) : (s.storeRx d).ckhi = s.ckhi := rfl
@[simp] theorem storeRx_cklo (d : Byte) (s : State) : (s.storeRx d).cklo = s.cklo := rfl
@[simp] theorem storeRx_ckrcv (d : Byte) (s : State) : (s.storeRx d).ckrcv = s.ckrcv := rfl
@[simp] theorem storeRx_phase (d : Byte) (s : State) : (s.storeRx d).phase = s.phase := rfl
@[simp] theorem storeRx_cmd (d : Byte) (s : State) : (s.storeRx d).cmd = s.cmd := rfl
@[simp] theorem storeRx_op (d : Byte) (s : State) : (s.storeRx d).op = s.op := rfl
@[simp] theorem storeRx_leg (d : Byte) (s : State) : (s.storeRx d).leg = s.leg := rfl
@[simp] theorem storeRx_stop (d : Byte) (s : State) : (s.storeRx d).stop = s.stop := rfl
@[simp] theorem storeRx_idx (d : Byte) (s : State) : (s.storeRx d).idx = s.idx := rfl
@[simp] theorem storeRx_n (d : Byte) (s : State) : (s.storeRx d).n = s.n := rfl
@[simp] theorem storeRx_trace (d : Byte) (s : State) : (s.storeRx d).trace = s.trace ++ [.rx d] := rfl
@[simp] theorem storeRx_phyEvent (d : Byte) (s : State) : (s.storeRx d).phyEvent = s.phyEvent := rfl
@[simp] theorem storeRx_inputs (d : Byte) (s : State) : (s.storeRx d).inputs = s.inputs := rfl
@[simp] theorem storeRx_hostReads (d : Byte) (s : State) : (s.storeRx d).hostReads = s.hostReads := rfl

/-! `sendAddress` -/

@[simp] theorem sendAddress_busy (s : State) : (s.sendAddress).busy = s.busy := rfl
@[simp] theorem sendAddress_valid (s : State) : (s.sendAddress).valid = s.valid := rfl
@[simp] theorem sendAddress_ovr (s : State) : (s.sendAddress).ovr = s.ovr := rfl
@[simp] theorem sendAddress_held (s : State) : (s.sendAddress).held = true := rfl
@[simp] theorem sendAddress_outcome (s : State) : (s.sendAddress).outcome = s.outcome := rfl
@[simp] theorem sendAddress_addr (s : State) : (s.sendAddress).addr = s.addr := rfl
@[simp] theorem sendAddress_txlen (s : State) : (s.sendAddress).txlen = s.txlen := rfl
@[simp] theorem sendAddress_rxcnt (s : State) : (s.sendAddress).rxcnt = s.rxcnt := rfl
@[simp] theorem sendAddress_rxlen (s : State) : (s.sendAddress).rxlen = s.rxlen := rfl
@[simp] theorem sendAddress_chkerr (s : State) : (s.sendAddress).chkerr = s.chkerr := rfl
@[simp] theorem sendAddress_txbuf (s : State) : (s.sendAddress).txbuf = s.txbuf := rfl
@[simp] theorem sendAddress_rxbuf (s : State) : (s.sendAddress).rxbuf = s.rxbuf := rfl
@[simp] theorem sendAddress_ckhi (s : State) : (s.sendAddress).ckhi = s.ckhi := rfl
@[simp] theorem sendAddress_cklo (s : State) : (s.sendAddress).cklo = s.cklo := rfl
@[simp] theorem sendAddress_ckrcv (s : State) : (s.sendAddress).ckrcv = s.ckrcv := rfl
@[simp] theorem sendAddress_phase (s : State) : (s.sendAddress).phase = .addr := rfl
@[simp] theorem sendAddress_cmd (s : State) : (s.sendAddress).cmd = s.cmd := rfl
@[simp] theorem sendAddress_op (s : State) : (s.sendAddress).op = s.op := rfl
@[simp] theorem sendAddress_leg (s : State) : (s.sendAddress).leg = s.leg := rfl
@[simp] theorem sendAddress_stop (s : State) : (s.sendAddress).stop = s.stop := rfl
@[simp] theorem sendAddress_idx (s : State) : (s.sendAddress).idx = s.idx := rfl
@[simp] theorem sendAddress_n (s : State) : (s.sendAddress).n = s.n := rfl
@[simp] theorem sendAddress_trace (s : State) : (s.sendAddress).trace = s.trace ++ [.action (.send (addrByte s.addr s.leg.dir))] := rfl
@[simp] theorem sendAddress_phyEvent (s : State) : (s.sendAddress).phyEvent = s.phyEvent := rfl
@[simp] theorem sendAddress_inputs (s : State) : (s.sendAddress).inputs = s.inputs := rfl
@[simp] theorem sendAddress_hostReads (s : State) : (s.sendAddress).hostReads = s.hostReads := rfl

/-! `applyReset` -/

@[simp] theorem applyReset_busy (s : State) : (applyReset s).busy = reset.busy := rfl
@[simp] theorem applyReset_valid (s : State) : (applyReset s).valid = reset.valid := rfl
@[simp] theorem applyReset_ovr (s : State) : (applyReset s).ovr = reset.ovr := rfl
@[simp] theorem applyReset_held (s : State) : (applyReset s).held = reset.held := rfl
@[simp] theorem applyReset_outcome (s : State) : (applyReset s).outcome = reset.outcome := rfl
@[simp] theorem applyReset_addr (s : State) : (applyReset s).addr = reset.addr := rfl
@[simp] theorem applyReset_txlen (s : State) : (applyReset s).txlen = reset.txlen := rfl
@[simp] theorem applyReset_rxcnt (s : State) : (applyReset s).rxcnt = reset.rxcnt := rfl
@[simp] theorem applyReset_rxlen (s : State) : (applyReset s).rxlen = reset.rxlen := rfl
@[simp] theorem applyReset_chkerr (s : State) : (applyReset s).chkerr = reset.chkerr := rfl
@[simp] theorem applyReset_txbuf (s : State) : (applyReset s).txbuf = reset.txbuf := rfl
@[simp] theorem applyReset_rxbuf (s : State) : (applyReset s).rxbuf = reset.rxbuf := rfl
@[simp] theorem applyReset_ckhi (s : State) : (applyReset s).ckhi = reset.ckhi := rfl
@[simp] theorem applyReset_cklo (s : State) : (applyReset s).cklo = reset.cklo := rfl
@[simp] theorem applyReset_ckrcv (s : State) : (applyReset s).ckrcv = reset.ckrcv := rfl
@[simp] theorem applyReset_phase (s : State) : (applyReset s).phase = reset.phase := rfl
@[simp] theorem applyReset_cmd (s : State) : (applyReset s).cmd = reset.cmd := rfl
@[simp] theorem applyReset_op (s : State) : (applyReset s).op = reset.op := rfl
@[simp] theorem applyReset_leg (s : State) : (applyReset s).leg = reset.leg := rfl
@[simp] theorem applyReset_stop (s : State) : (applyReset s).stop = reset.stop := rfl
@[simp] theorem applyReset_idx (s : State) : (applyReset s).idx = reset.idx := rfl
@[simp] theorem applyReset_n (s : State) : (applyReset s).n = reset.n := rfl
@[simp] theorem applyReset_trace (s : State) : (applyReset s).trace = reset.trace := rfl
@[simp] theorem applyReset_phyEvent (s : State) : (applyReset s).phyEvent = reset.phyEvent := rfl
@[simp] theorem applyReset_inputs (s : State) : (applyReset s).inputs = s.inputs := rfl
@[simp] theorem applyReset_hostReads (s : State) : (applyReset s).hostReads = s.hostReads := rfl

/-! `legCount` sees only the two count registers. -/

@[simp] theorem legCount_w (s : State) : s.legCount .w = s.txlen.toNat := rfl
@[simp] theorem legCount_r (s : State) : s.legCount .r = s.rxcnt.toNat := rfl

end Sys2Proof.Machine.State
end

