-- ==== Sys2Proof/Laws/Operands.lean ====
section
/-! SUPPORT. Laws of the operand forms: buffer bytes, window offsets, the STATUS byte, verdicts. -/

namespace Sys2Proof.Machine

/-! Buffers. -/

@[simp] theorem bufGet_bufZero (i : Nat) : bufGet bufZero i = 0x00#8 := by
  simp [bufGet, bufZero]

theorem bufGet_bufSet (b : Buffer) (i j : Nat) (v : Byte) (hj : j < 8) :
    bufGet (bufSet b i v) j = if i = j then v else bufGet b j := by
  simp [bufGet, bufSet, hj, Vector.getElem_setIfInBounds]

theorem bufGet_bufSet_same (b : Buffer) (i : Nat) (v : Byte) (h : i < 8) :
    bufGet (bufSet b i v) i = v := by simp [bufGet_bufSet b i i v h]

theorem bufGet_bufSet_ne (b : Buffer) {i j : Nat} (v : Byte) (h : i ≠ j) :
    bufGet (bufSet b i v) j = bufGet b j := by
  by_cases hj : j < 8
  · simp [bufGet_bufSet b i j v hj, h]
  · simp [bufGet, hj]

/-- Two buffers with the same eight bytes are equal. -/
theorem buffer_ext {a b : Buffer} (h : ∀ i < 8, bufGet a i = bufGet b i) : a = b := by
  apply Vector.ext
  intro i hi
  have := h i hi
  simpa [bufGet, hi] using this

theorem bufGet_rxImage (ds : List Byte) (i : Nat) (h : i < 8) :
    bufGet (rxImage ds) i = ds.getD i 0x00#8 := by
  simp [bufGet, rxImage, h]

/-! The window. -/

theorem offset_ofOffset (off : Offset) : (Reg.ofOffset off).offset = off := by
  revert off; decide

@[simp] theorem ofOffset_offset (r : Reg) : Reg.ofOffset r.offset = r := by
  cases r with
  | txbuf i => revert i; decide
  | rxbuf i => revert i; decide
  | reserved i => revert i; decide
  | _ => rfl

/-- An offset of the window is routed to itself, wherever the window lies. -/
@[simp] theorem routeOffset_base (off : Offset) :
    routeOffset (Config.regBase + off.toNat) = some off := by
  have h := off.isLt
  have hspan : Config.regSpan = 32 := rfl
  have hin : Config.regBase ≤ Config.regBase + off.toNat ∧
      Config.regBase + off.toNat < Config.regBase + Config.regSpan := by omega
  simp only [routeOffset, if_pos hin, Option.some.injEq]
  simp

theorem routeOffset_outside {a : Nat}
    (h : a < Config.regBase ∨ Config.regBase + Config.regSpan ≤ a) : routeOffset a = none := by
  have hout : ¬ (Config.regBase ≤ a ∧ a < Config.regBase + Config.regSpan) := by omega
  simp [routeOffset, hout]

/-! Verdicts: a bus fault, and any status of the class OTHER, is never expected and never an
acknowledgment failure. -/

@[simp] theorem startVerdict_busFault : startVerdict .busFault = .busError := rfl
@[simp] theorem addrWVerdict_busFault : addrWVerdict .busFault = .busError := rfl
@[simp] theorem addrRVerdict_busFault : addrRVerdict .busFault = .busError := rfl
@[simp] theorem txVerdict_busFault : txVerdict .busFault = .busError := rfl
@[simp] theorem rxAckVerdict_busFault (last : Bool) : rxAckVerdict last .busFault = .busError := by
  cases last <;> rfl
@[simp] theorem rxAckVerdict_other (last : Bool) : rxAckVerdict last .other = .busError := by
  cases last <;> rfl
@[simp] theorem rxAckVerdict_expected (last : Bool) :
    rxAckVerdict last (expectedHandshake last) = .proceed := by cases last <;> rfl

theorem countOk_iff (c : Byte) : countOk c = true ↔ c.toNat ≤ 8 := by
  exact decide_eq_true_iff

end Sys2Proof.Machine
end

