-- ==== Sys2Proof/Laws/Ops.lean ====
section
/-! SUPPORT. One spec lemma for each shared operation of the engine, and the inversion lemmas of an
event step, a command's step and a host access: what each can answer. Later proofs cite these. -/

namespace Sys2Proof.Machine

namespace State

/-! Failing and finishing (40_bus R136, R132). -/

theorem fail_write {s : State} (o : CommandOutcome) (h : s.leg = .w) : s.fail o = s.complete o := by
  simp [fail, h]

theorem fail_read {s : State} (o : CommandOutcome) (h : s.leg = .r) :
    s.fail o = s.clearRx.complete o := by simp [fail, h]

theorem finish_write {s : State} (h : s.leg = .w) : s.finish = s.complete .success := by
  simp [finish, h]

theorem finish_read {s : State} (h : s.leg = .r) :
    s.finish = (s.setRxlen (BitVec.ofNat 8 s.n)).complete .success := by simp [finish, h]

/-- A failing command writes its outcome and, in a read leg, clears the receive state; nothing else. -/
theorem fail_cases (o : CommandOutcome) (s : State) :
    (s.leg = .w ∧ s.fail o = s.complete o) ∨ (s.leg = .r ∧ s.fail o = s.clearRx.complete o) := by
  cases h : s.leg
  · exact .inl ⟨rfl, fail_write o h⟩
  · exact .inr ⟨rfl, fail_read o h⟩

/-- The end of a successful command: a read leg declares its bytes valid. -/
theorem finish_cases (s : State) :
    (s.leg = .w ∧ s.finish = s.complete .success) ∨
    (s.leg = .r ∧ s.finish = (s.setRxlen (BitVec.ofNat 8 s.n)).complete .success) := by
  cases h : s.leg
  · exact .inl ⟨rfl, finish_write h⟩
  · exact .inr ⟨rfl, finish_read h⟩

/-! The end of a leg (40_bus R130, R132; 41_composite R161). -/

theorem legDone_chain {s : State} (ho : s.op = .wtr) (hl : s.leg = .w) :
    s.legDone = s.beginLeg .r true := by simp [legDone, ho, hl]

theorem legDone_finish {s : State} (h : ¬ (s.op = .wtr ∧ s.leg = .w)) : s.legDone = s.finish := by
  simp [legDone, h]

theorem endLeg_stop {s : State} (h : s.stop = true) : s.endLeg = (s.issue .stop).goto .stop := by
  simp [endLeg, h]

theorem endLeg_noStop {s : State} (h : s.stop = false) : s.endLeg = s.legDone := by
  simp [endLeg, h]

/-- A leg that is done waits for its stop, begins the read leg, or ends the command. -/
theorem endLeg_cases (s : State) :
    (s.stop = true ∧ s.endLeg = (s.issue .stop).goto .stop) ∨
    (s.stop = false ∧ s.op = .wtr ∧ s.leg = .w ∧ s.endLeg = s.beginLeg .r true) ∨
    (s.stop = false ∧ ¬ (s.op = .wtr ∧ s.leg = .w) ∧ s.endLeg = s.finish) := by
  cases hs : s.stop
  · by_cases h : s.op = .wtr ∧ s.leg = .w
    · exact .inr (.inl ⟨rfl, h.1, h.2, by rw [endLeg_noStop hs, legDone_chain h.1 h.2]⟩)
    · exact .inr (.inr ⟨rfl, h, by rw [endLeg_noStop hs, legDone_finish h]⟩)
  · exact .inl ⟨rfl, endLeg_stop hs⟩

theorem txNext_more {s : State} (h : s.idx < s.n) :
    s.txNext = (s.issue (.send (bufGet s.txbuf s.idx))).goto .txData := by simp [txNext, h]

theorem txNext_done {s : State} (h : ¬ s.idx < s.n) : s.txNext = s.endLeg := by simp [txNext, h]

theorem rxNext_more {s : State} (h : s.idx < s.n) : s.rxNext = s.goto .rxByte := by
  simp [rxNext, h]

theorem rxNext_done {s : State} (h : ¬ s.idx < s.n) : s.rxNext = s.endLeg := by simp [rxNext, h]

theorem beginReceive_zero {s : State} (h : s.n = 0) :
    s.beginReceive = (s.issue .nack0).endLeg := by simp [beginReceive, h]

theorem beginReceive_bytes {s : State} (h : s.n ≠ 0) : s.beginReceive = s.goto .rxByte := by
  simp [beginReceive, h]

/-! Verdicts (60_exceptions R213). -/

@[simp] theorem judge_proceed (f : State → State) (s : State) : s.judge .proceed f = f s := rfl
@[simp] theorem judge_ackError (f : State → State) (s : State) :
    s.judge .ackError f = s.fail .ackError := rfl
@[simp] theorem judge_busError (f : State → State) (s : State) :
    s.judge .busError f = s.fail .busError := rfl

/-- A verdict goes on, or fails with one of the two bus outcomes. -/
theorem judge_cases (v : Verdict) (f : State → State) (s : State) :
    (v = .proceed ∧ s.judge v f = f s) ∨
    (v = .ackError ∧ s.judge v f = s.fail .ackError) ∨
    (v = .busError ∧ s.judge v f = s.fail .busError) := by cases v <;> simp

end State

/-- What an event step can do: the phase's own operation on an event of the kind it expects. -/
theorem onEvent_cases {e : PhyEvent} {s t : State} (h : onEvent e s = .next t) :
    (∃ st, s.phase = .start ∧ e = .done st ∧ t = s.onStart st) ∨
    (∃ st, s.phase = .addr ∧ e = .done st ∧ t = s.onAddr st) ∨
    (∃ st, s.phase = .txData ∧ e = .done st ∧ t = s.onTxData st) ∨
    (∃ d, s.phase = .rxByte ∧ e = .byte d ∧ t = s.onRxByte d) ∨
    (∃ st, s.phase = .rxAck ∧ e = .done st ∧ t = s.onRxAck st) ∨
    (s.phase = .stop ∧ e = .stopDone ∧ t = s.onStopDone) := by
  cases hp : s.phase <;> cases e <;> simp_all [onEvent]

/-- The command's own case of the decode step (40_bus R121). -/
def decodeCase : Instr → State → State
  | .transmit stop => decodeTransmit stop
  | .receive stop => decodeReceive stop
  | .writeThenRead _ => decodeWriteThenRead
  | .verify _ => verifyWith Config.checkFn
  | .reservedOp0 _ | .reservedOp5 _ | .reservedOp6 _ | .reservedOp7 _ => decodeReserved
  | .reservedBit7 _ | .reservedBit6 _ | .reservedBit5 _ | .reservedBit4 _ => decodeReserved

/-- Every command's meaning is the shared command step over its own decode case. -/
theorem exec_eq (i : Instr) (s : State) : exec i s = commandStep i (decodeCase i) s := by
  cases i <;> rfl

theorem exec_idle {i : Instr} {s : State} (h : s.phase = .idle) :
    exec i s = .next (s.accept (encodeByte i)) := by simp [exec_eq, commandStep, h]

theorem exec_decode {i : Instr} {s : State} (h : s.phase = .decode) :
    exec i s = .next (decodeCase i (s.latchOp i.op)) := by simp [exec_eq, commandStep, h]

theorem exec_waiting {i : Instr} {s : State} (h : s.Waiting) : exec i s = eventStep s := by
  rw [exec_eq]
  cases hp : s.phase <;> simp_all [commandStep, State.Waiting, Phase.waiting]

/-- In a waiting phase with an event on the port, a command's step is the event's. -/
theorem exec_event {i : Instr} {s : State} {e : PhyEvent} (h : s.Waiting) (he : s.phyEvent = some e) :
    exec i s = onEvent e s.takeEvent := by
  rw [exec_waiting h]; simp [eventStep, he]

/-- What a command's step can do. -/
theorem exec_cases {i : Instr} {s t : State} (h : exec i s = .next t) :
    (s.phase = .idle ∧ t = s.accept (encodeByte i)) ∨
    (s.phase = .decode ∧ t = decodeCase i (s.latchOp i.op)) ∨
    (s.Waiting ∧ s.phyEvent = none ∧ t = s) ∨
    (s.Waiting ∧ ∃ e, s.phyEvent = some e ∧ onEvent e s.takeEvent = .next t) := by
  by_cases hw : s.Waiting
  · rw [exec_waiting hw, eventStep] at h
    split at h
    · next he => cases h; exact .inr (.inr (.inl ⟨hw, he, rfl⟩))
    · next e he => exact .inr (.inr (.inr ⟨hw, e, he, h⟩))
  · cases hp : s.phase <;> simp [State.Waiting, Phase.waiting, hp] at hw ⊢
    · rw [exec_idle hp] at h; cases h; rfl
    · rw [exec_decode hp] at h; cases h; rfl

/-- What a host access can do: read a register, or write one. -/
theorem hostAccess_cases {a : HostAccess} {s t : State} (h : hostAccess a s = .next t) :
    a.width = 8 ∧ ∃ off, routeOffset a.addr = some off ∧
      ((a.op = .read ∧ t = hostRead off s) ∨ ∃ v, a.op = .write v ∧ t = memWrite off v s) := by
  rw [hostAccess] at h
  split at h
  · next hw =>
    refine ⟨hw, ?_⟩
    split at h
    · cases h
    · next off ho =>
      refine ⟨off, ho, ?_⟩
      split at h
      · next hr => cases h; exact .inl ⟨hr, rfl⟩
      · next v hv => cases h; exact .inr ⟨v, hv, rfl⟩
  · cases h

/-- A write is dropped while BUSY, and done while not (20_memory R63, R64). -/
theorem writeWhenIdle_busy {w : State → State} {s : State} (h : s.busy = true) :
    writeWhenIdle w s = s.drop := by simp [writeWhenIdle, h]

theorem writeWhenIdle_idle {w : State → State} {s : State} (h : s.busy = false) :
    writeWhenIdle w s = w s := by simp [writeWhenIdle, h]

end Sys2Proof.Machine
end

