-- ==== Sys2Proof/Laws/Host.lean ====
section
/-! SUPPORT. What a host write leaves unchanged, one lemma a field: always, and while BUSY (20_memory
R63, R64); and what a host read leaves unchanged (R62). -/

namespace Sys2Proof.Machine

@[simp] theorem memWrite_valid (off : Offset) (v : Byte) (s : State) :
    (memWrite off v s).valid = s.valid := by
  unfold memWrite
  cases Reg.ofOffset off <;> simp only [writeReg, writeWhenIdle] <;> (try split) <;> rfl

@[simp] theorem memWrite_held (off : Offset) (v : Byte) (s : State) :
    (memWrite off v s).held = s.held := by
  unfold memWrite
  cases Reg.ofOffset off <;> simp only [writeReg, writeWhenIdle] <;> (try split) <;> rfl

@[simp] theorem memWrite_outcome (off : Offset) (v : Byte) (s : State) :
    (memWrite off v s).outcome = s.outcome := by
  unfold memWrite
  cases Reg.ofOffset off <;> simp only [writeReg, writeWhenIdle] <;> (try split) <;> rfl

@[simp] theorem memWrite_rxlen (off : Offset) (v : Byte) (s : State) :
    (memWrite off v s).rxlen = s.rxlen := by
  unfold memWrite
  cases Reg.ofOffset off <;> simp only [writeReg, writeWhenIdle] <;> (try split) <;> rfl

@[simp] theorem memWrite_chkerr (off : Offset) (v : Byte) (s : State) :
    (memWrite off v s).chkerr = s.chkerr := by
  unfold memWrite
  cases Reg.ofOffset off <;> simp only [writeReg, writeWhenIdle] <;> (try split) <;> rfl

@[simp] theorem memWrite_rxbuf (off : Offset) (v : Byte) (s : State) :
    (memWrite off v s).rxbuf = s.rxbuf := by
  unfold memWrite
  cases Reg.ofOffset off <;> simp only [writeReg, writeWhenIdle] <;> (try split) <;> rfl

@[simp] theorem memWrite_op (off : Offset) (v : Byte) (s : State) :
    (memWrite off v s).op = s.op := by
  unfold memWrite
  cases Reg.ofOffset off <;> simp only [writeReg, writeWhenIdle] <;> (try split) <;> rfl

@[simp] theorem memWrite_leg (off : Offset) (v : Byte) (s : State) :
    (memWrite off v s).leg = s.leg := by
  unfold memWrite
  cases Reg.ofOffset off <;> simp only [writeReg, writeWhenIdle] <;> (try split) <;> rfl

@[simp] theorem memWrite_stop (off : Offset) (v : Byte) (s : State) :
    (memWrite off v s).stop = s.stop := by
  unfold memWrite
  cases Reg.ofOffset off <;> simp only [writeReg, writeWhenIdle] <;> (try split) <;> rfl

@[simp] theorem memWrite_idx (off : Offset) (v : Byte) (s : State) :
    (memWrite off v s).idx = s.idx := by
  unfold memWrite
  cases Reg.ofOffset off <;> simp only [writeReg, writeWhenIdle] <;> (try split) <;> rfl

@[simp] theorem memWrite_n (off : Offset) (v : Byte) (s : State) :
    (memWrite off v s).n = s.n := by
  unfold memWrite
  cases Reg.ofOffset off <;> simp only [writeReg, writeWhenIdle] <;> (try split) <;> rfl

@[simp] theorem memWrite_trace (off : Offset) (v : Byte) (s : State) :
    (memWrite off v s).trace = s.trace := by
  unfold memWrite
  cases Reg.ofOffset off <;> simp only [writeReg, writeWhenIdle] <;> (try split) <;> rfl

@[simp] theorem memWrite_phyEvent (off : Offset) (v : Byte) (s : State) :
    (memWrite off v s).phyEvent = s.phyEvent := by
  unfold memWrite
  cases Reg.ofOffset off <;> simp only [writeReg, writeWhenIdle] <;> (try split) <;> rfl

@[simp] theorem memWrite_inputs (off : Offset) (v : Byte) (s : State) :
    (memWrite off v s).inputs = s.inputs := by
  unfold memWrite
  cases Reg.ofOffset off <;> simp only [writeReg, writeWhenIdle] <;> (try split) <;> rfl

@[simp] theorem memWrite_hostReads (off : Offset) (v : Byte) (s : State) :
    (memWrite off v s).hostReads = s.hostReads := by
  unfold memWrite
  cases Reg.ofOffset off <;> simp only [writeReg, writeWhenIdle] <;> (try split) <;> rfl

theorem memWrite_busy_busy (off : Offset) (v : Byte) {s : State} (h : s.busy = true) :
    (memWrite off v s).busy = s.busy := by
  unfold memWrite
  cases Reg.ofOffset off <;> simp only [writeReg, writeWhenIdle, h, if_true] <;> first | rfl | exact h

theorem memWrite_phase_busy (off : Offset) (v : Byte) {s : State} (h : s.busy = true) :
    (memWrite off v s).phase = s.phase := by
  unfold memWrite
  cases Reg.ofOffset off <;> simp only [writeReg, writeWhenIdle, h, if_true] <;> rfl

theorem memWrite_cmd_busy (off : Offset) (v : Byte) {s : State} (h : s.busy = true) :
    (memWrite off v s).cmd = s.cmd := by
  unfold memWrite
  cases Reg.ofOffset off <;> simp only [writeReg, writeWhenIdle, h, if_true] <;> rfl

theorem memWrite_addr_busy (off : Offset) (v : Byte) {s : State} (h : s.busy = true) :
    (memWrite off v s).addr = s.addr := by
  unfold memWrite
  cases Reg.ofOffset off <;> simp only [writeReg, writeWhenIdle, h, if_true] <;> rfl

theorem memWrite_txlen_busy (off : Offset) (v : Byte) {s : State} (h : s.busy = true) :
    (memWrite off v s).txlen = s.txlen := by
  unfold memWrite
  cases Reg.ofOffset off <;> simp only [writeReg, writeWhenIdle, h, if_true] <;> rfl

theorem memWrite_rxcnt_busy (off : Offset) (v : Byte) {s : State} (h : s.busy = true) :
    (memWrite off v s).rxcnt = s.rxcnt := by
  unfold memWrite
  cases Reg.ofOffset off <;> simp only [writeReg, writeWhenIdle, h, if_true] <;> rfl

theorem memWrite_txbuf_busy (off : Offset) (v : Byte) {s : State} (h : s.busy = true) :
    (memWrite off v s).txbuf = s.txbuf := by
  unfold memWrite
  cases Reg.ofOffset off <;> simp only [writeReg, writeWhenIdle, h, if_true] <;> rfl

/-- A read changes nothing but the host's own record. -/
theorem hostRead_eq (off : Offset) (s : State) :
    hostRead off s = s.logRead ⟨off, memRead off s⟩ := rfl

end Sys2Proof.Machine
end

