-- ==== Sys2Proof/Laws/Step.lean ====
section
/-! SUPPORT. What one step can do, said once: each claim about every step splits on `step_cases`. -/

namespace Sys2Proof.Machine

/-! The kinds of turn, one by one. -/

theorem step_turn {s : State} {u : Turn} {rest : List Turn} (h : s.inputs = u :: rest) :
    step s = takeTurn u (s.setInputs rest) := by simp [step, h]

theorem step_noTurn {s : State} (h : s.inputs = []) : step s = engineTurn s := by simp [step, h]

theorem engineTurn_decode {s : State} (h : s.phase = .decode) :
    engineTurn s = exec (fetchCommand s) s := by simp [engineTurn, h]

theorem engineTurn_other {s : State} (h : s.phase ≠ .decode) : engineTurn s = .next s := by
  cases hp : s.phase <;> simp_all [engineTurn]

theorem phyTurn_waiting {s : State} (e : PhyEvent) (h : s.Waiting) :
    phyTurn e s = exec (fetchCommand s) (s.presentEvent e) := by
  cases hp : s.phase <;> simp_all [phyTurn, State.Waiting, Phase.waiting]

/-- In a waiting phase, an event's turn is the event's own step. -/
theorem phyTurn_event {s : State} (e : PhyEvent) (h : s.Waiting) :
    phyTurn e s = onEvent e s.takeEvent := by
  rw [phyTurn_waiting e h]
  exact exec_event (s := s.presentEvent e) h rfl

theorem phyTurn_refused {s : State} (e : PhyEvent) (h : ¬ s.Waiting) :
    phyTurn e s = .refused .phyContract := by
  cases hp : s.phase <;> simp_all [phyTurn, State.Waiting, Phase.waiting]

/-- A byte access to an offset of the window, wherever the window lies. -/
theorem takeTurn_write (off : Offset) (v : Byte) (s : State) :
    takeTurn (.host ⟨Config.regBase + off.toNat, 8, .write v⟩) s = .next (memWrite off v s) := by
  simp [takeTurn, hostAccess]

theorem takeTurn_read (off : Offset) (s : State) :
    takeTurn (.host ⟨Config.regBase + off.toNat, 8, .read⟩) s = .next (hostRead off s) := by
  simp [takeTurn, hostAccess]

/-- `wr REG, v` and `rd REG` (30_encoding R102). -/
theorem takeTurn_wr (r : Reg) (v : Byte) (s : State) :
    takeTurn (HostProgram.wr r v) s = .next (writeReg r v s) := by
  rw [HostProgram.wr, takeTurn_write, memWrite, ofOffset_offset]

theorem takeTurn_rd (r : Reg) (s : State) :
    takeTurn (HostProgram.rd r) s = .next (hostRead r.offset s) := by
  rw [HostProgram.rd, takeTurn_read]

/-! What each turn can do. -/

theorem engineTurn_cases {s t : State} (h : engineTurn s = .next t) :
    (s.phase = .decode ∧ t = decodeCase (fetchCommand s) (s.latchOp (fetchCommand s).op)) ∨
    (s.phase ≠ .decode ∧ t = s) := by
  rw [engineTurn] at h
  split at h
  · next hp => rw [exec_decode hp] at h; cases h; exact .inl ⟨hp, rfl⟩
  all_goals (next hp => cases h; exact .inr ⟨by simp [hp], rfl⟩)

theorem phyTurn_cases {e : PhyEvent} {s t : State} (h : phyTurn e s = .next t) :
    s.Waiting ∧ onEvent e s.takeEvent = .next t := by
  by_cases hw : s.Waiting
  · exact ⟨hw, by rw [← phyTurn_event e hw]; exact h⟩
  · rw [phyTurn_refused e hw] at h; cases h

/-- The kinds of step that take turn `t` from state `s`, the turn already taken off `inputs`. -/
theorem takeTurn_cases {u : Turn} {s t : State} (h : takeTurn u s = .next t) :
    (u = .engine ∧ engineTurn s = .next t) ∨
    (∃ e, (u = .phy e ∨ ∃ c, u = .phyCode c ∧ e = .done (Config.phyStatusClass c)) ∧
      phyTurn e s = .next t) ∨
    (∃ a, u = .host a ∧ hostAccess a s = .next t) ∨
    (u = .reset ∧ t = applyReset s) := by
  cases u with
  | engine => exact .inl ⟨rfl, h⟩
  | phy e => exact .inr (.inl ⟨e, .inl rfl, h⟩)
  | phyCode c => exact .inr (.inl ⟨_, .inr ⟨c, rfl, rfl⟩, h⟩)
  | host a => exact .inr (.inr (.inl ⟨a, rfl, h⟩))
  | reset => simp only [takeTurn, Host.Outcome.next.injEq] at h; exact .inr (.inr (.inr ⟨rfl, h.symm⟩))

/-- Everything one step can do (00_scope R9, 70_reset R240). In each case the turn, if there was one,
is off the list: the state acted on is `(s.setInputs rest)`. -/
theorem step_cases {s t : State} (h : step s = .next t) :
    ∃ rest, (s.inputs = [] ∧ rest = [] ∨ ∃ u, s.inputs = u :: rest) ∧
    ((s.phase = .decode ∧ t = decodeCase (fetchCommand s)
        ((s.setInputs rest).latchOp (fetchCommand s).op)) ∨
     (s.phase ≠ .decode ∧ t = (s.setInputs rest)) ∨
     (s.Waiting ∧ ∃ e, onEvent e (s.setInputs rest).takeEvent = .next t) ∨
     (∃ a, s.inputs = .host a :: rest ∧ hostAccess a (s.setInputs rest) = .next t) ∨
     (s.inputs = .reset :: rest ∧ t = applyReset (s.setInputs rest))) := by
  rw [step] at h
  split at h
  · next hi =>
    have hs : s.setInputs [] = s := by rw [← hi]; rfl
    refine ⟨[], .inl ⟨hi, rfl⟩, ?_⟩
    rcases engineTurn_cases h with ⟨hp, ht⟩ | ⟨hp, ht⟩
    · refine .inl ⟨hp, ?_⟩
      rw [hs]; exact ht
    · exact .inr (.inl ⟨hp, by rw [ht, hs]⟩)
  · next u rest hi =>
    refine ⟨rest, .inr ⟨u, hi⟩, ?_⟩
    rcases takeTurn_cases h with ⟨-, h⟩ | ⟨e, -, h⟩ | ⟨a, rfl, h⟩ | ⟨rfl, ht⟩
    · rcases engineTurn_cases h with ⟨hp, ht⟩ | ⟨hp, ht⟩
      · exact .inl ⟨hp, ht⟩
      · exact .inr (.inl ⟨hp, ht⟩)
    · obtain ⟨hw, h⟩ := phyTurn_cases h
      exact .inr (.inr (.inl ⟨hw, e, h⟩))
    · exact .inr (.inr (.inr (.inl ⟨a, hi, h⟩)))
    · exact .inr (.inr (.inr (.inr ⟨hi, ht⟩)))

/-! Runs. -/

@[simp] theorem run_zero (s : State) : Host.Core.run Sys2Proof.core 0 s = .next s := rfl

/-- Any machine's run goes on from the state its first step answers. -/
theorem coreRun_next (M : Host.Core) {k : Nat} {s t : M.State} (h : M.step s = .next t) :
    M.run (k + 1) s = M.run k t := by rw [Host.Core.run, h]

/-- A run goes on from the state its first step answers. -/
theorem run_next {k : Nat} {s t : State} (h : step s = .next t) :
    Host.Core.run Sys2Proof.core (k + 1) s = Host.Core.run Sys2Proof.core k t :=
  coreRun_next Sys2Proof.core h

end Sys2Proof.Machine
end

