-- ==== Sys2Proof/Laws/Frame.lean ====
section
/-! SUPPORT. What an engine step never changes: the operand registers, the checker, OVR, CHKERR, the
accepted byte and the operation, and what is outside the block. One lemma for each operation. -/

namespace Sys2Proof.Machine

/-- The parts of the state no event step of the engine writes (20_memory R64, R76; 10_state R32, R35). -/
structure EngineFrame (s t : State) : Prop where
  addr : t.addr = s.addr
  txlen : t.txlen = s.txlen
  rxcnt : t.rxcnt = s.rxcnt
  txbuf : t.txbuf = s.txbuf
  ckhi : t.ckhi = s.ckhi
  cklo : t.cklo = s.cklo
  ckrcv : t.ckrcv = s.ckrcv
  ovr : t.ovr = s.ovr
  chkerr : t.chkerr = s.chkerr
  cmd : t.cmd = s.cmd
  op : t.op = s.op
  phyEvent : t.phyEvent = s.phyEvent
  inputs : t.inputs = s.inputs
  hostReads : t.hostReads = s.hostReads

namespace EngineFrame

theorem refl (s : State) : EngineFrame s s :=
  ⟨rfl, rfl, rfl, rfl, rfl, rfl, rfl, rfl, rfl, rfl, rfl, rfl, rfl, rfl⟩

theorem trans {s t u : State} (h : EngineFrame s t) (h' : EngineFrame t u) : EngineFrame s u :=
  ⟨h'.addr.trans h.addr, h'.txlen.trans h.txlen, h'.rxcnt.trans h.rxcnt, h'.txbuf.trans h.txbuf,
    h'.ckhi.trans h.ckhi, h'.cklo.trans h.cklo, h'.ckrcv.trans h.ckrcv, h'.ovr.trans h.ovr,
    h'.chkerr.trans h.chkerr, h'.cmd.trans h.cmd, h'.op.trans h.op, h'.phyEvent.trans h.phyEvent,
    h'.inputs.trans h.inputs, h'.hostReads.trans h.hostReads⟩

theorem issue (a : PhyAction) (s : State) : EngineFrame s (s.issue a) := by constructor <;> rfl
theorem goto (p : Phase) (s : State) : EngineFrame s (s.goto p) := by constructor <;> rfl
theorem clearRx (s : State) : EngineFrame s s.clearRx := by constructor <;> rfl
theorem nextIndex (s : State) : EngineFrame s s.nextIndex := by constructor <;> rfl
theorem setHeld (b : Bool) (s : State) : EngineFrame s (s.setHeld b) := by constructor <;> rfl
theorem setRxlen (v : Byte) (s : State) : EngineFrame s (s.setRxlen v) := by constructor <;> rfl
theorem sendAddress (s : State) : EngineFrame s s.sendAddress := by constructor <;> rfl
theorem onRxByte (d : Byte) (s : State) : EngineFrame s (s.onRxByte d) := by constructor <;> rfl
theorem complete (o : CommandOutcome) (s : State) : EngineFrame s (s.complete o) := by constructor <;> rfl
theorem beginLeg (d : Leg) (b : Bool) (s : State) : EngineFrame s (s.beginLeg d b) := by constructor <;> rfl

theorem fail (o : CommandOutcome) (s : State) : EngineFrame s (s.fail o) := by
  obtain ⟨-, h⟩ | ⟨-, h⟩ := State.fail_cases o s <;> rw [h]
  · exact complete o s
  · exact (clearRx s).trans (complete o _)

theorem finish (s : State) : EngineFrame s s.finish := by
  obtain ⟨-, h⟩ | ⟨-, h⟩ := State.finish_cases s <;> rw [h]
  · exact complete _ s
  · exact (setRxlen _ s).trans (complete _ _)

theorem endLeg (s : State) : EngineFrame s s.endLeg := by
  obtain ⟨-, h⟩ | ⟨-, -, -, h⟩ | ⟨-, -, h⟩ := State.endLeg_cases s <;> rw [h]
  · exact (issue _ s).trans (goto _ _)
  · exact beginLeg _ _ s
  · exact finish s

theorem legDone (s : State) : EngineFrame s s.legDone := by
  unfold State.legDone; split
  · exact beginLeg _ _ s
  · exact finish s

theorem txNext (s : State) : EngineFrame s s.txNext := by
  unfold State.txNext; split
  · exact (issue _ s).trans (goto _ _)
  · exact endLeg s

theorem rxNext (s : State) : EngineFrame s s.rxNext := by
  unfold State.rxNext; split
  · exact goto _ s
  · exact endLeg s

theorem beginReceive (s : State) : EngineFrame s s.beginReceive := by
  unfold State.beginReceive; split
  · exact (issue _ s).trans (endLeg _)
  · exact goto _ s

theorem judge (v : Verdict) (f : State → State) (s : State) (h : EngineFrame s (f s)) :
    EngineFrame s (s.judge v f) := by
  cases v
  · exact h
  · exact fail _ s
  · exact fail _ s

/-- An event step keeps the frame. -/
theorem onEvent {e : PhyEvent} {s t : State} (h : Machine.onEvent e s = .next t) :
    EngineFrame s t := by
  obtain ⟨st, -, -, rfl⟩ | ⟨st, -, -, rfl⟩ | ⟨st, -, -, rfl⟩ | ⟨d, -, -, rfl⟩ | ⟨st, -, -, rfl⟩ |
    ⟨-, -, rfl⟩ := onEvent_cases h
  · exact judge _ _ s (sendAddress s)
  · unfold State.onAddr; split
    · exact judge _ _ s (txNext s)
    · exact judge _ _ s (beginReceive s)
  · exact judge _ _ s ((nextIndex s).trans (txNext _))
  · exact onRxByte d s
  · exact judge _ _ s ((nextIndex s).trans (rxNext _))
  · exact (setHeld false s).trans (legDone _)

end EngineFrame

/-- What the decode step of any command keeps: all of the frame but CHKERR, which VERIFY writes. -/
theorem decodeCase_frame (i : Instr) (s : State) :
    EngineFrame (s.setChkerr (decodeCase i s).chkerr) (decodeCase i s) := by
  cases i with
  | transmit b => simp only [decodeCase, decodeTransmit]; split <;> (constructor <;> rfl)
  | receive b => simp only [decodeCase, decodeReceive]; split <;> (constructor <;> rfl)
  | writeThenRead x => simp only [decodeCase, decodeWriteThenRead]; split <;> (constructor <;> rfl)
  | verify x =>
    simp only [decodeCase, verifyWith, verdictOfMask]
    split
    · (constructor <;> rfl)
    · split
      · (constructor <;> rfl)
      · split <;> (constructor <;> rfl)
  | _ => (constructor <;> rfl)

/-- Only VERIFY's decode step writes CHKERR (10_state R32). -/
theorem decodeCase_chkerr {i : Instr} (h : i.op ≠ .verify) (s : State) :
    (decodeCase i s).chkerr = s.chkerr := by
  cases i with
  | transmit b => simp only [decodeCase, decodeTransmit]; split <;> rfl
  | receive b => simp only [decodeCase, decodeReceive]; split <;> rfl
  | writeThenRead x => simp only [decodeCase, decodeWriteThenRead]; split <;> rfl
  | verify x => exact absurd rfl h
  | _ => rfl

end Sys2Proof.Machine
end

