-- ==== Sys2Proof/Laws/PerInstr.lean ====
section
/-! SUPPORT. Statements made for every command, one lemma a constructor. OpAgrees: the operation the
engine latches from the encoded byte (30_encoding R95) is the command's own (R92). -/

namespace Sys2Proof.Laws.OpAgrees

/-- What the family says of a command. -/
def Statement (i : Instr) : Prop := decodeOp (encodeByte i) = i.op

theorem transmit (stop : Bool) : Statement (.transmit stop) := by cases stop <;> rfl
theorem receive (stop : Bool) : Statement (.receive stop) := by cases stop <;> rfl
theorem writeThenRead (x : Bool) : Statement (.writeThenRead x) := by cases x <;> rfl
theorem verify (x : Bool) : Statement (.verify x) := by cases x <;> rfl
theorem reservedOp0 (x : Bool) : Statement (.reservedOp0 x) := by cases x <;> rfl
theorem reservedOp5 (x : Bool) : Statement (.reservedOp5 x) := by cases x <;> rfl
theorem reservedOp6 (x : Bool) : Statement (.reservedOp6 x) := by cases x <;> rfl
theorem reservedOp7 (x : Bool) : Statement (.reservedOp7 x) := by cases x <;> rfl
theorem reservedBit7 (low : BitVec 7) : Statement (.reservedBit7 low) := by
  unfold Statement; revert low; decide
theorem reservedBit6 (low : BitVec 6) : Statement (.reservedBit6 low) := by
  unfold Statement; revert low; decide
theorem reservedBit5 (low : BitVec 5) : Statement (.reservedBit5 low) := by
  unfold Statement; revert low; decide
theorem reservedBit4 (low : BitVec 4) : Statement (.reservedBit4 low) := by
  unfold Statement; revert low; decide

end Sys2Proof.Laws.OpAgrees
end

