-- ==== Sys2Proof/Tests/Slice0.lean ====
section
/-! SUPPORT. Tests of the model, and for each obligation with hypotheses a witness that meets them. The
expected values of the tests are worked from spec/95_test_vectors (the vector is named) or from the
encodings of 30_encoding. -/

open Sys2Proof Sys2Proof.Machine

namespace Sys2Proof.Tests

/-! ## Small states -/

/-- The two statuses or outcomes of a run, without the reasons of a stop. -/
def isNext (o : Host.Outcome State Fault Refusal) (p : State → Bool) : Bool :=
  match o with
  | .next s => p s
  | .fault _ | .refused _ => false

/-- S0 of 95_test_vectors, 0: reset, then ADDR = 0x44. -/
def s0 : State := { State.reset with addr := 0x44#7 }

/-- A command just accepted, both counts `n`. -/
def decoding (c : Byte) (n : Nat) : State :=
  { s0 with
    cmd := c, busy := true, phase := .decode, txlen := BitVec.ofNat 8 n, rxcnt := BitVec.ofNat 8 n }

/-- A command `c` in the middle of a leg of `n` bytes at index `k`. -/
def inLeg (c : Byte) (leg : Leg) (stop : Bool) (p : Phase) (k n : Nat) : State :=
  { decoding c n with
    phase := p, op := decodeOp c, leg := leg, stop := stop, idx := k, n := n, held := p != .start
    txbuf := Vector.ofFn (fun i : Fin 8 => BitVec.ofNat 8 (0xA0 + i.val)) }

/-- The same, with an event on the PHY port. -/
def onPort (s : State) (e : PhyEvent) : State := { s with phyEvent := some e }

/-- The same, with the turns to come. -/
def withTurns (s : State) (l : List Turn) : State := { s with inputs := l }

/-! ## WellFormed: each check refuses an ill-formed term -/

theorem test_wf_accepts_command : Instr.wf (.reservedBit7 0x7F#7) = true := by decide
theorem test_wf_refuses_wide_access : HostAccess.widthOk ⟨0, 16, .read⟩ = false := by decide
theorem test_wf_refuses_access_above_window :
    HostAccess.inWindow ⟨Config.regBase + 32, 8, .read⟩ = false := by
  simp [HostAccess.inWindow, Config.regSpan]
theorem test_wf_accepts_last_offset :
    HostAccess.wf ⟨Config.regBase + 31, 8, .read⟩ = true := by
  simp [HostAccess.wf, HostAccess.widthOk, HostAccess.inWindow, Config.regSpan]
theorem test_wf_refuses_event_in_idle : PhyEvent.fits (.done .startSent) .idle = false := by decide
theorem test_wf_refuses_byte_in_start : PhyEvent.fits (.byte 0x55#8) .start = false := by decide
theorem test_wf_refuses_status_in_stop : PhyEvent.fits (.done .txAck) .stop = false := by decide
theorem test_wf_refuses_stopDone_in_rxByte : PhyEvent.fits .stopDone .rxByte = false := by decide
theorem test_wf_refuses_turn : Turn.wf (.phy .stopDone) .decode = false := by decide

/-! ## Decoding: every row's word written out bit by bit from 30_encoding R91 to R94 -/

theorem test_decode_transmit :
    decode [0b00000001#8] = .ok (.transmit false, []) ∧
    decode [0b00001001#8] = .ok (.transmit true, []) := by decide
theorem test_decode_receive :
    decode [0b00000010#8] = .ok (.receive false, []) ∧
    decode [0b00001010#8] = .ok (.receive true, []) := by decide
theorem test_decode_writeThenRead :
    decode [0b00000011#8] = .ok (.writeThenRead false, []) ∧
    decode [0b00001011#8] = .ok (.writeThenRead true, []) := by decide
theorem test_decode_verify :
    decode [0b00000100#8] = .ok (.verify false, []) ∧
    decode [0b00001100#8] = .ok (.verify true, []) := by decide
theorem test_decode_reservedOps :
    decode [0b00000000#8] = .ok (.reservedOp0 false, []) ∧
    decode [0b00001101#8] = .ok (.reservedOp5 true, []) ∧
    decode [0b00000110#8] = .ok (.reservedOp6 false, []) ∧
    decode [0b00001111#8] = .ok (.reservedOp7 true, []) := by decide
theorem test_decode_reservedHigh :
    decode [0b10000001#8] = .ok (.reservedBit7 0b0000001#7, []) ∧
    decode [0b01000010#8] = .ok (.reservedBit6 0b000010#6, []) ∧
    decode [0b00100011#8] = .ok (.reservedBit5 0b00011#5, []) ∧
    decode [0b00010001#8] = .ok (.reservedBit4 0b0001#4, []) := by decide
theorem test_decode_noByte : decode [] = .error .noByte := by decide
theorem test_decode_table_word :
    decodeTableWord 8 0x09 = some (.transmit true) ∧ decodeTableWord 16 0x09 = none ∧
    decodeTableWord 8 0x109 = none := by decide

/-! ## Operands, flags and checks -/

/-- 95, 2.3. -/
theorem test_address_byte :
    addrByte 0x44#7 false = 0x88#8 ∧ addrByte 0x44#7 true = 0x89#8 ∧
    addrByte 0x7F#7 false = 0xFE#8 ∧ addrByte 0x7F#7 true = 0xFF#8 := by decide

/-- 95, 2.3: `wr ADDR, 0xC4` reads back 0x44. -/
theorem test_addr_bit7_dropped : memRead 0x03#5 (memWrite 0x03#5 0xC4#8 s0) = 0x44#8 := by decide

/-- 95, 2.1: the published check value, a zero check byte, and all ones. -/
theorem test_crc_values :
    crc8_31_FF 0xBEEF#16 = 0x92#8 ∧ crc8_31_FF 0xFF00#16 = 0x00#8 ∧
    crc8_31_FF 0xFFFF#16 = 0xAC#8 := by simp [crc8_31_FF, crcByte, crcBit, hiByte, loByte]

/-- 95, 2.1. -/
theorem test_crc_parallel_values :
    crc8Parallel 0x1234#16 = 0x37#8 ∧ crc8Parallel 0x008F#16 = 0xD5#8 := by decide

/-- 95, 2.1. -/
theorem test_xor8_values : xor8 0xBEEF#16 = 0x51#8 ∧ xor8 0x6666#16 = 0x00#8 := by decide

/-- 10_state R22: HELD in bit 3, OVR in bit 2, VALID in bit 1, BUSY in bit 0. -/
theorem test_status_byte :
    statusByte { s0 with held := true, valid := true } = 0x0A#8 ∧
    statusByte { s0 with ovr := true, busy := true } = 0x05#8 := by decide

/-! ## The commands, one step each -/

/-- 95, T2, first engine step: START goes out, and the phase is START. -/
theorem test_transmit_begins :
    isNext (step (decoding 0x01#8 2)) (fun t =>
      t.phase == .start && t.trace == [.action .start] && t.leg == .w && !t.stop && t.n == 2) := by
  decide

/-- 95, T10: a count of 9 is PARAM_ERROR (code 6), STATUS 0x02 and no bus action. -/
theorem test_transmit_count_nine :
    isNext (step (decoding 0x09#8 9)) (fun t =>
      memRead 0x02#5 t == 0x06#8 && memRead 0x01#5 t == 0x02#8 && t.trace == []) := by decide

/-- 95, T8: the NACK of the last byte is ACK_ERROR (code 4), and the bus stays held. -/
theorem test_transmit_last_nack :
    isNext (exec (.transmit true) (onPort (inLeg 0x09#8 .w true .txData 1 2) (.done .txNack)))
      (fun t => memRead 0x02#5 t == 0x04#8 && memRead 0x01#5 t == 0x0A#8 && t.trace == []) := by decide

/-- 95, T13: the wrong direction's acknowledgment is BUS_ERROR (code 5). -/
theorem test_transmit_wrong_direction :
    isNext (exec (.transmit true) (onPort (inLeg 0x09#8 .w true .addr 0 1) (.done .addrRAck)))
      (fun t => memRead 0x02#5 t == 0x05#8 && t.held) := by decide

/-- 95, RX3: a zero count drives NACK0 and then STOP in the address step. -/
theorem test_receive_zero_count :
    isNext (exec (.receive true) (onPort (inLeg 0x0A#8 .r true .addr 0 0) (.done .addrRAck)))
      (fun t => t.trace == [.action .nack0, .action .stop] && t.phase == .stop && t.busy) := by decide

/-- 95, RX7: the last byte expects RX_NACK_SENT; RX_ACK_SENT is ACK_ERROR and the bytes are dropped. -/
theorem test_receive_last_handshake :
    isNext (exec (.receive true)
        (onPort { inLeg 0x0A#8 .r true .rxAck 2 3 with rxbuf := Vector.replicate 8 0x77#8 }
          (.done .rxAckSent)))
      (fun t => memRead 0x02#5 t == 0x04#8 && memRead 0x10#5 t == 0x00#8 && t.rxlen == 0x00#8) := by
  decide

/-- 95, WT1: after the last byte of the write leg a START follows with no STOP. -/
theorem test_wtr_chains :
    isNext (exec (.writeThenRead false) (onPort (inLeg 0x03#8 .w false .txData 1 2) (.done .txAck)))
      (fun t => t.trace == [.action .start] && t.leg == .r && t.stop && t.n == 2 && t.idx == 0) := by
  decide

/-- 95, WT9: a read count of 9 is refused at decode. -/
theorem test_wtr_read_count :
    isNext (step { decoding 0x03#8 9 with txlen := 0x02#8 })
      (fun t => memRead 0x02#5 t == 0x06#8 && t.trace == []) := by decide

set_option maxRecDepth 8000 in
/-- 95, V2: group 1 is bad under the CRC; CHKERR 0x02, and the received data is cleared. -/
theorem test_verify_bad_group :
    (fun t : State => t.outcome == .checksumError && t.chkerr == 0x02#8 && t.rxlen == 0x00#8 &&
        bufGet t.rxbuf 0 == 0x00#8)
      (verifyWith crc8_31_FF { decoding 0x04#8 0 with
        rxlen := 0x06#8, rxbuf := rxImage [0xBE#8, 0xEF#8, 0x92#8, 0x12#8, 0x34#8, 0x38#8] }) := by
  decide

set_option maxRecDepth 8000 in
/-- 95, V1 and V6: good groups are kept; a length that is no multiple of 3 is PARAM_ERROR. -/
theorem test_verify_good_and_short :
    (fun t : State => t.outcome == .success && t.rxlen == 0x03#8 && bufGet t.rxbuf 0 == 0xBE#8)
      (verifyWith crc8_31_FF { decoding 0x04#8 0 with
        rxlen := 0x03#8, rxbuf := rxImage [0xBE#8, 0xEF#8, 0x92#8] }) ∧
    (verifyWith crc8_31_FF { decoding 0x04#8 0 with rxlen := 0x02#8 }).outcome = .paramError := by
  decide

/-- 60_exceptions R211: a reserved byte is accepted, read back, and completes with code 6. -/
theorem test_reserved :
    isNext (step (decoding 0x00#8 0)) (fun t => memRead 0x02#5 t == 0x06#8 && memRead 0x00#5 t == 0x00#8)
    ∧ isNext (step (decoding 0xFF#8 0)) (fun t => memRead 0x02#5 t == 0x06#8 && memRead 0x00#5 t == 0xFF#8)
    ∧ isNext (step (decoding 0x15#8 0)) (fun t => memRead 0x02#5 t == 0x06#8 && t.trace == []) := by
  decide

/-- A placed command runs as the first one after reset (30_encoding R92). -/
theorem test_withFetchWord :
    isNext (step (State.reset.withFetchWord 8 0x0A)) (fun t => t.op == .receive && t.stop && t.leg == .r)
    := by decide

/-- 20_memory R64: a write of TXLEN while busy is dropped and sets OVR; the checker's is not. -/
theorem test_drop_and_checker_write :
    (fun t : State => t.ovr && t.txlen == 0x02#8) (memWrite 0x04#5 0x05#8 (decoding 0x01#8 2)) ∧
    (fun t : State => !t.ovr && t.ckhi == 0x05#8) (memWrite 0x18#5 0x05#8 (decoding 0x01#8 2)) := by
  decide

/-- 10_state R25: STATUS bit 2 is write 1 to clear; the other bits of the write do nothing. -/
theorem test_clear_ovr :
    (memWrite 0x01#5 0x04#8 { s0 with ovr := true }).ovr = false ∧
    (memWrite 0x01#5 0xFB#8 { s0 with ovr := true }).ovr = true := by decide

/-! ## Witnesses: for each obligation with hypotheses, a state and operands that meet them -/

/-- A legal state in the middle of a leg (95, T1, RX1, WT1): the invariant holds of it. -/
theorem inv_inLeg_write (p : Phase) (k : Nat) (hp : p = .start ∧ k = 0 ∨ p = .addr ∧ k = 0 ∨
    p = .txData ∧ k = 0 ∨ p = .txData ∧ k = 1 ∨ p = .stop ∧ k = 2) : EngineInv (inLeg 0x09#8 .w true p k 2) := by
  obtain ⟨rfl, rfl⟩ | ⟨rfl, rfl⟩ | ⟨rfl, rfl⟩ | ⟨rfl, rfl⟩ | ⟨rfl, rfl⟩ := hp
  all_goals refine ⟨by decide, by decide, by decide, fun i hi _ => ?_, rfl, by decide, by decide,
    fun _ => ⟨rfl, .inl rfl, rfl, by decide, ?_, ?_, ?_, ?_, ?_, ?_⟩⟩
  all_goals first
    | decide
    | exact ⟨rfl, by decide⟩
    | exact rfl
    | simp [inLeg, decoding, s0, State.reset, bufGet, hi]

/-- The same for a read leg. -/
theorem inv_inLeg_read (p : Phase) (k : Nat) (hp : p = .start ∧ k = 0 ∨ p = .addr ∧ k = 0 ∨
    p = .rxByte ∧ k = 0 ∨ p = .rxByte ∧ k = 1 ∨ p = .rxAck ∧ k = 0 ∨ p = .rxAck ∧ k = 1 ∨
    p = .stop ∧ k = 2) :
    EngineInv (inLeg 0x0A#8 .r true p k 2) := by
  obtain ⟨rfl, rfl⟩ | ⟨rfl, rfl⟩ | ⟨rfl, rfl⟩ | ⟨rfl, rfl⟩ | ⟨rfl, rfl⟩ | ⟨rfl, rfl⟩ | ⟨rfl, rfl⟩ := hp
  all_goals refine ⟨by decide, by decide, by decide, fun i hi _ => ?_, rfl, by decide, by decide,
    fun _ => ⟨rfl, .inl rfl, rfl, by decide, ?_, ?_, ?_, ?_, ?_, ?_⟩⟩
  all_goals first
    | decide
    | exact ⟨rfl, by decide⟩
    | exact rfl
    | simp [inLeg, decoding, s0, State.reset, bufGet, hi]

/-- The same for the write leg of WRITE_THEN_READ. -/
theorem inv_inLeg_wtr : EngineInv (inLeg 0x03#8 .w false .txData 1 2) := by
  refine ⟨by decide, by decide, by decide, fun i hi _ => ?_, rfl, by decide, by decide,
    fun _ => ⟨rfl, .inr rfl, rfl, by decide, ⟨rfl, by decide⟩, by decide, by decide, by decide,
      by decide, by decide⟩⟩
  simp [inLeg, decoding, s0, State.reset, bufGet, hi]

/-- A legal state in DECODE. -/
theorem inv_decoding (c : Byte) : EngineInv (decoding c 2) := by
  refine ⟨by simp [decoding], Nat.zero_le 8, Nat.zero_lt_succ 3, fun i hi _ => ?_, rfl, fun _ => rfl,
    by simp [decoding, s0, State.reset], fun h => by cases h⟩
  simp [decoding, s0, State.reset, bufGet, hi]

/-- The idle state after reset. -/
theorem inv_s0 : EngineInv s0 := by
  refine ⟨by decide, by decide, by decide, fun i hi _ => ?_, rfl, by decide, by decide,
    fun h => by cases h⟩
  simp [s0, State.reset, bufGet, hi]

/-- The invariant does not read the turns to come. -/
theorem inv_withTurns {s : State} (h : EngineInv s) (l : List Turn) : EngineInv (withTurns s l) := by
  refine ⟨h.busy_iff, h.rxlen_le, h.chkerr_lt, h.rx_tail, h.port_empty, h.not_valid, h.no_config,
    fun hw => ?_⟩
  have hl := h.leg_inv hw
  exact ⟨hl.op_decoded, hl.op_leg, hl.n_count, hl.n_le, hl.index_ok, hl.wtr_stop, hl.wtr_count,
    hl.own_stop, hl.held_after_start, hl.rxlen_zero⟩

theorem witness_DecodeAndEncodeAgree :
    decode [0x09#8, 0x02#8] = .ok (.transmit true, [0x02#8]) := by decide

theorem witness_DecodingOrder :
    (0x10#8 : Byte).extractLsb' 4 4 ≠ 0#4 ∧ (0x80#8 : Byte).extractLsb' 4 4 ≠ 0#4 ∧
    (0x00#8 : Byte).extractLsb' 4 4 = 0#4 ∧ (0x0F#8 : Byte).extractLsb' 4 4 = 0#4 := by decide

theorem witness_CommandMap :
    ∀ c ∈ [0x00#8, 0x05#8, 0x0D#8, 0x10#8, 0xFF#8],
      c ∉ [0x01#8, 0x09#8, 0x02#8, 0x0A#8, 0x03#8, 0x0B#8, 0x04#8, 0x0C#8] := by decide

theorem witness_AddressByteFollowsStart :
    ∃ s : State, s.phase = .start ∧ s.leg = .r ∧ s.phyEvent = some (.done .repStartSent) :=
  ⟨onPort (inLeg 0x0A#8 .r true .start 0 2) (.done .repStartSent), rfl, rfl, rfl⟩

theorem witness_StepRunsDecodedCommand :
    (∃ s : State, s.cmd = encodeByte (.transmit true) ∧ s.phase = .decode ∧ s.inputs = []) ∧
    (∃ s : State, s.cmd = encodeByte (.transmit true) ∧ s.phase = .decode ∧
      s.inputs = [.engine, .reset]) ∧
    (∃ s : State, s.cmd = encodeByte (.transmit true) ∧ s.phase.waiting = true ∧
      s.inputs = [.phy (.done .txAck)]) ∧
    ∃ s : State, s.cmd = encodeByte (.transmit true) ∧ s.phase.waiting = true ∧
      s.inputs = [.phyCode 0x28] :=
  ⟨⟨decoding 0x09#8 2, by decide, rfl, rfl⟩,
    ⟨withTurns (decoding 0x09#8 2) [.engine, .reset], by decide, rfl, rfl⟩,
    ⟨withTurns (inLeg 0x09#8 .w true .txData 0 2) [.phy (.done .txAck)], by decide, rfl, rfl⟩,
    ⟨withTurns (inLeg 0x09#8 .w true .txData 0 2) [.phyCode 0x28], by decide, rfl, rfl⟩⟩

theorem witness_ResetFromAnyState :
    (∃ s : State, s.inputs = [.reset]) ∧
    ∃ s t : State, s.phase.waiting = true ∧ s.busy = true ∧ s.inputs = [.engine] ∧ step s = .next t :=
  ⟨⟨withTurns s0 [.reset], rfl⟩,
    ⟨withTurns (inLeg 0x09#8 .w true .stop 2 2) [.engine], _, rfl, rfl, rfl, rfl⟩⟩

theorem witness_AcceptCommand :
    (∃ s : State, s.inputs = [HostProgram.wr .cmd 0xFF#8] ∧ s.busy = false) ∧
    ∃ s : State, s.inputs = [HostProgram.wr .cmd 0x01#8] ∧ s.busy = true :=
  ⟨⟨withTurns s0 [HostProgram.wr .cmd 0xFF#8], rfl, rfl⟩,
    ⟨withTurns (decoding 0x01#8 2) [HostProgram.wr .cmd 0x01#8], rfl, rfl⟩⟩

theorem witness_CommandAcceptedFromIdle : State.reset.phase = .idle := rfl

theorem witness_HostWriteTable :
    s0.busy = false ∧ (decoding 0x01#8 2).busy = true ∧
    (withTurns s0 [.host ⟨Config.regBase + (0x1F#5).toNat, 8, .write 0x00#8⟩]).inputs =
      .host ⟨Config.regBase + (0x1F#5).toNat, 8, .write 0x00#8⟩ :: [] := ⟨rfl, rfl, rfl⟩

theorem witness_HostReadTable : EngineInv s0 ∧
    (withTurns s0 [.host ⟨Config.regBase + (0x00#5).toNat, 8, .read⟩]).inputs =
      .host ⟨Config.regBase + (0x00#5).toNat, 8, .read⟩ :: [] := ⟨inv_s0, rfl⟩

theorem witness_HostReadIsRecorded :
    (withTurns s0 [.host ⟨Config.regBase + (0x1F#5).toNat, 8, .read⟩]).inputs =
      .host ⟨Config.regBase + (0x1F#5).toNat, 8, .read⟩ :: [] := rfl

theorem witness_OnlyByteAccesses :
    (∃ (s : State) (a : HostAccess), s.inputs = [.host a] ∧ a.width ≠ 8) ∧
    ∃ (s t : State) (a : HostAccess), s.inputs = [.host a] ∧ step s = .next t :=
  ⟨⟨withTurns s0 [.host ⟨0, 16, .read⟩], ⟨0, 16, .read⟩, rfl, by decide⟩,
    ⟨withTurns s0 [HostProgram.rd .status], _, _, rfl, takeTurn_rd .status (s0.setInputs [])⟩⟩

theorem witness_WindowDecides :
    (∃ (s : State) (a : HostAccess), s.inputs = [.host a] ∧ a.width = 8 ∧
      (a.addr < Config.regBase ∨ Config.regBase + 32 ≤ a.addr)) ∧
    ∃ (s : State) (a : HostAccess), s.inputs = [.host a] ∧ a.width = 8 ∧ Config.regBase ≤ a.addr ∧
      a.addr < Config.regBase + 32 :=
  ⟨⟨withTurns s0 [.host ⟨Config.regBase + 32, 8, .read⟩], _, rfl, rfl, .inr (Nat.le_refl _)⟩,
    ⟨withTurns s0 [.host ⟨Config.regBase + 31, 8, .read⟩], _, rfl, rfl, Nat.le_add_right _ _,
      Nat.lt_succ_self _⟩⟩

theorem witness_EventsOnlyWhereExpected :
    (∃ s : State, s.inputs = [.phy .stopDone] ∧ s.phase = .stop) ∧
    ∃ s : State, s.inputs = [.phy .stopDone] ∧ s.phase = .idle :=
  ⟨⟨withTurns (inLeg 0x09#8 .w true .stop 2 2) [.phy .stopDone], rfl, rfl⟩,
    ⟨withTurns s0 [.phy .stopDone], rfl, rfl⟩⟩

theorem witness_StartPhase : ∀ st : PhyStatus,
    (onPort (inLeg 0x09#8 .w true .start 0 2) (.done st)).phase = .start ∧
    (onPort (inLeg 0x09#8 .w true .start 0 2) (.done st)).phyEvent = some (.done st) :=
  fun _ => ⟨rfl, rfl⟩

theorem witness_AddressPhaseOfWriteLeg :
    (∃ s : State, s.phase = .addr ∧ s.leg = .w ∧ s.phyEvent = some (.done .addrWAck) ∧ s.idx < s.n) ∧
    (∃ s : State, s.phase = .addr ∧ s.leg = .w ∧ s.phyEvent = some (.done .addrWAck) ∧ ¬ s.idx < s.n) ∧
    ∀ st, ∃ s : State, s.phase = .addr ∧ s.leg = .w ∧ s.phyEvent = some (.done st) :=
  ⟨⟨onPort (inLeg 0x09#8 .w true .addr 0 1) (.done .addrWAck), rfl, rfl, rfl, by decide⟩,
    ⟨onPort (inLeg 0x09#8 .w true .addr 0 0) (.done .addrWAck), rfl, rfl, rfl, by decide⟩,
    fun st => ⟨onPort (inLeg 0x09#8 .w true .addr 0 1) (.done st), rfl, rfl, rfl⟩⟩

theorem witness_AddressPhaseOfReadLeg :
    (∃ s : State, s.phase = .addr ∧ s.leg = .r ∧ s.phyEvent = some (.done .addrRAck) ∧ s.n = 1) ∧
    (∀ b, ∃ s : State, s.phase = .addr ∧ s.leg = .r ∧ s.phyEvent = some (.done .addrRAck) ∧ s.n = 0 ∧
      s.stop = b) ∧
    ∀ st, ∃ s : State, s.phase = .addr ∧ s.leg = .r ∧ s.phyEvent = some (.done st) :=
  ⟨⟨onPort (inLeg 0x0A#8 .r true .addr 0 1) (.done .addrRAck), rfl, rfl, rfl, rfl⟩,
    fun b => ⟨onPort (inLeg 0x0A#8 .r b .addr 0 0) (.done .addrRAck), rfl, rfl, rfl, rfl, rfl⟩,
    fun st => ⟨onPort (inLeg 0x0A#8 .r true .addr 0 1) (.done st), rfl, rfl, rfl⟩⟩

theorem witness_TransmitDataPhase :
    (∃ s : State, s.phase = .txData ∧ s.phyEvent = some (.done .txAck) ∧ s.idx + 1 < s.n) ∧
    (∃ s : State, s.phase = .txData ∧ s.phyEvent = some (.done .txAck) ∧ ¬ s.idx + 1 < s.n) ∧
    ∀ st, ∃ s : State, s.phase = .txData ∧ s.phyEvent = some (.done st) :=
  ⟨⟨onPort (inLeg 0x09#8 .w true .txData 0 2) (.done .txAck), rfl, rfl, by decide⟩,
    ⟨onPort (inLeg 0x09#8 .w true .txData 1 2) (.done .txAck), rfl, rfl, by decide⟩,
    fun st => ⟨onPort (inLeg 0x09#8 .w true .txData 1 2) (.done st), rfl, rfl⟩⟩

theorem witness_ReceiveBytePhase : ∀ k < 8, ∃ s : State,
    s.phase = .rxByte ∧ s.phyEvent = some (.byte 0xBE#8) ∧ s.idx = k ∧ s.idx < s.n ∧ s.n ≤ 8 :=
  fun k hk => ⟨onPort (inLeg 0x0A#8 .r true .rxByte k 8) (.byte 0xBE#8), rfl, rfl, rfl, hk,
    Nat.le_refl 8⟩

theorem witness_ReceiveHandshakePhase : ∀ st : PhyStatus,
    (∃ s : State, s.phase = .rxAck ∧ s.phyEvent = some (.done st) ∧ s.idx < s.n ∧ s.idx ≠ s.n - 1) ∧
    ∃ s : State, s.phase = .rxAck ∧ s.phyEvent = some (.done st) ∧ s.idx < s.n ∧ s.idx = s.n - 1 :=
  fun st => ⟨⟨onPort (inLeg 0x0A#8 .r true .rxAck 0 2) (.done st), rfl, rfl, Nat.zero_lt_two,
      Nat.zero_ne_one⟩,
    ⟨onPort (inLeg 0x0A#8 .r true .rxAck 1 2) (.done st), rfl, rfl, Nat.one_lt_two, rfl⟩⟩

theorem witness_StopPhase : ∃ s : State, s.phase = .stop ∧ s.phyEvent = some .stopDone :=
  ⟨onPort (inLeg 0x09#8 .w true .stop 2 2) .stopDone, rfl, rfl⟩

theorem witness_LegEnds :
    (inLeg 0x09#8 .w true .txData 1 2).stop = true ∧ (inLeg 0x01#8 .w false .txData 1 2).stop = false ∧
    ((inLeg 0x03#8 .w false .txData 1 2).op = .wtr ∧ (inLeg 0x03#8 .w false .txData 1 2).leg = .w) ∧
    ((inLeg 0x01#8 .w false .txData 1 2).op ≠ .wtr ∧ (inLeg 0x01#8 .w false .txData 1 2).leg = .w) ∧
    (inLeg 0x0A#8 .r true .rxAck 1 2).leg = .r := by decide

theorem witness_FailingLeg :
    (inLeg 0x09#8 .w true .addr 0 2).leg = .w ∧ (inLeg 0x0A#8 .r true .addr 0 2).leg = .r := ⟨rfl, rfl⟩

theorem witness_TransmitDecodes :
    ((decoding 0x09#8 8).phase = .decode ∧ (decoding 0x09#8 8).txlen.toNat ≤ 8) ∧
    (decoding 0x09#8 9).phase = .decode ∧ 8 < (decoding 0x09#8 9).txlen.toNat := by decide

theorem witness_ReceiveDecodes :
    ((decoding 0x0A#8 8).phase = .decode ∧ (decoding 0x0A#8 8).rxcnt.toNat ≤ 8) ∧
    (decoding 0x0A#8 9).phase = .decode ∧ 8 < (decoding 0x0A#8 9).rxcnt.toNat := by decide

theorem witness_WriteThenReadDecodes :
    (∃ s : State, s.phase = .decode ∧ s.txlen.toNat = 8 ∧ s.rxcnt.toNat = 8) ∧
    (∃ s : State, s.phase = .decode ∧ s.txlen.toNat = 8 ∧ 8 < s.rxcnt.toNat) ∧
    ∃ s : State, s.phase = .decode ∧ 8 < s.txlen.toNat ∧ s.rxcnt.toNat = 8 :=
  ⟨⟨decoding 0x03#8 8, rfl, rfl, rfl⟩,
    ⟨{ decoding 0x03#8 8 with rxcnt := 0x09#8 }, rfl, rfl, by decide⟩,
    ⟨{ decoding 0x03#8 8 with txlen := 0x09#8 }, rfl, by decide, rfl⟩⟩

theorem witness_VerifyWithoutGroups :
    (∃ s : State, s.phase = .decode ∧ s.rxlen = 0x00#8) ∧
    ∀ v ∈ [0x01#8, 0x02#8, 0x04#8, 0x08#8], ∃ s : State, s.phase = .decode ∧ s.rxlen = v ∧
      s.rxlen.toNat % 3 ≠ 0 := by
  refine ⟨⟨decoding 0x04#8 0, rfl, rfl⟩, fun v hv => ⟨{ decoding 0x04#8 0 with rxlen := v }, rfl, rfl, ?_⟩⟩
  revert v; decide

theorem witness_VerifyChecksEveryGroup :
    (∃ s : State, s.phase = .decode ∧ s.rxlen = BitVec.ofNat 8 (3 * 1)) ∧
    ∃ s : State, s.phase = .decode ∧ s.rxlen = BitVec.ofNat 8 (3 * 2) :=
  ⟨⟨{ decoding 0x04#8 0 with rxlen := 0x03#8 }, rfl, rfl⟩,
    ⟨{ decoding 0x04#8 0 with rxlen := 0x06#8 }, rfl, rfl⟩⟩

theorem witness_ReservedCompletes :
    (Instr.reservedBit7 0x7F#7).op = .reserved ∧ (decoding 0xFF#8 0).phase = .decode ∧
    s0.phase = .idle := ⟨rfl, rfl, rfl⟩

theorem witness_TransmitFrame : ∃ s t : State, Running (.transmit true) s ∧
    exec (.transmit true) s = .next t ∧ s.phase ≠ .start ∧ s.phase ≠ .stop ∧ t.phase ≠ .idle :=
  ⟨onPort (inLeg 0x09#8 .w true .txData 0 2) (.done .txAck), _, fun _ => ⟨rfl, .inl rfl, by decide⟩, rfl,
    by decide, by decide, by decide⟩

theorem witness_ReadingCommandsFrame :
    (∃ s t : State, Running (.receive true) s ∧ exec (.receive true) s = .next t) ∧
    ∃ s t : State, Running (.writeThenRead false) s ∧ exec (.writeThenRead false) s = .next t :=
  ⟨⟨onPort (inLeg 0x0A#8 .r true .rxByte 1 2) (.byte 0xEF#8), _, fun _ => ⟨rfl, .inl rfl, fun _ => rfl⟩,
      rfl⟩,
    ⟨onPort (inLeg 0x03#8 .w false .txData 1 2) (.done .txAck), _,
      fun _ => ⟨rfl, .inr rfl, by decide⟩, rfl⟩⟩

theorem witness_VerifyFrame : ∃ s t : State, Running (.verify false) s ∧
    exec (.verify false) s = .next t ∧ t.outcome ≠ .checksumError :=
  ⟨decoding 0x04#8 0, _, fun h => (by cases h), rfl, by decide⟩

theorem witness_ReservedFrame : ∃ s t : State, (Instr.reservedOp0 false).op = .reserved ∧
    Running (.reservedOp0 false) s ∧ exec (.reservedOp0 false) s = .next t :=
  ⟨decoding 0x00#8 0, _, rfl, fun h => (by cases h), rfl⟩

theorem witness_TransmitRunSucceeds : ∀ n ≤ 8, ∃ s : State,
    s.phase = .decode ∧ s.cmd = encodeByte (.transmit true) ∧ s.txlen.toNat = n ∧
    s.inputs = .engine :: (writeLegEvents .startSent s.txlen.toNat true).map .phy ++ [] := by
  intro n hn
  refine ⟨withTurns (decoding 0x09#8 n)
    (.engine :: (writeLegEvents .startSent (decoding 0x09#8 n).txlen.toNat true).map .phy ++ []),
    rfl, rfl, ?_, rfl⟩
  simp [withTurns, decoding]; omega

theorem witness_ReceiveRunSucceeds :
    (∃ s : State, s.phase = .decode ∧ s.cmd = encodeByte (.receive false) ∧ s.rxcnt.toNat = 0 ∧
      s.inputs = .engine :: (readLegEvents .startSent [] false).map .phy ++ []) ∧
    ∃ s : State, s.phase = .decode ∧ s.cmd = encodeByte (.receive true) ∧ s.rxcnt.toNat = 8 ∧
      s.inputs = .engine ::
        (readLegEvents .repStartSent (List.replicate 8 0x77#8) true).map .phy ++ [] :=
  ⟨⟨withTurns (decoding 0x02#8 0) (.engine :: (readLegEvents .startSent [] false).map .phy ++ []),
      rfl, by decide, rfl, rfl⟩,
    ⟨withTurns (decoding 0x0A#8 8)
      (.engine :: (readLegEvents .repStartSent (List.replicate 8 0x77#8) true).map .phy ++ []),
      rfl, by decide, rfl, rfl⟩⟩

theorem witness_WriteThenReadRunSucceeds : ∃ s : State,
    s.phase = .decode ∧ s.cmd = encodeByte (.writeThenRead true) ∧ s.txlen.toNat = 2 ∧
    s.rxcnt.toNat = 2 ∧ s.inputs = .engine ::
      (writeLegEvents .startSent s.txlen.toNat false ++
        readLegEvents .repStartSent [0x12#8, 0x34#8] true).map .phy ++ [] :=
  ⟨withTurns (decoding 0x0B#8 2) (.engine ::
      (writeLegEvents .startSent (decoding 0x0B#8 2).txlen.toNat false ++
        readLegEvents .repStartSent [0x12#8, 0x34#8] true).map .phy ++ []),
    rfl, by decide, rfl, rfl, rfl⟩

theorem witness_EveryAnsweredCommandCompletes : ∃ (s : State) (answers : List (PhyStatus × Byte)),
    EngineInv s ∧ s.phase = .decode ∧ answers.length = 30 :=
  ⟨decoding 0x03#8 2, List.replicate 30 (.other, 0x00#8), inv_decoding _, rfl, rfl⟩

theorem witness_StepKeepsInvariant :
    (∃ s t : State, EngineInv s ∧ step s = .next t ∧ s.phase = .decode) ∧
    ∃ s t : State, EngineInv s ∧ step s = .next t ∧ s.phase = .rxByte ∧ t.phase = .rxAck :=
  ⟨⟨decoding 0x03#8 2, _, inv_decoding _, rfl, rfl⟩,
    ⟨withTurns (inLeg 0x0A#8 .r true .rxByte 1 2) [.phy (.byte 0xEF#8)], _,
      inv_withTurns (inv_inLeg_read .rxByte 1 (by decide)) _, rfl, rfl, rfl⟩⟩

theorem witness_InvariantGivesStatedFacts :
    (∃ s : State, EngineInv s ∧ s.phase = .txData) ∧ (∃ s : State, EngineInv s ∧ s.phase = .rxByte) ∧
    (∃ s : State, EngineInv s ∧ s.phase = .rxAck) ∧ ∃ s : State, EngineInv s ∧ s.busy = false :=
  ⟨⟨_, inv_inLeg_write .txData 1 (by decide), rfl⟩, ⟨_, inv_inLeg_read .rxByte 0 (by decide), rfl⟩,
    ⟨_, inv_inLeg_read .rxAck 1 (by decide), rfl⟩, ⟨s0, inv_s0, rfl⟩⟩

theorem witness_OperandsStableWhileBusy :
    (∃ s t : State, s.busy = true ∧ (∀ rest, s.inputs ≠ .reset :: rest) ∧ step s = .next t) ∧
    ∃ s : State, s.busy = true ∧ s.inputs = HostProgram.wr (.txbuf 7) 0x00#8 :: [] :=
  ⟨⟨decoding 0x01#8 2, _, rfl, fun _ h => (by cases h), rfl⟩,
    ⟨withTurns (decoding 0x01#8 2) [HostProgram.wr (.txbuf 7) 0x00#8], rfl, rfl⟩⟩

theorem witness_OutcomeWrittenByCompletionOnly : ∃ s t : State,
    (∀ rest, s.inputs ≠ .reset :: rest) ∧ step s = .next t ∧ t.outcome ≠ s.outcome ∧
    s.phase ≠ .idle ∧ t.phase = .idle ∧ s.busy = true ∧ t.busy = false :=
  ⟨decoding 0x00#8 0, _, fun _ h => (by cases h), rfl, by decide, by decide, rfl, rfl, rfl⟩

theorem witness_ValidMarksOutcome :
    (∃ s t : State, s.inputs = [.reset] ∧ step s = .next t) ∧ (∃ s : State, EngineInv s ∧ s.valid = false) ∧
    ∃ s t : State, (∀ rest, s.inputs ≠ .reset :: rest) ∧ step s = .next t ∧ s.valid = false ∧
      t.valid = true :=
  ⟨⟨withTurns s0 [.reset], _, rfl, rfl⟩, ⟨s0, inv_s0, rfl⟩, ⟨decoding 0x00#8 0, _, fun _ h => (by cases h), rfl, rfl, rfl⟩⟩

theorem witness_HeldRule :
    (∃ s t : State, EngineInv s ∧ (∀ rest, s.inputs ≠ .reset :: rest) ∧ step s = .next t ∧
      s.phase = .start ∧ t.phase = .addr ∧ t.held ≠ s.held) ∧
    (∃ s t : State, EngineInv s ∧ (∀ rest, s.inputs ≠ .reset :: rest) ∧ step s = .next t ∧
      s.phase = .stop ∧ t.phase ≠ .stop ∧ t.held ≠ s.held) ∧
    (∃ s t : State, s.inputs = [.reset] ∧ step s = .next t) ∧
    ∃ s t : State, exec (.transmit true) s = .next t :=
  ⟨⟨withTurns (inLeg 0x09#8 .w true .start 0 2) [.phy (.done .startSent)], _,
      inv_withTurns (inv_inLeg_write .start 0 (by decide)) _, by simp [withTurns], rfl, rfl, rfl,
      by decide⟩,
    ⟨withTurns (inLeg 0x09#8 .w true .stop 2 2) [.phy .stopDone], _,
      inv_withTurns (inv_inLeg_write .stop 2 (by decide)) _, by simp [withTurns], rfl, rfl, by decide,
      by decide⟩,
    ⟨withTurns s0 [.reset], _, rfl, rfl⟩,
    ⟨decoding 0x09#8 2, _, rfl⟩⟩

theorem witness_ChkerrWrittenByVerifyOnly : ∃ s t : State,
    (∀ rest, s.inputs ≠ .reset :: rest) ∧ step s = .next t ∧ t.chkerr ≠ s.chkerr :=
  ⟨{ decoding 0x04#8 0 with chkerr := 0x03#8 }, _, fun _ h => (by cases h), rfl, by decide⟩

/-- The two successful and failed ways a read leg writes RXLEN, and `clearRx` at decode. -/
theorem witness_RxlenWriters :
    (∃ s t : State, EngineInv s ∧ (∀ rest, s.inputs ≠ .reset :: rest) ∧ step s = .next t ∧
      t.rxlen ≠ s.rxlen ∧ s.phase = .stop) ∧
    ∃ s t : State, EngineInv s ∧ (∀ rest, s.inputs ≠ .reset :: rest) ∧ step s = .next t ∧
      t.rxlen ≠ s.rxlen ∧ s.phase = .decode := by
  refine ⟨⟨withTurns (inLeg 0x0A#8 .r true .stop 2 2) [.phy .stopDone], _,
      inv_withTurns (inv_inLeg_read .stop 2 (by decide)) _, by simp [withTurns], rfl, by decide, rfl⟩,
    ⟨{ decoding 0x0A#8 2 with rxlen := 0x03#8 }, _, ?_, by simp [decoding, s0, State.reset], rfl,
      by decide, rfl⟩⟩
  have h := inv_decoding 0x0A#8
  exact ⟨h.busy_iff, by decide, h.chkerr_lt, fun i hi _ => h.rx_tail i hi (Nat.zero_le i), h.port_empty,
    h.not_valid, h.no_config, fun hw => by cases hw⟩

theorem witness_TraceOnlyGrows :
    (∃ s t : State, (∀ rest, s.inputs ≠ .reset :: rest) ∧ step s = .next t ∧ t.trace ≠ s.trace) ∧
    ∃ s t : State, (∀ rest, s.inputs ≠ .reset :: rest) ∧ step s = .next t ∧ s.phase = .idle :=
  ⟨⟨decoding 0x01#8 2, _, fun _ h => (by cases h), rfl, by decide⟩, ⟨s0, _, fun _ h => (by cases h), rfl, rfl⟩⟩

theorem witness_CmdHoldsAcceptedByte : ∃ s t : State,
    (∀ rest, s.inputs ≠ .reset :: rest) ∧ step s = .next t ∧ t.cmd ≠ s.cmd :=
  ⟨withTurns s0 [HostProgram.wr .cmd 0x01#8], s0.accept 0x01#8, by simp [withTurns, HostProgram.wr],
    takeTurn_wr .cmd 0x01#8 (s0.setInputs []), by decide⟩

theorem witness_OvrRule :
    (∃ s t : State, (∀ rest, s.inputs ≠ .reset :: rest) ∧ step s = .next t ∧ t.ovr ≠ s.ovr ∧
      s.busy = true) ∧
    ∃ s t : State, (∀ rest, s.inputs ≠ .reset :: rest) ∧ step s = .next t ∧ t.ovr ≠ s.ovr ∧
      s.ovr = true :=
  ⟨⟨withTurns (decoding 0x01#8 2) [HostProgram.wr .cmd 0x01#8], (decoding 0x01#8 2).drop,
      by simp [withTurns, HostProgram.wr], takeTurn_wr .cmd 0x01#8 ((decoding 0x01#8 2).setInputs []),
      by decide, rfl⟩,
    ⟨withTurns s0.drop [HostProgram.clrovr], _,
      by simp [withTurns, HostProgram.clrovr, HostProgram.wr],
      takeTurn_wr .status 0x04#8 (s0.drop.setInputs []), by decide, rfl⟩⟩

theorem witness_BusFaultTakesPrecedence : ∀ p : Phase,
    (onPort (inLeg 0x09#8 .w true p 0 2) (.done .busFault)).phase = p ∧
    (onPort (inLeg 0x09#8 .w true p 0 2) (.done .busFault)).phyEvent = some (.done .busFault) :=
  fun _ => ⟨rfl, rfl⟩

theorem witness_StatusOutcomeTable :
    (∃ s : State, s.phase = .rxAck ∧ s.idx < s.n ∧ statusGoesOn s .rxNackSent) ∧
    (∃ s : State, s.phase = .rxAck ∧ s.idx < s.n ∧ statusAckFails s .rxAckSent) ∧
    ∃ s : State, s.phase = .addr ∧ ¬ statusGoesOn s .other ∧ ¬ statusAckFails s .other :=
  ⟨⟨inLeg 0x0A#8 .r true .rxAck 1 2, rfl, by decide, .inr (.inr (.inr (.inr (.inr ⟨rfl, rfl, rfl⟩))))⟩,
    ⟨inLeg 0x0A#8 .r true .rxAck 1 2, rfl, by decide, .inr (.inr (.inr (.inr ⟨rfl, rfl, rfl⟩)))⟩,
    ⟨inLeg 0x09#8 .w true .addr 0 2, rfl, by simp [statusGoesOn], by simp [statusAckFails]⟩⟩

theorem witness_FailureIssuesNothing :
    (∃ s t : State, s.phase.waiting = true ∧ exec (.transmit true) s = .next t ∧ t.phase = .idle ∧
      t.outcome ≠ .success ∧ s.leg = .w) ∧
    ∃ s t : State, s.phase.waiting = true ∧ exec (.receive true) s = .next t ∧ t.phase = .idle ∧
      t.outcome ≠ .success ∧ s.leg = .r :=
  ⟨⟨onPort (inLeg 0x09#8 .w true .addr 0 2) (.done .addrWNack), _, rfl, rfl, rfl, by decide, rfl⟩,
    ⟨onPort (inLeg 0x0A#8 .r true .rxAck 0 2) (.done .busFault), _, rfl, rfl, rfl, by decide, rfl⟩⟩

theorem witness_FailedReadLeavesNoData :
    (∃ s t : State, EngineInv { s with phyEvent := none } ∧ s.phase.waiting = true ∧
      s.op = .receive ∧ exec (.receive true) s = .next t ∧ t.phase = .idle ∧ t.outcome ≠ .success) ∧
    ∃ s t : State, EngineInv { s with phyEvent := none } ∧ s.phase.waiting = true ∧ s.op = .wtr ∧
      exec (.writeThenRead false) s = .next t ∧ t.phase = .idle ∧ t.outcome ≠ .success :=
  ⟨⟨onPort (inLeg 0x0A#8 .r true .rxAck 0 2) (.done .busFault), _,
      inv_inLeg_read .rxAck 0 (by decide), rfl, rfl, rfl, rfl, by decide⟩,
    ⟨onPort (inLeg 0x03#8 .w false .txData 1 2) (.done .txNack), _, inv_inLeg_wtr, rfl, rfl, rfl, rfl,
      by decide⟩⟩

theorem witness_HangIsForever :
    (∃ s : State, Hung s) ∧
    ∃ s t : State, EngineInv s ∧ s.phase.waiting = true ∧
      s.inputs = HostProgram.wr .cmd 0x01#8 :: [] ∧ step s = .next t :=
  ⟨⟨inLeg 0x09#8 .w true .stop 2 2, rfl, rfl⟩,
    ⟨withTurns (inLeg 0x09#8 .w true .stop 2 2) [HostProgram.wr .cmd 0x01#8], _,
      inv_withTurns (inv_inLeg_write .stop 2 (by decide)) _, rfl, rfl,
      takeTurn_wr .cmd 0x01#8 ((inLeg 0x09#8 .w true .stop 2 2).setInputs [])⟩⟩

theorem witness_CheckerIsCombinational : ∃ s t : State, exec (.transmit true) s = .next t :=
  ⟨decoding 0x09#8 2, _, rfl⟩

set_option maxRecDepth 8000 in
theorem witness_ValidatorLaws :
    (∃ s : State, s.rxlen.toNat ≤ 8 ∧ 1 < s.rxlen.toNat / 3 ∧
      (verifyWith xor8 s).outcome = .success) ∧
    ∃ s : State, s.rxlen.toNat ≤ 8 ∧ (verifyWith xor8 s).outcome = .checksumError :=
  ⟨⟨{ decoding 0x04#8 0 with
        rxlen := 0x06#8, rxbuf := rxImage [0x12#8, 0x34#8, 0x26#8, 0x34#8, 0x12#8, 0x26#8] },
      by decide, by decide, by decide⟩,
    ⟨{ decoding 0x04#8 0 with rxlen := 0x03#8, rxbuf := rxImage [0xBE#8, 0xEF#8, 0x92#8] },
      by decide, by decide⟩⟩

theorem witness_CommandWordIsBigEndian : ∃ s : State,
    s.busy = false ∧ s.inputs = HostProgram.ldw16 0x2400#16 ++ [] :=
  ⟨withTurns s0 (HostProgram.ldw16 0x2400#16 ++ []), rfl, rfl⟩

end Sys2Proof.Tests
end

namespace Sys2Proof.Machine

/-! A host read as a whole step (20_memory R61, R62). -/

/-- What a register reads does not depend on the turns still to come. -/
@[simp] theorem memRead_setInputs (off : Offset) (l : List Turn) (s : State) :
    memRead off (s.setInputs l) = memRead off s := rfl

/-- The step of a byte read in the window, in terms of the two state operations it is made of. -/
theorem step_read {s : State} {off : Offset} {rest : List Turn}
    (h : s.inputs = .host ⟨Config.regBase + off.toNat, 8, .read⟩ :: rest) :
    step s = .next ((s.setInputs rest).logRead ⟨off, memRead off s⟩) := by
  rw [step_turn h, takeTurn_read, hostRead_eq, memRead_setInputs]

/-- Settles O12: the read's turn routes to its own offset (`takeTurn_read`), and the value recorded is
read after the turn is taken off the list, which no register sees (`memRead_setInputs`). -/
theorem hostReadIsRecorded : Obligations.HostReadIsRecorded := by
  intro s off rest h
  exact step_read h

end Sys2Proof.Machine

namespace Sys2Proof.Machine

/-! ## The invariant, cut into what each operation needs

`EngineInv` is one predicate over a whole state. An operation of the engine acts on a state in the
middle of a step, where the phase, the index and HELD are already new or not yet set, so the parts
that do not speak of these are named here: `RestInv`, `Underway` and `ZeroFrom`. -/

/-- The bytes of a buffer from `k` on are 0x00 (10_state R48). -/
def ZeroFrom (k : Nat) (b : Buffer) : Prop := ∀ i < 8, k ≤ i → bufGet b i = 0x00#8

theorem ZeroFrom.mono {k m : Nat} {b : Buffer} (h : ZeroFrom k b) (hkm : k ≤ m) : ZeroFrom m b :=
  fun i hi hm => h i hi (hkm.trans hm)

theorem zeroFrom_bufZero (k : Nat) : ZeroFrom k bufZero := fun i _ _ => bufGet_bufZero i

/-- A received byte stored at `k` leaves the bytes after it at 0x00 (40_bus R128). -/
theorem ZeroFrom.bufSet {k : Nat} {b : Buffer} (h : ZeroFrom k b) (d : Byte) :
    ZeroFrom (k + 1) (bufSet b k d) := fun i hi hk => by
  rw [bufGet_bufSet_ne b d (by omega)]
  exact h i hi (by omega)

/-- The part of the invariant that holds whatever the phase is. -/
structure RestInv (s : State) : Prop where
  rxlen_le : s.rxlen.toNat ≤ 8
  chkerr_lt : s.chkerr.toNat < 4
  port_empty : s.phyEvent = none
  not_valid : s.valid = false → s.outcome = .success
  no_config : s.outcome ≠ .configError

/-- The part of a running leg's invariant that speaks of no phase, index or HELD: what the
operations inside an event step keep. -/
structure Underway (s : State) : Prop where
  rest : RestInv s
  busy : s.busy = true
  op_decoded : s.op = decodeOp s.cmd
  op_leg : legOfOp s.op s.leg
  n_count : s.n = s.legCount s.leg
  n_le : s.n ≤ 8
  wtr_stop : s.op = .wtr → (s.stop = true ↔ s.leg = .r)
  wtr_count : s.op = .wtr → s.rxcnt.toNat ≤ 8
  own_stop : s.op ≠ .wtr → s.stop = stopBit s.cmd
  rxlen_zero : s.op ≠ .transmit → s.rxlen = 0x00#8

/-- How many bytes of RXBUF may hold data when the present leg is done. -/
def legFill (s : State) : Nat :=
  match s.leg with
  | .w => s.rxlen.toNat
  | .r => s.n

theorem legFill_write {s : State} (h : s.leg = .w) : legFill s = s.rxlen.toNat := by
  simp [legFill, h]

theorem legFill_read {s : State} (h : s.leg = .r) : legFill s = s.n := by simp [legFill, h]

section Parts
variable {s : State}

theorem EngineInv.restInv (h : EngineInv s) : RestInv s :=
  ⟨h.rxlen_le, h.chkerr_lt, h.port_empty, h.not_valid, h.no_config⟩

theorem EngineInv.busy_of_phase (h : EngineInv s) (hp : s.phase ≠ .idle) : s.busy = true :=
  h.busy_iff.mpr hp

theorem EngineInv.phase_of_notBusy (h : EngineInv s) (hb : s.busy = false) : s.phase = .idle := by
  by_contra hp
  simp [h.busy_of_phase hp] at hb

theorem waiting_of_phase {p : Phase} (hp : s.phase = p) (hw : p.waiting = true) : s.Waiting := by
  rw [← hp] at hw
  exact hw

theorem State.Waiting.phase_ne_idle (h : s.Waiting) : s.phase ≠ .idle := by
  intro hp
  simp [State.Waiting, hp, Phase.waiting] at h

theorem EngineInv.underway (h : EngineInv s) (hw : s.Waiting) : Underway s :=
  have hl := h.leg_inv hw
  ⟨h.restInv, h.busy_of_phase hw.phase_ne_idle, hl.op_decoded, hl.op_leg, hl.n_count, hl.n_le,
    hl.wtr_stop, hl.wtr_count, hl.own_stop, hl.rxlen_zero⟩

/-- The parts make up the invariant of a waiting state. -/
theorem Underway.engineInv (h : Underway s) (hw : s.Waiting) (hi : indexOk s)
    (hh : s.phase ≠ .start → s.held = true) (hz : ZeroFrom (rxFilled s) s.rxbuf) : EngineInv s :=
  ⟨by simp [h.busy, hw.phase_ne_idle], h.rest.rxlen_le, h.rest.chkerr_lt, hz, h.rest.port_empty,
    h.rest.not_valid, h.rest.no_config, fun _ =>
    ⟨h.op_decoded, h.op_leg, h.n_count, h.n_le, hi, h.wtr_stop, h.wtr_count, h.own_stop, hh,
      h.rxlen_zero⟩⟩

/-- A read leg runs for RECEIVE or WRITE_THEN_READ, and RXLEN is 0 until it succeeds (20_memory
R77). -/
theorem Underway.rxlen_read (h : Underway s) (hl : s.leg = .r) : s.rxlen = 0x00#8 := by
  have hop := h.op_leg
  rw [hl, legOfOp] at hop
  exact h.rxlen_zero (by rcases hop with ho | ho <;> simp [ho])

/-- A command that is completed from a state with its data in order satisfies the invariant. -/
theorem RestInv.complete (h : RestInv s) (hz : ZeroFrom s.rxlen.toNat s.rxbuf) {o : CommandOutcome}
    (ho : o ≠ .configError) : EngineInv (s.complete o) where
  busy_iff := by simp
  rxlen_le := h.rxlen_le
  chkerr_lt := h.chkerr_lt
  rx_tail := hz
  port_empty := h.port_empty
  not_valid := by simp
  no_config := ho
  leg_inv hw := absurd rfl hw.phase_ne_idle

/-! What the parts do not read, so that no update of it breaks them. -/

theorem RestInv.unread (h : RestInv s) (b : Bool) (i : Nat) (l : List TraceEntry) (p : Phase)
    (d : Buffer) : RestInv { s with held := b, idx := i, trace := l, phase := p, rxbuf := d } :=
  ⟨h.rxlen_le, h.chkerr_lt, h.port_empty, h.not_valid, h.no_config⟩

theorem Underway.unread (h : Underway s) (b : Bool) (i : Nat) (l : List TraceEntry) (p : Phase)
    (d : Buffer) : Underway { s with held := b, idx := i, trace := l, phase := p, rxbuf := d } :=
  ⟨h.rest.unread b i l p d, h.busy, h.op_decoded, h.op_leg, h.n_count, h.n_le, h.wtr_stop,
    h.wtr_count, h.own_stop, h.rxlen_zero⟩

theorem LegInv.unread (h : LegInv s) (o : Bool) (a : Addr7) (d : Buffer) (hi lo rcv : Byte)
    (l : List TraceEntry) (e : Option PhyEvent) (us : List Turn) (rs : List HostRead) :
    LegInv { s with
      ovr := o, addr := a, txbuf := d, ckhi := hi, cklo := lo, ckrcv := rcv,
      trace := l, phyEvent := e, inputs := us, hostReads := rs } :=
  ⟨h.op_decoded, h.op_leg, h.n_count, h.n_le, h.index_ok, h.wtr_stop, h.wtr_count, h.own_stop,
    h.held_after_start, h.rxlen_zero⟩

/-- The invariant reads neither OVR, the address, TXBUF and the checker, nor the trace and what is
outside the block; and it wants the port empty. -/
theorem EngineInv.unread (h : EngineInv s) (o : Bool) (a : Addr7) (d : Buffer) (hi lo rcv : Byte)
    (l : List TraceEntry) {e : Option PhyEvent} (he : e = none) (us : List Turn)
    (rs : List HostRead) :
    EngineInv { s with
      ovr := o, addr := a, txbuf := d, ckhi := hi, cklo := lo, ckrcv := rcv,
      trace := l, phyEvent := e, inputs := us, hostReads := rs } :=
  ⟨h.busy_iff, h.rxlen_le, h.chkerr_lt, h.rx_tail, he, h.not_valid, h.no_config,
    fun hw => (h.leg_inv hw).unread o a d hi lo rcv l e us rs⟩

theorem EngineInv.setInputs (h : EngineInv s) (l : List Turn) : EngineInv (s.setInputs l) :=
  h.unread _ _ _ _ _ _ _ h.port_empty _ _

theorem EngineInv.takeEvent (h : EngineInv s) : EngineInv s.takeEvent :=
  h.unread _ _ _ _ _ _ _ rfl _ _

end Parts

/-! ## The engine's operations keep the invariant (40_bus R123 to R132) -/

section Operations
variable {s : State}

/-- A failing command keeps the invariant: a write leg leaves RXBUF as it was, a read leg clears it
(40_bus R136, R137). -/
theorem Underway.fail (h : Underway s) (hz : ZeroFrom (legFill s) s.rxbuf) {o : CommandOutcome}
    (ho : o ≠ .configError) : EngineInv (s.fail o) := by
  obtain ⟨hl, hf⟩ | ⟨-, hf⟩ := State.fail_cases o s <;> rw [hf]
  · rw [legFill_write hl] at hz
    exact h.rest.complete hz ho
  · have hr : RestInv s.clearRx := ⟨by simp, h.rest.chkerr_lt, h.rest.port_empty, h.rest.not_valid,
      h.rest.no_config⟩
    exact hr.complete (zeroFrom_bufZero _) ho

theorem Underway.judge (h : Underway s) (hz : ZeroFrom (legFill s) s.rxbuf) {v : Verdict}
    {goOn : State → State} (hgo : EngineInv (goOn s)) : EngineInv (s.judge v goOn) := by
  obtain ⟨-, hj⟩ | ⟨-, hj⟩ | ⟨-, hj⟩ := State.judge_cases v goOn s <;> rw [hj]
  · exact hgo
  · exact h.fail hz (by decide)
  · exact h.fail hz (by decide)

/-- The end of a successful command: a read leg has filled exactly `E.n` bytes (40_bus R132). -/
theorem Underway.finish (h : Underway s) (hz : ZeroFrom (legFill s) s.rxbuf) :
    EngineInv s.finish := by
  obtain ⟨hl, hf⟩ | ⟨hl, hf⟩ := State.finish_cases s <;> rw [hf]
  · rw [legFill_write hl] at hz
    exact h.rest.complete hz (by decide)
  · rw [legFill_read hl] at hz
    have hn : (BitVec.ofNat 8 s.n).toNat = s.n := by
      have := h.n_le
      rw [BitVec.toNat_ofNat]; omega
    have hr : RestInv (s.setRxlen (BitVec.ofNat 8 s.n)) :=
      ⟨by rw [State.setRxlen_rxlen, hn]; exact h.n_le, h.rest.chkerr_lt, h.rest.port_empty,
        h.rest.not_valid, h.rest.no_config⟩
    exact hr.complete (by rwa [State.setRxlen_rxlen, hn]) (by decide)

/-- A leg begins with index 0 in START, where the RX state is what it was (40_bus R123). -/
theorem Underway.beginLeg {dir : Leg} {stop : Bool} (h : Underway (s.setLeg dir stop))
    (hz : ZeroFrom s.rxlen.toNat s.rxbuf) : EngineInv (s.beginLeg dir stop) :=
  Underway.engineInv (h.unread _ _ _ _ _) rfl rfl (fun hp => absurd rfl hp) hz

/-- The write leg of WRITE_THEN_READ hands over to a legal read leg (41_composite R161). -/
theorem Underway.chain (h : Underway s) (hop : s.op = .wtr) : Underway (s.setLeg .r true) where
  rest := ⟨h.rest.rxlen_le, h.rest.chkerr_lt, h.rest.port_empty, h.rest.not_valid, h.rest.no_config⟩
  busy := h.busy
  op_decoded := h.op_decoded
  op_leg := .inr hop
  n_count := rfl
  n_le := h.wtr_count hop
  wtr_stop _ := by simp
  wtr_count := h.wtr_count
  own_stop hne := absurd hop hne
  rxlen_zero := h.rxlen_zero

theorem Underway.legDone (h : Underway s) (hz : ZeroFrom (legFill s) s.rxbuf) :
    EngineInv s.legDone := by
  by_cases hc : s.op = .wtr ∧ s.leg = .w
  · obtain ⟨hop, hl⟩ := hc
    rw [State.legDone_chain hop hl]
    rw [legFill_write hl] at hz
    exact (h.chain hop).beginLeg hz
  · rw [State.legDone_finish hc]
    exact h.finish hz

theorem Underway.endLeg (h : Underway s) (hh : s.held = true) (hi : s.idx = s.n)
    (hz : ZeroFrom (legFill s) s.rxbuf) : EngineInv s.endLeg := by
  cases hs : s.stop
  · rw [State.endLeg_noStop hs]
    exact h.legDone hz
  · rw [State.endLeg_stop hs]
    exact Underway.engineInv (h.unread _ _ _ _ _) rfl ⟨hi, hs⟩ (fun _ => hh) hz

/-- A write leg sends its next byte or ends (40_bus R125, R127). -/
theorem Underway.txNext (h : Underway s) (hl : s.leg = .w) (hh : s.held = true) (hi : s.idx ≤ s.n)
    (hz : ZeroFrom (legFill s) s.rxbuf) : EngineInv s.txNext := by
  by_cases hlt : s.idx < s.n
  · rw [State.txNext_more hlt]
    rw [legFill_write hl] at hz
    exact Underway.engineInv (h.unread _ _ _ _ _) rfl ⟨hl, hlt⟩ (fun _ => hh) hz
  · rw [State.txNext_done hlt]
    exact h.endLeg hh (by omega) hz

/-- A read leg awaits its next byte or ends (40_bus R129). -/
theorem Underway.rxNext (h : Underway s) (hl : s.leg = .r) (hh : s.held = true) (hi : s.idx ≤ s.n)
    (hz : ZeroFrom s.idx s.rxbuf) : EngineInv s.rxNext := by
  by_cases hlt : s.idx < s.n
  · rw [State.rxNext_more hlt]
    exact Underway.engineInv (h.unread _ _ _ _ _) rfl ⟨hl, hlt⟩ (fun _ => hh) hz
  · rw [State.rxNext_done hlt]
    exact h.endLeg hh (by omega) (by rw [legFill_read hl]; exact hz.mono hi)

end Operations

/-! ## An event step keeps the invariant (40_bus R122) -/

section Events
variable {s : State}

/-- While a leg runs, no more than its final number of bytes has come in. -/
theorem EngineInv.rxFilled_le_legFill (h : EngineInv s) (hw : s.Waiting) :
    rxFilled s ≤ legFill s := by
  have hi := (h.leg_inv hw).index_ok
  have hz : s.rxlen.toNat ≤ legFill s := by
    cases hl : s.leg with
    | w => exact (legFill_write hl).ge
    | r => simp [(h.underway hw).rxlen_read hl]
  cases hp : s.phase <;> simp only [rxFilled, indexOk, hp] at hi ⊢
  case idle | decode | start | addr | txData => exact hz
  case rxByte | rxAck => rw [legFill_read hi.1]; omega
  case stop => exact le_rfl

theorem EngineInv.zeroFrom_legFill (h : EngineInv s) (hw : s.Waiting) :
    ZeroFrom (legFill s) s.rxbuf :=
  ZeroFrom.mono h.rx_tail (h.rxFilled_le_legFill hw)

theorem EngineInv.onStart (h : EngineInv s) (hp : s.phase = .start) (st : PhyStatus) :
    EngineInv (s.onStart st) := by
  have hw : s.Waiting := waiting_of_phase hp rfl
  have hu := h.underway hw
  have hi := (h.leg_inv hw).index_ok
  have hz : ZeroFrom (rxFilled s) s.rxbuf := h.rx_tail
  rw [indexOk, hp] at hi
  rw [rxFilled, hp] at hz
  exact hu.judge (h.zeroFrom_legFill hw)
    (Underway.engineInv (hu.unread _ _ _ _ _) rfl hi (fun _ => rfl) hz)

theorem EngineInv.onAddr (h : EngineInv s) (hp : s.phase = .addr) (st : PhyStatus) :
    EngineInv (s.onAddr st) := by
  have hw : s.Waiting := waiting_of_phase hp rfl
  have hu := h.underway hw
  have hi := (h.leg_inv hw).index_ok
  have hh := (h.leg_inv hw).held_after_start (by simp [hp])
  have hz := h.zeroFrom_legFill hw
  have hz' : ZeroFrom (rxFilled s) s.rxbuf := h.rx_tail
  rw [indexOk, hp] at hi
  rw [rxFilled, hp] at hz'
  rw [State.onAddr]
  split
  case h_1 hl => exact hu.judge hz (hu.txNext hl hh (by omega) hz)
  case h_2 hl =>
    refine hu.judge hz ?_
    by_cases hn : s.n = 0
    · rw [State.beginReceive_zero hn]
      exact Underway.endLeg (hu.unread _ _ _ _ _) hh (hi.trans hn.symm) hz
    · rw [State.beginReceive_bytes hn]
      rw [hu.rxlen_read hl] at hz'
      exact Underway.engineInv (hu.unread _ _ _ _ _) rfl ⟨hl, hi ▸ Nat.pos_of_ne_zero hn⟩
        (fun _ => hh) (hz'.mono (Nat.zero_le _))

theorem EngineInv.onTxData (h : EngineInv s) (hp : s.phase = .txData) (st : PhyStatus) :
    EngineInv (s.onTxData st) := by
  have hw : s.Waiting := waiting_of_phase hp rfl
  have hu := h.underway hw
  have hi := (h.leg_inv hw).index_ok
  have hh := (h.leg_inv hw).held_after_start (by simp [hp])
  have hz := h.zeroFrom_legFill hw
  rw [indexOk, hp] at hi
  obtain ⟨hl, hlt⟩ := hi
  exact hu.judge hz (Underway.txNext (hu.unread _ _ _ _ _) hl hh hlt hz)

theorem EngineInv.onRxByte (h : EngineInv s) (hp : s.phase = .rxByte) (d : Byte) :
    EngineInv (s.onRxByte d) := by
  have hw : s.Waiting := waiting_of_phase hp rfl
  have hi := (h.leg_inv hw).index_ok
  have hh := (h.leg_inv hw).held_after_start (by simp [hp])
  have hz : ZeroFrom (rxFilled s) s.rxbuf := h.rx_tail
  rw [indexOk, hp] at hi
  rw [rxFilled, hp] at hz
  exact Underway.engineInv ((h.underway hw).unread _ _ _ _ _) rfl hi (fun _ => hh) (hz.bufSet d)

theorem EngineInv.onRxAck (h : EngineInv s) (hp : s.phase = .rxAck) (st : PhyStatus) :
    EngineInv (s.onRxAck st) := by
  have hw : s.Waiting := waiting_of_phase hp rfl
  have hu := h.underway hw
  have hi := (h.leg_inv hw).index_ok
  have hh := (h.leg_inv hw).held_after_start (by simp [hp])
  have hz : ZeroFrom (rxFilled s) s.rxbuf := h.rx_tail
  rw [indexOk, hp] at hi
  rw [rxFilled, hp] at hz
  obtain ⟨hl, hlt⟩ := hi
  exact hu.judge (h.zeroFrom_legFill hw) (Underway.rxNext (hu.unread _ _ _ _ _) hl hh hlt hz)

theorem EngineInv.onStopDone (h : EngineInv s) (hp : s.phase = .stop) :
    EngineInv s.onStopDone := by
  have hw : s.Waiting := waiting_of_phase hp rfl
  exact Underway.legDone ((h.underway hw).unread _ _ _ _ _) (h.zeroFrom_legFill hw)

theorem EngineInv.onEvent (h : EngineInv s) {e : PhyEvent} {t : State}
    (ht : Machine.onEvent e s = .next t) : EngineInv t := by
  obtain ⟨st, hp, -, rfl⟩ | ⟨st, hp, -, rfl⟩ | ⟨st, hp, -, rfl⟩ | ⟨d, hp, -, rfl⟩ |
    ⟨st, hp, -, rfl⟩ | ⟨hp, -, rfl⟩ := onEvent_cases ht
  · exact h.onStart hp st
  · exact h.onAddr hp st
  · exact h.onTxData hp st
  · exact h.onRxByte hp d
  · exact h.onRxAck hp st
  · exact h.onStopDone hp

end Events

end Sys2Proof.Machine

namespace Sys2Proof

/-! ## The command byte and its decoded command -/

/-- A byte is the encoding of the command it decodes to (30_encoding R95). -/
theorem encodeByte_decodeByte (c : Byte) : encodeByte (decodeByte c) = c := by
  revert c; decide

/-- The operation latched from an accepted byte is its command's (30_encoding R92, R95). -/
theorem decodeByte_op (c : Byte) : (decodeByte c).op = decodeOp c := by
  revert c; decide

end Sys2Proof

namespace Sys2Proof.Machine

theorem cmd_of_fetchCommand {s : State} {i : Instr} (h : fetchCommand s = i) :
    s.cmd = encodeByte i := by
  rw [← h, fetchCommand, encodeByte_decodeByte]

/-! ## The decode step keeps the invariant (40_bus R121) -/

/-- The engine is about to run `i`'s case of the decode step: the operation is latched, and nothing
else has happened. -/
structure Latched (i : Instr) (s : State) : Prop where
  rest : RestInv s
  busy : s.busy = true
  op : s.op = i.op
  fetched : fetchCommand s = i
  zero_tail : ZeroFrom s.rxlen.toNat s.rxbuf

section Decoding
variable {i : Instr} {s : State}

theorem EngineInv.latched (h : EngineInv s) (hp : s.phase = .decode) :
    Latched (fetchCommand s) (s.latchOp (fetchCommand s).op) where
  rest := ⟨h.rxlen_le, h.chkerr_lt, h.port_empty, h.not_valid, h.no_config⟩
  busy := h.busy_of_phase (by simp [hp])
  op := rfl
  fetched := rfl
  zero_tail := by
    have hz : ZeroFrom (rxFilled s) s.rxbuf := h.rx_tail
    rwa [rxFilled, hp] at hz

theorem Latched.cmd (h : Latched i s) : s.cmd = encodeByte i := cmd_of_fetchCommand h.fetched

theorem Latched.clearRx (h : Latched i s) : Latched i s.clearRx where
  rest := ⟨by simp, h.rest.chkerr_lt, h.rest.port_empty, h.rest.not_valid, h.rest.no_config⟩
  busy := h.busy
  op := h.op
  fetched := h.fetched
  zero_tail := zeroFrom_bufZero _

theorem Latched.setChkerr (h : Latched i s) {m : Byte} (hm : m.toNat < 4) :
    Latched i (s.setChkerr m) where
  rest := ⟨h.rest.rxlen_le, hm, h.rest.port_empty, h.rest.not_valid, h.rest.no_config⟩
  busy := h.busy
  op := h.op
  fetched := h.fetched
  zero_tail := h.zero_tail

theorem Latched.complete (h : Latched i s) {o : CommandOutcome} (ho : o ≠ .configError) :
    EngineInv (s.complete o) := h.rest.complete h.zero_tail ho

/-- The first leg of a bus command, its count checked and its stop flag the command's own, is
legal. -/
theorem Latched.beginLeg (h : Latched i s) {dir : Leg} {stop : Bool} (hdir : legOfOp i.op dir)
    (hn : s.legCount dir ≤ 8)
    (hwtr : i.op = .wtr → dir = .w ∧ stop = false ∧ s.rxcnt.toNat ≤ 8)
    (hown : i.op ≠ .wtr → stop = stopBit s.cmd)
    (hrx : i.op ≠ .transmit → s.rxlen = 0x00#8) : EngineInv (s.beginLeg dir stop) := by
  refine Underway.beginLeg ?_ h.zero_tail
  exact {
    rest := ⟨h.rest.rxlen_le, h.rest.chkerr_lt, h.rest.port_empty, h.rest.not_valid,
      h.rest.no_config⟩
    busy := h.busy
    op_decoded := by
      change s.op = decodeOp s.cmd
      rw [h.op, ← decodeByte_op]
      exact congrArg Instr.op h.fetched.symm
    op_leg := by rw [← h.op] at hdir; exact hdir
    n_count := rfl
    n_le := hn
    wtr_stop := fun ho => by
      obtain ⟨rfl, rfl, -⟩ := hwtr (h.op.symm.trans ho)
      simp
    wtr_count := fun ho => by
      obtain ⟨-, -, hcount⟩ := hwtr (h.op.symm.trans ho)
      exact hcount
    own_stop := fun ho => hown (by rwa [← h.op])
    rxlen_zero := fun ho => hrx (by rwa [← h.op]) }

theorem Latched.decodeTransmit {stop : Bool} (h : Latched (.transmit stop) s) :
    EngineInv (Machine.decodeTransmit stop s) := by
  rw [Machine.decodeTransmit]
  split
  case isTrue hc =>
    exact h.beginLeg (.inl rfl) ((countOk_iff _).mp hc) (fun ho => by cases ho)
      (fun _ => by rw [h.cmd]; exact (stopBit_lowNibbleByte stop _).symm)
      (fun ho => absurd rfl ho)
  case isFalse => exact h.complete (by decide)

theorem Latched.decodeReceive {stop : Bool} (h : Latched (.receive stop) s) :
    EngineInv (Machine.decodeReceive stop s) := by
  rw [Machine.decodeReceive]
  split
  case isTrue hc =>
    exact h.clearRx.beginLeg (.inl rfl) ((countOk_iff _).mp hc) (fun ho => by cases ho)
      (fun _ => by rw [h.clearRx.cmd]; exact (stopBit_lowNibbleByte stop _).symm) (fun _ => rfl)
  case isFalse => exact h.complete (by decide)

theorem Latched.decodeWriteThenRead {x : Bool} (h : Latched (.writeThenRead x) s) :
    EngineInv (Machine.decodeWriteThenRead s) := by
  rw [Machine.decodeWriteThenRead]
  split
  case isTrue hc =>
    rw [Bool.and_eq_true, countOk_iff, countOk_iff] at hc
    obtain ⟨htx, hrx⟩ := hc
    exact h.clearRx.beginLeg (.inr rfl) htx (fun _ => ⟨rfl, rfl, hrx⟩) (fun ho => absurd rfl ho)
      (fun _ => rfl)
  case isFalse => exact h.complete (by decide)

/-- The mask of the first `k` groups has no bit at `k` or above (42_checksum R186). -/
theorem mismatchMask_lt (f : Word → Byte) (b : Buffer) (k : Nat) :
    (mismatchMask f b k).toNat < 2 ^ k := by
  induction k with
  | zero => simp [mismatchMask]
  | succ k ih =>
    have hbit : (if groupBad f b k then groupBit k else 0x00#8).toNat < 2 ^ (k + 1) := by
      split
      · calc (groupBit k).toNat ≤ 2 ^ k := by
              rw [groupBit, BitVec.toNat_shiftLeft, Nat.shiftLeft_eq]
              exact (Nat.mod_le _ _).trans (by simp)
          _ < 2 ^ (k + 1) := by rw [Nat.pow_succ]; have := Nat.two_pow_pos k; omega
      · simp
    rw [mismatchMask, BitVec.toNat_or]
    exact Nat.or_lt_two_pow (ih.trans (by rw [Nat.pow_succ]; omega)) hbit

/-- At most two groups fit in RXBUF, so CHKERR gets bits 1:0 only (10_state R49 (d)). -/
theorem mismatchMask_lt_four (f : Word → Byte) (b : Buffer) {k : Nat} (h : k ≤ 2) :
    (mismatchMask f b k).toNat < 4 :=
  (mismatchMask_lt f b k).trans_le (Nat.pow_le_pow_right (by decide) h)

theorem Latched.verifyWith (h : Latched i s) (f : Word → Byte) :
    EngineInv (Machine.verifyWith f s) := by
  have hlen := h.rest.rxlen_le
  have hmask : (mismatchMask f s.rxbuf (s.rxlen.toNat / 3)).toNat < 4 :=
    mismatchMask_lt_four f _ (by omega)
  rw [Machine.verifyWith]
  split
  · exact (h.setChkerr (by decide)).complete (by decide)
  · split
    · exact (h.setChkerr (by decide)).complete (by decide)
    · rw [verdictOfMask]
      split
      · exact (h.setChkerr hmask).complete (by decide)
      · exact (h.setChkerr hmask).clearRx.complete (by decide)

theorem Latched.decodeCase (h : Latched i s) : EngineInv (Machine.decodeCase i s) := by
  cases i with
  | transmit stop => exact h.decodeTransmit
  | receive stop => exact h.decodeReceive
  | writeThenRead x => exact h.decodeWriteThenRead
  | verify x => exact h.verifyWith Config.checkFn
  | _ => exact h.complete (by decide)

end Decoding

/-! ## The host's accesses keep the invariant (20_memory R62 to R64) -/

section HostAccesses
variable {s : State}

/-- While the block is idle the host may change the counts: no leg reads them. -/
theorem EngineInv.idleCounts (h : EngineInv s) (hb : s.busy = false) (tx rx : Byte) :
    EngineInv { s with txlen := tx, rxcnt := rx } :=
  ⟨h.busy_iff, h.rxlen_le, h.chkerr_lt, h.rx_tail, h.port_empty, h.not_valid, h.no_config,
    fun hw => absurd (h.phase_of_notBusy hb) hw.phase_ne_idle⟩

/-- An accepted command keeps the RX state for its decode step (40_bus R120). -/
theorem EngineInv.accept (h : EngineInv s) (hb : s.busy = false) (c : Byte) :
    EngineInv (s.accept c) := by
  have hz : ZeroFrom (rxFilled s) s.rxbuf := h.rx_tail
  rw [rxFilled, h.phase_of_notBusy hb] at hz
  exact ⟨by simp, h.rxlen_le, h.chkerr_lt, hz, h.port_empty, h.not_valid, h.no_config,
    fun hw => by cases hw⟩

theorem EngineInv.writeWhenIdle (h : EngineInv s) {w : State → State}
    (hw : s.busy = false → EngineInv (w s)) : EngineInv (Machine.writeWhenIdle w s) := by
  cases hb : s.busy
  · rw [writeWhenIdle_idle hb]
    exact hw hb
  · rw [writeWhenIdle_busy hb]
    exact h.unread _ _ _ _ _ _ _ h.port_empty _ _

theorem EngineInv.writeReg (h : EngineInv s) (r : Reg) (v : Byte) :
    EngineInv (Machine.writeReg r v s) := by
  cases r with
  | cmd => exact h.writeWhenIdle fun hb => h.accept hb v
  | txlen => exact h.writeWhenIdle fun hb => h.idleCounts hb v s.rxcnt
  | rxcnt => exact h.writeWhenIdle fun hb => h.idleCounts hb s.txlen v
  | addr | txbuf i => exact h.writeWhenIdle fun _ => h.unread _ _ _ _ _ _ _ h.port_empty _ _
  | status | ckhi | cklo | ckrcv => exact h.unread _ _ _ _ _ _ _ h.port_empty _ _
  | _ => exact h

theorem EngineInv.hostAccess (h : EngineInv s) {a : HostAccess} {t : State}
    (ht : Machine.hostAccess a s = .next t) : EngineInv t := by
  obtain ⟨-, off, -, ⟨-, rfl⟩ | ⟨v, -, rfl⟩⟩ := hostAccess_cases ht
  · exact h.unread _ _ _ _ _ _ _ h.port_empty _ _
  · exact h.writeReg _ v

end HostAccesses

/-! ## The invariant of every run -/

theorem engineInv_reset : EngineInv State.reset where
  busy_iff := by decide
  rxlen_le := by decide
  chkerr_lt := by decide
  rx_tail := zeroFrom_bufZero _
  port_empty := rfl
  not_valid _ := rfl
  no_config := by decide
  leg_inv hw := by cases hw

theorem engineInv_applyReset (s : State) : EngineInv (applyReset s) :=
  engineInv_reset.unread _ _ _ _ _ _ _ rfl _ _

theorem EngineInv.step {s t : State} (h : EngineInv s) (ht : Machine.step s = .next t) :
    EngineInv t := by
  obtain ⟨rest, -, ⟨hp, rfl⟩ | ⟨-, rfl⟩ | ⟨-, e, he⟩ | ⟨a, -, ha⟩ | ⟨-, rfl⟩⟩ := step_cases ht
  · exact ((h.setInputs rest).latched hp).decodeCase
  · exact h.setInputs rest
  · exact (h.setInputs rest).takeEvent.onEvent he
  · exact (h.setInputs rest).hostAccess ha
  · exact engineInv_applyReset _

/-- Settles O39: every field of the reset value, one by one. -/
theorem invariantAtReset : Obligations.InvariantAtReset := engineInv_reset

/-- Settles O40: each of the five kinds of step keeps the invariant, by its own lemma. -/
theorem stepKeepsInvariant : Obligations.StepKeepsInvariant := fun _ _ h ht => h.step ht

end Sys2Proof.Machine

namespace Sys2Proof.Machine

/-! ## What an event step comes to

Each event step first does something to HELD, the index, RXBUF and the trace, and then goes on,
begins the read leg, finishes or fails. The facts about OUTCOME, VALID, RXLEN and the trace follow
from this alone. -/

/-- `m` is `s` in the middle of an event step: the trace may have grown, and the fields that only
the step's end writes are what they were. -/
structure Midway (s m : State) : Prop where
  phase : m.phase = s.phase
  busy : m.busy = s.busy
  valid : m.valid = s.valid
  outcome : m.outcome = s.outcome
  rxlen : m.rxlen = s.rxlen
  leg : m.leg = s.leg
  n : m.n = s.n
  trace : s.trace <+: m.trace

/-- How an event step ends, from the state in its middle. -/
inductive EventEnd (m : State) : State → Prop
  | goesOn (p : Phase) (hp : p ≠ .idle) : EventEnd m (m.goto p)
  | chains : EventEnd m (m.beginLeg .r true)
  | finishes : EventEnd m m.finish
  | fails (o : CommandOutcome) (ho : o = .ackError ∨ o = .busError) : EventEnd m (m.fail o)

/-- `t` is a result an event step may have from `s`. -/
def EventResult (s t : State) : Prop := ∃ m, Midway s m ∧ EventEnd m t

namespace Midway

theorem refl (s : State) : Midway s s :=
  ⟨rfl, rfl, rfl, rfl, rfl, rfl, rfl, ⟨[], List.append_nil _⟩⟩

theorem trans {s m u : State} (h : Midway s m) (h' : Midway m u) : Midway s u :=
  ⟨h'.phase.trans h.phase, h'.busy.trans h.busy, h'.valid.trans h.valid,
    h'.outcome.trans h.outcome, h'.rxlen.trans h.rxlen, h'.leg.trans h.leg, h'.n.trans h.n,
    h.trace.trans h'.trace⟩

theorem issue (a : PhyAction) (s : State) : Midway s (s.issue a) :=
  ⟨rfl, rfl, rfl, rfl, rfl, rfl, rfl, ⟨_, rfl⟩⟩

theorem storeRx (d : Byte) (s : State) : Midway s (s.storeRx d) :=
  ⟨rfl, rfl, rfl, rfl, rfl, rfl, rfl, ⟨_, rfl⟩⟩

theorem setHeld (b : Bool) (s : State) : Midway s (s.setHeld b) :=
  ⟨rfl, rfl, rfl, rfl, rfl, rfl, rfl, ⟨[], List.append_nil _⟩⟩

theorem nextIndex (s : State) : Midway s s.nextIndex :=
  ⟨rfl, rfl, rfl, rfl, rfl, rfl, rfl, ⟨[], List.append_nil _⟩⟩

theorem result {s m t : State} (h : Midway s m) : EventResult m t → EventResult s t
  | ⟨u, hu, ht⟩ => ⟨u, h.trans hu, ht⟩

theorem goesOn {s m : State} (h : Midway s m) {p : Phase} (hp : p ≠ .idle) :
    EventResult s (m.goto p) := ⟨m, h, .goesOn p hp⟩

end Midway

namespace EventResult
variable (s : State)

theorem legDone : EventResult s s.legDone := by
  by_cases h : s.op = .wtr ∧ s.leg = .w
  · rw [State.legDone_chain h.1 h.2]
    exact ⟨s, .refl s, .chains⟩
  · rw [State.legDone_finish h]
    exact ⟨s, .refl s, .finishes⟩

theorem endLeg : EventResult s s.endLeg := by
  cases h : s.stop
  · rw [State.endLeg_noStop h]
    exact legDone s
  · rw [State.endLeg_stop h]
    exact (Midway.issue _ s).goesOn (by decide)

theorem txNext : EventResult s s.txNext := by
  by_cases h : s.idx < s.n
  · rw [State.txNext_more h]
    exact (Midway.issue _ s).goesOn (by decide)
  · rw [State.txNext_done h]
    exact endLeg s

theorem rxNext : EventResult s s.rxNext := by
  by_cases h : s.idx < s.n
  · rw [State.rxNext_more h]
    exact (Midway.refl s).goesOn (by decide)
  · rw [State.rxNext_done h]
    exact endLeg s

theorem beginReceive : EventResult s s.beginReceive := by
  by_cases h : s.n = 0
  · rw [State.beginReceive_zero h]
    exact (Midway.issue _ s).result (endLeg _)
  · rw [State.beginReceive_bytes h]
    exact (Midway.refl s).goesOn (by decide)

variable {s}

theorem judge {v : Verdict} {goOn : State → State} (h : EventResult s (goOn s)) :
    EventResult s (s.judge v goOn) := by
  obtain ⟨-, hj⟩ | ⟨-, hj⟩ | ⟨-, hj⟩ := State.judge_cases v goOn s <;> rw [hj]
  · exact h
  · exact ⟨s, .refl s, .fails _ (.inl rfl)⟩
  · exact ⟨s, .refl s, .fails _ (.inr rfl)⟩

theorem onAddr (st : PhyStatus) : EventResult s (s.onAddr st) := by
  rw [State.onAddr]
  split
  · exact (txNext s).judge
  · exact (beginReceive s).judge

/-- Every event step comes to such a result (40_bus R122). -/
theorem of_onEvent {e : PhyEvent} {t : State} (h : onEvent e s = .next t) : EventResult s t := by
  obtain ⟨st, -, -, rfl⟩ | ⟨st, -, -, rfl⟩ | ⟨st, -, -, rfl⟩ | ⟨d, -, -, rfl⟩ | ⟨st, -, -, rfl⟩ |
    ⟨-, -, rfl⟩ := onEvent_cases h
  · exact judge (((Midway.setHeld true s).trans (.issue _ _)).goesOn (by decide))
  · exact onAddr st
  · exact judge ((Midway.nextIndex s).result (txNext _))
  · exact ((Midway.storeRx d s).trans (.issue _ _)).goesOn (by decide)
  · exact judge ((Midway.nextIndex s).result (rxNext _))
  · exact (Midway.setHeld false s).result (legDone _)

end EventResult

/-! ## What a decode step comes to -/

/-- The decode step begins a leg or completes the command; only VERIFY writes CHKERR, and only a
read command's start and a failed check clear the RX state (40_bus R121, 42_checksum R182). -/
theorem decodeCase_cases (i : Instr) (s : State) :
    (∃ stop, decodeCase i s = s.beginLeg .w stop) ∨
    ((i.op = .receive ∨ i.op = .wtr) ∧
      ∃ dir stop, decodeCase i s = s.clearRx.beginLeg dir stop) ∨
    decodeCase i s = s.complete .paramError ∨
    (i.op = .verify ∧ ∃ m o, decodeCase i s = (s.setChkerr m).complete o) ∨
    (i.op = .verify ∧
      ∃ m, decodeCase i s = (s.setChkerr m).clearRx.complete .checksumError) := by
  cases i with
  | transmit stop =>
    rw [decodeCase, decodeTransmit]
    split
    · exact .inl ⟨stop, rfl⟩
    · exact .inr (.inr (.inl rfl))
  | receive stop =>
    rw [decodeCase, decodeReceive]
    split
    · exact .inr (.inl ⟨.inl rfl, .r, stop, rfl⟩)
    · exact .inr (.inr (.inl rfl))
  | writeThenRead x =>
    rw [decodeCase, decodeWriteThenRead]
    split
    · exact .inr (.inl ⟨.inr rfl, .w, false, rfl⟩)
    · exact .inr (.inr (.inl rfl))
  | verify x =>
    rw [decodeCase, verifyWith]
    split
    · exact .inr (.inr (.inr (.inl ⟨rfl, _, _, rfl⟩)))
    · split
      · exact .inr (.inr (.inr (.inl ⟨rfl, _, _, rfl⟩)))
      · rw [verdictOfMask]
        split
        · exact .inr (.inr (.inr (.inl ⟨rfl, _, _, rfl⟩)))
        · exact .inr (.inr (.inr (.inr ⟨rfl, _, rfl⟩)))
  | _ => exact .inr (.inr (.inl rfl))

/-! ## What a host write comes to (20_memory R63, R64) -/

/-- The offsets whose writes are dropped while BUSY = 1 (20_memory R64). -/
def droppedOffsets : List Offset :=
  [0x00#5, 0x03#5, 0x04#5, 0x05#5, 0x08#5, 0x09#5, 0x0A#5, 0x0B#5, 0x0C#5, 0x0D#5, 0x0E#5, 0x0F#5]

theorem txbuf_offset_dropped : ∀ i : Fin 8, (Reg.txbuf i).offset ∈ droppedOffsets := by decide

section HostWrites
variable (off : Offset) (v : Byte) (s : State)

/-- A host write accepts the byte as a command, or leaves BUSY, the phase and CMD as they are. -/
theorem memWrite_cases :
    (off = 0x00#5 ∧ s.busy = false ∧ memWrite off v s = s.accept v) ∨
    ((memWrite off v s).busy = s.busy ∧ (memWrite off v s).phase = s.phase ∧
      (memWrite off v s).cmd = s.cmd) := by
  by_cases hb : s.busy = true
  · exact .inr ⟨memWrite_busy_busy off v hb, memWrite_phase_busy off v hb,
      memWrite_cmd_busy off v hb⟩
  · have hb : s.busy = false := by simpa using hb
    have hoff := offset_ofOffset off
    rw [memWrite]
    cases hr : Reg.ofOffset off <;> rw [writeReg]
    case cmd =>
      rw [hr] at hoff
      exact .inl ⟨hoff.symm, hb, writeWhenIdle_idle hb⟩
    case addr | txlen | rxcnt | txbuf =>
      rw [writeWhenIdle_idle hb]
      exact .inr ⟨rfl, rfl, rfl⟩
    all_goals exact .inr ⟨rfl, rfl, rfl⟩

/-- A write that is done only while idle can change OVR by being dropped only. -/
theorem writeWhenIdle_ovr {w : State → State} {s : State} (hw : (w s).ovr = s.ovr)
    (h : (writeWhenIdle w s).ovr ≠ s.ovr) : s.busy = true ∧ writeWhenIdle w s = s.drop := by
  cases hb : s.busy
  · rw [writeWhenIdle_idle hb] at h
    exact absurd hw h
  · exact ⟨rfl, writeWhenIdle_busy hb⟩

/-- The two ways a host write changes OVR: it is dropped, or it clears OVR (10_state R25). -/
theorem memWrite_ovr_cases (h : (memWrite off v s).ovr ≠ s.ovr) :
    (s.busy = true ∧ off ∈ droppedOffsets ∧ memWrite off v s = s.drop) ∨
    (off = 0x01#5 ∧ v.getLsbD 2 = true ∧ memWrite off v s = s.setOvr false) := by
  have hoff := offset_ofOffset off
  rw [memWrite] at h ⊢
  cases hr : Reg.ofOffset off <;> rw [hr] at h hoff <;> rw [← hoff]
  case status =>
    cases hv : v.getLsbD 2
    · rw [writeReg, ovrAfterStatusWrite, hv] at h
      exact absurd rfl h
    · refine .inr ⟨rfl, rfl, ?_⟩
      rw [writeReg, ovrAfterStatusWrite, hv]
      rfl
  case txbuf i =>
    obtain ⟨hb, hd⟩ := writeWhenIdle_ovr rfl h
    exact .inl ⟨hb, txbuf_offset_dropped i, hd⟩
  case cmd | addr | txlen | rxcnt =>
    obtain ⟨hb, hd⟩ := writeWhenIdle_ovr rfl h
    exact .inl ⟨hb, by decide, hd⟩
  all_goals exact absurd rfl h

end HostWrites

/-! ## The steps that are no reset -/

/-- A step whose turn is not the reset is a decode step, no step at all, an event step or a host
access, of the state with the turn off the list. -/
theorem step_cases_noReset {s t : State} (hr : ∀ rest, s.inputs ≠ .reset :: rest)
    (h : step s = .next t) : ∃ rest,
    (s.phase = .decode ∧ t = decodeCase (fetchCommand s)
        ((s.setInputs rest).latchOp (fetchCommand s).op)) ∨
    t = s.setInputs rest ∨
    (s.Waiting ∧ ∃ e, onEvent e (s.setInputs rest).takeEvent = .next t) ∨
    (∃ a, s.inputs = .host a :: rest ∧ hostAccess a (s.setInputs rest) = .next t) := by
  obtain ⟨rest, -, hd | ⟨-, hs⟩ | he | ha | ⟨hi, -⟩⟩ := step_cases h
  · exact ⟨rest, .inl hd⟩
  · exact ⟨rest, .inr (.inl hs)⟩
  · exact ⟨rest, .inr (.inr (.inl he))⟩
  · exact ⟨rest, .inr (.inr (.inr ha))⟩
  · exact absurd hi (hr rest)

/-- A step that resets is the reset step (70_reset R240). -/
theorem step_reset {s : State} {rest : List Turn} (h : s.inputs = .reset :: rest) :
    step s = .next (applyReset (s.setInputs rest)) := by
  rw [step_turn h]; rfl

theorem step_host {s : State} {a : HostAccess} {rest : List Turn} (h : s.inputs = .host a :: rest) :
    step s = hostAccess a (s.setInputs rest) := by
  rw [step_turn h]; rfl

end Sys2Proof.Machine

namespace Sys2Proof.Machine

/-! ## Reset values (10_state R47) -/

/-- Settles O6: the fields hold by definition; the two checker registers are computed from the zero
word by the open checksum function, whatever it is. -/
theorem resetValues : Obligations.ResetValues := by
  have hbuf : ∀ i < 8, bufGet State.reset.txbuf i = 0x00#8 ∧ bufGet State.reset.rxbuf i = 0x00#8 :=
    fun i _ => ⟨bufGet_bufZero i, bufGet_bufZero i⟩
  exact ⟨rfl, rfl, rfl, rfl, rfl, rfl, rfl, rfl, rfl, rfl, rfl, rfl, hbuf, rfl, rfl, rfl, rfl, rfl,
    rfl, rfl, rfl, rfl, rfl, rfl, rfl⟩

/-! ## The PHY contract (10_state R44) -/

/-- The kind of event each phase expects, as 10_state R44 lists it. -/
theorem fits_iff (e : PhyEvent) (p : Phase) : e.fits p = true ↔
    (((p = .start ∨ p = .addr ∨ p = .txData ∨ p = .rxAck) ∧ ∃ st, e = .done st) ∨
      (p = .rxByte ∧ ∃ d, e = .byte d) ∨ (p = .stop ∧ e = .stopDone)) := by
  cases p <;> cases e <;> simp [PhyEvent.fits]

section Contract
variable {s : State} {e : PhyEvent}

/-- An event that fits has the step of its phase. -/
theorem onEvent_of_fits (h : e.fits s.phase = true) : ∃ t, onEvent e s = .next t := by
  obtain ⟨hp | hp | hp | hp, st, rfl⟩ | ⟨hp, d, rfl⟩ | ⟨hp, rfl⟩ := (fits_iff e s.phase).mp h <;>
    exact ⟨_, by simp only [onEvent, hp]; rfl⟩

theorem onEvent_of_not_fits (h : e.fits s.phase = false) : onEvent e s = .refused .phyContract := by
  unfold onEvent
  split
  case h_7 => rfl
  all_goals next hp => simp [PhyEvent.fits, hp] at h

/-- Only a waiting phase expects an event. -/
theorem waiting_of_fits (h : e.fits s.phase = true) : s.Waiting := by
  obtain ⟨hp | hp | hp | hp, -⟩ | ⟨hp, -⟩ | ⟨hp, -⟩ := (fits_iff e s.phase).mp h <;>
    exact waiting_of_phase hp rfl

theorem phyTurn_of_fits (h : e.fits s.phase = true) : ∃ t, phyTurn e s = .next t := by
  rw [phyTurn_event e (waiting_of_fits h)]
  exact onEvent_of_fits h

theorem phyTurn_of_not_fits (h : e.fits s.phase = false) :
    phyTurn e s = .refused .phyContract := by
  by_cases hw : s.Waiting
  · rw [phyTurn_event e hw]
    exact onEvent_of_not_fits h
  · exact phyTurn_refused e hw

end Contract

/-- Settles O15: an event's turn answers a state where the event fits the phase, and is refused
otherwise. -/
theorem eventsOnlyWhereExpected : Obligations.EventsOnlyWhereExpected := by
  intro s e rest hi
  have hstep : step s = phyTurn e (s.setInputs rest) := step_turn hi
  rw [← fits_iff, hstep]
  cases hf : e.fits s.phase
  · exact .inr ⟨by simp, phyTurn_of_not_fits hf⟩
  · exact .inl ⟨rfl, phyTurn_of_fits hf⟩

/-! ## The stated facts of the invariant (10_state R48, R49) -/

/-- The bits of a small number from `k` on are zero. -/
theorem extractLsb'_eq_zero_of_lt {w : Nat} {x : BitVec w} {k : Nat} (h : x.toNat < 2 ^ k)
    (m : Nat) :
    x.extractLsb' k m = 0#m := by
  apply BitVec.eq_of_toNat_eq
  rw [BitVec.extractLsb'_toNat, Nat.shiftRight_eq_div_pow, Nat.div_eq_of_lt h]
  simp

theorem code_lt (o : CommandOutcome) : o.code.toNat < 2 ^ 3 := by cases o <;> decide

theorem statusNibble_eq_zero : ∀ h o v b : Bool, (0b0000#4 ++ BitVec.ofBool h ++ BitVec.ofBool o ++
    BitVec.ofBool v ++ BitVec.ofBool b).extractLsb' 4 4 = 0#4 := by decide

theorem matchByte_lt (c r : Byte) : (matchByte c r).toNat < 2 ^ 1 := by
  rw [matchByte]
  split <;> decide

theorem memRead_rxbuf {i : Nat} (hi : i < 8) (s : State) :
    memRead (BitVec.ofNat 5 (0x10 + i)) s = bufGet s.rxbuf i := by
  have hr : Reg.ofOffset (BitVec.ofNat 5 (0x10 + i)) = .rxbuf ⟨i, hi⟩ :=
    ofOffset_offset (.rxbuf ⟨i, hi⟩)
  rw [memRead, hr]; rfl

/-- Settles O41: each fact is a field of the invariant, read through the register that holds it. -/
theorem invariantGivesStatedFacts : Obligations.InvariantGivesStatedFacts := by
  intro s h
  refine ⟨h.busy_iff, h.rxlen_le, ?index, extractLsb'_eq_zero_of_lt (code_lt s.outcome) 5,
    statusNibble_eq_zero s.held s.ovr s.valid s.busy, ?addr,
    extractLsb'_eq_zero_of_lt (k := 2) h.chkerr_lt 6,
    extractLsb'_eq_zero_of_lt (matchByte_lt _ _) 7,
    ?tail⟩
  case index =>
    intro hp
    have hl : LegInv s :=
      h.leg_inv (by rcases hp with hp | hp | hp <;> exact waiting_of_phase hp rfl)
    have hi := hl.index_ok
    rcases hp with hp | hp | hp <;> rw [indexOk, hp] at hi <;> exact ⟨hi.2.le, hl.n_le⟩
  case addr =>
    have hlt : (s.addr.setWidth 8).toNat < 2 ^ 7 := by
      rw [BitVec.toNat_setWidth_of_le (by decide)]
      exact s.addr.isLt
    exact extractLsb'_eq_zero_of_lt hlt 1
  case tail =>
    intro hb i hi hlen
    rw [memRead_rxbuf hi]
    exact h.rx_tail i hi (by rwa [rxFilled, h.phase_of_notBusy hb])

/-! ## The life of a command: OUTCOME and VALID (10_state R24, R27) -/

/-- A command has completed (60_exceptions R214). -/
structure Ended (t : State) : Prop where
  phase : t.phase = .idle
  valid : t.valid = true
  busy : t.busy = false

/-- A step that completes no command: OUTCOME and VALID stay, and no command in progress is lost. -/
structure KeepsOn (s t : State) : Prop where
  outcome : t.outcome = s.outcome
  valid : t.valid = s.valid
  phase : s.phase ≠ .idle → t.phase ≠ .idle
  busy : s.busy = true → t.busy = true

theorem ended_complete (o : CommandOutcome) (s : State) : Ended (s.complete o) := ⟨rfl, rfl, rfl⟩

theorem ended_fail (o : CommandOutcome) (s : State) : Ended (s.fail o) := by
  obtain ⟨-, h⟩ | ⟨-, h⟩ := State.fail_cases o s <;> rw [h] <;> exact ended_complete _ _

theorem ended_finish (s : State) : Ended s.finish := by
  obtain ⟨-, h⟩ | ⟨-, h⟩ := State.finish_cases s <;> rw [h] <;> exact ended_complete _ _

theorem EventResult.lifecycle {s t : State} (h : EventResult s t) : KeepsOn s t ∨ Ended t := by
  obtain ⟨m, hm, hend⟩ := h
  cases hend with
  | goesOn p hp => exact .inl ⟨hm.outcome, hm.valid, fun _ => hp, fun hb => hm.busy.trans hb⟩
  | chains => exact .inl ⟨hm.outcome, hm.valid, fun _ => by simp, fun hb => hm.busy.trans hb⟩
  | finishes => exact .inr (ended_finish m)
  | fails o ho => exact .inr (ended_fail o m)

theorem decodeCase_lifecycle (i : Instr) (s : State) :
    KeepsOn s (decodeCase i s) ∨ Ended (decodeCase i s) := by
  obtain ⟨stop, h⟩ | ⟨-, dir, stop, h⟩ | h | ⟨-, m, o, h⟩ | ⟨-, m, h⟩ := decodeCase_cases i s <;>
    rw [h]
  · exact .inl ⟨rfl, rfl, fun _ => by simp, fun hb => hb⟩
  · exact .inl ⟨rfl, rfl, fun _ => by simp, fun hb => hb⟩
  all_goals exact .inr (ended_complete _ _)

theorem hostAccess_keepsOn {a : HostAccess} {s t : State} (h : hostAccess a s = .next t) :
    KeepsOn s t := by
  obtain ⟨-, off, -, ⟨-, rfl⟩ | ⟨v, -, rfl⟩⟩ := hostAccess_cases h
  · exact ⟨rfl, rfl, id, id⟩
  · refine ⟨memWrite_outcome off v s, memWrite_valid off v s, ?_, ?_⟩ <;>
      obtain ⟨-, -, hw⟩ | ⟨hb, hp, -⟩ := memWrite_cases off v s
    · simp [hw]
    · simp [hp]
    · simp [hw]
    · simp [hb]

/-- Every step but reset completes the running command or keeps on (60_exceptions R214, R218). -/
theorem step_lifecycle {s t : State} (hr : ∀ rest, s.inputs ≠ .reset :: rest)
    (h : step s = .next t) : KeepsOn s t ∨ (s.phase ≠ .idle ∧ Ended t) := by
  obtain ⟨rest, ⟨hp, rfl⟩ | rfl | ⟨hw, e, he⟩ | ⟨a, -, ha⟩⟩ := step_cases_noReset hr h
  · obtain hk | hd := decodeCase_lifecycle (fetchCommand s)
      ((s.setInputs rest).latchOp (fetchCommand s).op)
    · exact .inl ⟨hk.outcome, hk.valid, hk.phase, hk.busy⟩
    · exact .inr ⟨by simp [hp], hd⟩
  · exact .inl ⟨rfl, rfl, id, id⟩
  · obtain hk | hd := (EventResult.of_onEvent he).lifecycle
    · exact .inl ⟨hk.outcome, hk.valid, hk.phase, hk.busy⟩
    · exact .inr ⟨hw.phase_ne_idle, hd⟩
  · have hk := hostAccess_keepsOn ha
    exact .inl ⟨hk.outcome, hk.valid, hk.phase, hk.busy⟩

/-- Settles O43: a step that keeps on leaves OUTCOME, so one that changes it completes the command.
-/
theorem outcomeWrittenByCompletionOnly : Obligations.OutcomeWrittenByCompletionOnly := by
  intro s t hr h
  obtain hk | ⟨hp, hd⟩ := step_lifecycle hr h
  · exact ⟨fun ho => absurd hk.outcome ho, fun hs ht => absurd ht (hk.phase hs),
      fun hs ht => by simp [hk.busy hs] at ht⟩
  · exact ⟨fun _ => ⟨hp, hd.phase, hd.valid, hd.busy⟩, fun _ _ => ⟨hd.valid, hd.busy⟩,
      fun _ _ => ⟨hd.phase, hd.valid⟩⟩

/-- Settles O44: completion sets VALID and nothing but reset clears it; the invariant keeps OUTCOME
at its reset value until then. -/
theorem validMarksOutcome : Obligations.ValidMarksOutcome := by
  refine ⟨rfl, ?reset, ?unset, ?steps⟩
  case reset =>
    intro s t rest hi h
    rw [step_reset hi] at h
    cases h; rfl
  case unset =>
    intro s h hv
    change s.outcome.code = 0x00#8
    rw [h.not_valid hv]; rfl
  case steps =>
    intro s t hr h
    obtain hk | ⟨hp, hd⟩ := step_lifecycle hr h
    · exact ⟨fun hv => hk.valid.trans hv, fun hs ht => by simp [hk.valid, hs] at ht,
        fun hs ht => absurd ht (hk.phase hs)⟩
    · exact ⟨fun _ => hd.valid, fun _ _ => ⟨hp, hd.phase⟩, fun _ _ => hd.valid⟩

end Sys2Proof.Machine

namespace Sys2Proof.Machine

/-! ## CHKERR (10_state R32) -/

theorem verify_of_op {i : Instr} (h : i.op = .verify) : ∃ x, i = .verify x := by
  cases i with
  | verify x => exact ⟨x, rfl⟩
  | _ => cases h

/-- Settles O46: an event step and a host write keep CHKERR, and so does the decode step of every
command but VERIFY. -/
theorem chkerrWrittenByVerifyOnly : Obligations.ChkerrWrittenByVerifyOnly := by
  intro s t hr h hne
  obtain ⟨rest, ⟨hp, rfl⟩ | rfl | ⟨-, e, he⟩ | ⟨a, -, ha⟩⟩ := step_cases_noReset hr h
  · by_cases hop : (fetchCommand s).op = .verify
    · obtain ⟨x, hx⟩ := verify_of_op hop
      exact ⟨hp, x, cmd_of_fetchCommand hx⟩
    · exact absurd (decodeCase_chkerr hop _) hne
  · exact absurd rfl hne
  · exact absurd (EngineFrame.onEvent he).chkerr hne
  · obtain ⟨-, off, -, ⟨-, rfl⟩ | ⟨v, -, rfl⟩⟩ := hostAccess_cases ha
    · exact absurd rfl hne
    · exact absurd (memWrite_chkerr off v _) hne

/-! ## RXLEN (10_state R31) -/

/-- RXLEN after an event step: a read leg that finishes declares its bytes, one that fails has
none. -/
theorem EventResult.rxlen {s t : State} (h : EventResult s t) (hne : t.rxlen ≠ s.rxlen) :
    s.leg = .r ∧ t.phase = .idle ∧
      ((t.outcome = .success ∧ t.rxlen = BitVec.ofNat 8 s.n) ∨
        ((t.outcome = .ackError ∨ t.outcome = .busError) ∧ t.rxlen = 0x00#8)) := by
  obtain ⟨m, hm, hend⟩ := h
  cases hend with
  | goesOn p hp => exact absurd hm.rxlen hne
  | chains => exact absurd hm.rxlen hne
  | finishes =>
    obtain ⟨-, hf⟩ | ⟨hl, hf⟩ := State.finish_cases m <;> rw [hf] at hne ⊢
    · exact absurd hm.rxlen hne
    · exact ⟨hm.leg.symm.trans hl, rfl, .inl ⟨rfl, by simp [hm.n]⟩⟩
  | fails o ho =>
    obtain ⟨-, hf⟩ | ⟨hl, hf⟩ := State.fail_cases o m <;> rw [hf] at hne ⊢
    · exact absurd hm.rxlen hne
    · exact ⟨hm.leg.symm.trans hl, rfl, .inr ⟨ho, rfl⟩⟩

/-- RXLEN after a decode step: cleared by the start of a read command and by a failed check. -/
theorem decodeCase_rxlen {i : Instr} {s : State} (hne : (decodeCase i s).rxlen ≠ s.rxlen) :
    (decodeCase i s).rxlen = 0x00#8 ∧
      (((i.op = .receive ∨ i.op = .wtr) ∧ (decodeCase i s).phase = .start) ∨
        (i.op = .verify ∧ (decodeCase i s).outcome = .checksumError)) := by
  obtain ⟨stop, h⟩ | ⟨hop, dir, stop, h⟩ | h | ⟨-, m, o, h⟩ | ⟨hop, m, h⟩ :=
    decodeCase_cases i s <;> rw [h] at hne ⊢
  · exact absurd rfl hne
  · exact ⟨rfl, .inl ⟨hop, rfl⟩⟩
  · exact absurd rfl hne
  · exact absurd rfl hne
  · exact ⟨rfl, .inr ⟨hop, rfl⟩⟩

/-- A read leg's count is the RXCNT it began with (40_bus R123). -/
theorem LegInv.count_eq_rxcnt {s : State} (h : LegInv s) (hl : s.leg = .r) :
    BitVec.ofNat 8 s.n = s.rxcnt := by
  rw [h.n_count, hl, State.legCount_r]
  simp

/-- Settles O47: the writes of RXLEN by event and decode steps, the leg's count being RXCNT by the
invariant. -/
theorem rxlenWriters : Obligations.RxlenWriters := by
  intro s t hinv hr h hne
  obtain ⟨rest, ⟨hp, rfl⟩ | rfl | ⟨hw, e, he⟩ | ⟨a, -, ha⟩⟩ := step_cases_noReset hr h
  · rw [← decodeByte_op]
    obtain ⟨hz, ⟨hop, hs⟩ | ⟨hop, ho⟩⟩ := decodeCase_rxlen hne
    · exact .inl ⟨hp, hop, hs, hz⟩
    · exact .inr (.inr (.inr ⟨hp, hop, ho, hz⟩))
  · exact absurd rfl hne
  · have hcount := (hinv.leg_inv hw).count_eq_rxcnt
    obtain ⟨hl, ht, ⟨ho, hn⟩ | ⟨ho, hz⟩⟩ := (EventResult.of_onEvent he).rxlen hne
    · exact .inr (.inl ⟨hw, hl, ht, ho, hn.trans (hcount hl)⟩)
    · exact .inr (.inr (.inl ⟨hw, hl, ht, ho, hz⟩))
  · obtain ⟨-, off, -, ⟨-, rfl⟩ | ⟨v, -, rfl⟩⟩ := hostAccess_cases ha
    · exact absurd rfl hne
    · exact absurd (memWrite_rxlen off v _) hne

/-! ## The bus trace (10_state R45) -/

@[simp] theorem State.fail_trace (o : CommandOutcome) (s : State) : (s.fail o).trace = s.trace := by
  obtain ⟨-, h⟩ | ⟨-, h⟩ := State.fail_cases o s <;> rw [h] <;> rfl

@[simp] theorem State.finish_trace (s : State) : s.finish.trace = s.trace := by
  obtain ⟨-, h⟩ | ⟨-, h⟩ := State.finish_cases s <;> rw [h] <;> rfl

theorem EventResult.trace {s t : State} (h : EventResult s t) : s.trace <+: t.trace := by
  obtain ⟨m, hm, hend⟩ := h
  refine hm.trace.trans ?_
  cases hend with
  | goesOn p hp => exact ⟨[], List.append_nil _⟩
  | chains => exact ⟨_, rfl⟩
  | finishes => rw [State.finish_trace]
  | fails o ho => rw [State.fail_trace]

theorem decodeCase_trace (i : Instr) (s : State) : s.trace <+: (decodeCase i s).trace := by
  obtain ⟨stop, h⟩ | ⟨-, dir, stop, h⟩ | h | ⟨-, m, o, h⟩ | ⟨-, m, h⟩ := decodeCase_cases i s <;>
    rw [h]
  · exact ⟨_, rfl⟩
  · exact ⟨_, rfl⟩
  all_goals exact ⟨[], List.append_nil _⟩

theorem hostAccess_trace {a : HostAccess} {s t : State} (h : hostAccess a s = .next t) :
    t.trace = s.trace := by
  obtain ⟨-, off, -, ⟨-, rfl⟩ | ⟨v, -, rfl⟩⟩ := hostAccess_cases h
  · rfl
  · exact memWrite_trace off v s

/-- Settles O48: the engine's steps only append, and neither a step in IDLE nor a host access is
one of them. -/
theorem traceOnlyGrows : Obligations.TraceOnlyGrows := by
  intro s t hr h
  refine ⟨?grows, ?kept⟩
  case grows =>
    suffices hpre : s.trace <+: t.trace by
      obtain ⟨l, hl⟩ := hpre
      exact ⟨l, hl.symm⟩
    obtain ⟨rest, ⟨-, rfl⟩ | rfl | ⟨-, e, he⟩ | ⟨a, -, ha⟩⟩ := step_cases_noReset hr h
    · exact decodeCase_trace _ ((s.setInputs rest).latchOp _)
    · exact ⟨[], List.append_nil _⟩
    · exact (EventResult.of_onEvent he).trace
    · rw [hostAccess_trace ha, State.setInputs_trace]
  case kept =>
    rintro (hp | ⟨a, rest, hi⟩)
    · obtain ⟨rest, ⟨hd, -⟩ | rfl | ⟨hw, -⟩ | ⟨a, -, ha⟩⟩ := step_cases_noReset hr h
      · simp [hp] at hd
      · rfl
      · exact absurd hp hw.phase_ne_idle
      · rw [hostAccess_trace ha, State.setInputs_trace]
    · rw [step_host hi] at h
      rw [hostAccess_trace h, State.setInputs_trace]

/-! ## CMD and OVR: the host's writes (10_state R21, R25) -/

theorem decodeCase_cmd (i : Instr) (s : State) : (decodeCase i s).cmd = s.cmd :=
  (decodeCase_frame i s).cmd

theorem decodeCase_ovr (i : Instr) (s : State) : (decodeCase i s).ovr = s.ovr :=
  (decodeCase_frame i s).ovr

/-- Settles O49: the engine's steps keep CMD, and a host write that does not keep it is an
acceptance. -/
theorem cmdHoldsAcceptedByte : Obligations.CmdHoldsAcceptedByte := by
  intro s t hr h hne
  obtain ⟨rest, ⟨-, rfl⟩ | rfl | ⟨-, e, he⟩ | ⟨a, hi, ha⟩⟩ := step_cases_noReset hr h
  · exact absurd (decodeCase_cmd _ _) hne
  · exact absurd rfl hne
  · exact absurd (EngineFrame.onEvent he).cmd hne
  · obtain ⟨-, off, hoff, ⟨-, rfl⟩ | ⟨v, hv, rfl⟩⟩ := hostAccess_cases ha
    · exact absurd rfl hne
    · obtain ⟨rfl, hb, hw⟩ | ⟨-, -, hc⟩ := memWrite_cases off v (s.setInputs rest)
      · rw [hw]
        exact ⟨hb, rfl, rfl, a, rest, hi, hv, hoff⟩
      · exact absurd hc hne

/-- Settles O50: the engine's steps keep OVR, and a host write that does not keep it is dropped or
is the write-1-to-clear. -/
theorem ovrRule : Obligations.OvrRule := by
  intro s t hr h hne
  obtain ⟨rest, ⟨-, rfl⟩ | rfl | ⟨-, e, he⟩ | ⟨a, hi, ha⟩⟩ := step_cases_noReset hr h
  · exact absurd (decodeCase_ovr _ _) hne
  · exact absurd rfl hne
  · exact absurd (EngineFrame.onEvent he).ovr hne
  · obtain ⟨-, off, hoff, ⟨-, rfl⟩ | ⟨v, hv, rfl⟩⟩ := hostAccess_cases ha
    · exact absurd rfl hne
    · obtain ⟨hb, hmem, hw⟩ | ⟨rfl, hbit, hw⟩ := memWrite_ovr_cases off v (s.setInputs rest) hne
      · exact .inl ⟨hb, a, rest, v, off, hi, hv, hoff, hmem, hw⟩
      · exact .inr ⟨a, rest, v, hi, hv, hbit, hoff, hw⟩

/-! ## HELD (10_state R26) -/

/-- An operation that neither reads nor writes HELD. -/
def HeldBlind (f : State → State) : Prop :=
  ∀ (b : Bool) (s : State), f (s.setHeld b) = (f s).setHeld b

theorem HeldBlind.held {f : State → State} (h : HeldBlind f) (s : State) : (f s).held = s.held := by
  have hs : f s = (f s).setHeld s.held := h s.held s
  rw [hs, State.setHeld_held]

theorem HeldBlind.comp {f g : State → State} (hf : HeldBlind f) (hg : HeldBlind g) :
    HeldBlind (fun s => f (g s)) := fun b s => (congrArg f (hg b s)).trans (hf b (g s))

theorem HeldBlind.ite {p : State → Prop} [DecidablePred p] {f g : State → State}
    (hp : ∀ b s, p (s.setHeld b) ↔ p s) (hf : HeldBlind f) (hg : HeldBlind g) :
    HeldBlind (fun s => if p s then f s else g s) := fun b s => by
  by_cases h : p s
  · simp only [if_pos h, if_pos ((hp b s).mpr h), hf b s]
  · simp only [if_neg h, if_neg (mt (hp b s).mp h), hg b s]

namespace HeldBlind

theorem goto (p : Phase) : HeldBlind (State.goto p) := fun _ _ => rfl
theorem nextIndex : HeldBlind State.nextIndex := fun _ _ => rfl
theorem clearRx : HeldBlind State.clearRx := fun _ _ => rfl
theorem issue (a : PhyAction) : HeldBlind (State.issue a) := fun _ _ => rfl
theorem complete (o : CommandOutcome) : HeldBlind (State.complete o) := fun _ _ => rfl
theorem setChkerr (m : Byte) : HeldBlind (State.setChkerr m) := fun _ _ => rfl
theorem beginLeg (d : Leg) (b : Bool) : HeldBlind (State.beginLeg d b) := fun _ _ => rfl
theorem onRxByte (d : Byte) : HeldBlind (State.onRxByte d) := fun _ _ => rfl
theorem sendByte : HeldBlind (fun s => (s.issue (.send (bufGet s.txbuf s.idx))).goto .txData) :=
  fun _ _ => rfl

theorem fail (o : CommandOutcome) : HeldBlind (State.fail o) := fun b s => by
  rw [State.fail, State.fail, State.setHeld_leg]
  cases s.leg <;> rfl

theorem finish : HeldBlind State.finish := fun b s => by
  rw [State.finish, State.finish, State.setHeld_leg]
  cases s.leg <;> rfl

theorem legDone : HeldBlind State.legDone :=
  ite (fun _ _ => .rfl) (beginLeg .r true) finish

theorem endLeg : HeldBlind State.endLeg :=
  ite (fun _ _ => .rfl) ((goto .stop).comp (issue .stop)) legDone

theorem txNext : HeldBlind State.txNext := ite (fun _ _ => .rfl) sendByte endLeg

theorem rxNext : HeldBlind State.rxNext := ite (fun _ _ => .rfl) (goto .rxByte) endLeg

theorem beginReceive : HeldBlind State.beginReceive :=
  ite (fun _ _ => .rfl) (endLeg.comp (issue .nack0)) (goto .rxByte)

theorem judge (v : Verdict) {goOn : State → State} (h : HeldBlind goOn) :
    HeldBlind (State.judge v goOn) := by
  cases v
  · exact h
  · exact fail .ackError
  · exact fail .busError

theorem onAddr (st : PhyStatus) : HeldBlind (State.onAddr st) := fun b s => by
  rw [State.onAddr, State.onAddr, State.setHeld_leg]
  cases s.leg
  · exact txNext.judge (v := addrWVerdict st) b s
  · exact beginReceive.judge (v := addrRVerdict st) b s

theorem onTxData (st : PhyStatus) : HeldBlind (State.onTxData st) :=
  judge _ (txNext.comp nextIndex)

theorem onRxAck (st : PhyStatus) : HeldBlind (State.onRxAck st) := fun b s =>
  judge (rxAckVerdict s.lastByte st) (rxNext.comp nextIndex) b s

theorem verdictOfMask (m : Byte) : HeldBlind (Machine.verdictOfMask m) :=
  ite (fun _ _ => .rfl) ((complete .success).comp (setChkerr m))
    ((complete .checksumError).comp (clearRx.comp (setChkerr m)))

theorem verifyWith (f : Word → Byte) : HeldBlind (Machine.verifyWith f) :=
  ite (fun _ _ => .rfl) ((complete .noDataError).comp (setChkerr 0x00#8))
    (ite (fun _ _ => .rfl) ((complete .paramError).comp (setChkerr 0x00#8))
      fun b s => verdictOfMask (mismatchMask f s.rxbuf (s.rxlen.toNat / 3)) b s)

theorem decodeCase (i : Instr) : HeldBlind (Machine.decodeCase i) := by
  cases i with
  | transmit stop => exact ite (fun _ _ => .rfl) (beginLeg .w stop) (complete .paramError)
  | receive stop =>
    exact ite (fun _ _ => .rfl) ((beginLeg .r stop).comp clearRx) (complete .paramError)
  | writeThenRead x =>
    exact ite (fun _ _ => .rfl) ((beginLeg .w false).comp clearRx) (complete .paramError)
  | verify x => exact verifyWith Config.checkFn
  | _ => exact complete .paramError

end HeldBlind

/-- How a step treats HELD: START's acceptance sets it, STOP's completion clears it, and any other
step keeps it. -/
def HeldChange (s t : State) : Prop :=
  (s.phase = .start ∧ t.phase = .addr ∧ t.held = true) ∨
  (s.phase = .stop ∧ t.phase ≠ .stop ∧ t.held = false) ∨
  (t.held = s.held ∧ (s.phase = .start → t.phase ≠ .addr) ∧ (s.phase = .stop → t.phase = .stop))

/-- Of the state a step starts from, only the phase and HELD count. -/
theorem HeldChange.of_eq {s s' t : State} (h : HeldChange s' t) (hp : s'.phase = s.phase)
    (hh : s'.held = s.held) : HeldChange s t := by
  rw [HeldChange, ← hp, ← hh]
  exact h

theorem heldChange_refl (s : State) : HeldChange s s :=
  .inr (.inr ⟨rfl, fun hp => by simp [hp], id⟩)

/-- Outside START and STOP only the value of HELD counts. -/
theorem heldChange_of_kept {s t : State} (hstart : s.phase ≠ .start) (hstop : s.phase ≠ .stop)
    (h : t.held = s.held) : HeldChange s t :=
  .inr (.inr ⟨h, fun hp => absurd hp hstart, fun hp => absurd hp hstop⟩)

theorem legDone_phase_ne_stop (s : State) : s.legDone.phase ≠ .stop := by
  by_cases h : s.op = .wtr ∧ s.leg = .w
  · rw [State.legDone_chain h.1 h.2]
    simp
  · rw [State.legDone_finish h, (ended_finish s).phase]
    decide

theorem onStart_heldChange {s : State} (hp : s.phase = .start) (st : PhyStatus) :
    HeldChange s (s.onStart st) := by
  obtain ⟨-, h⟩ | ⟨-, h⟩ | ⟨-, h⟩ := State.judge_cases (startVerdict st) State.sendAddress s <;>
    rw [State.onStart, h]
  · exact .inl ⟨hp, rfl, rfl⟩
  all_goals exact .inr (.inr ⟨(HeldBlind.fail _).held s, fun _ => by simp [(ended_fail _ s).phase],
    fun hs => by simp [hp] at hs⟩)

theorem onEvent_heldChange {e : PhyEvent} {s t : State} (h : onEvent e s = .next t) :
    HeldChange s t := by
  obtain ⟨st, hp, -, rfl⟩ | ⟨st, hp, -, rfl⟩ | ⟨st, hp, -, rfl⟩ | ⟨d, hp, -, rfl⟩ |
    ⟨st, hp, -, rfl⟩ | ⟨hp, -, rfl⟩ := onEvent_cases h
  · exact onStart_heldChange hp st
  · exact heldChange_of_kept (by simp [hp]) (by simp [hp]) ((HeldBlind.onAddr st).held s)
  · exact heldChange_of_kept (by simp [hp]) (by simp [hp]) ((HeldBlind.onTxData st).held s)
  · exact heldChange_of_kept (by simp [hp]) (by simp [hp]) ((HeldBlind.onRxByte d).held s)
  · exact heldChange_of_kept (by simp [hp]) (by simp [hp]) ((HeldBlind.onRxAck st).held s)
  · exact .inr (.inl ⟨hp, legDone_phase_ne_stop _, HeldBlind.legDone.held (s.setHeld false)⟩)

/-- A host access keeps HELD, and leaves the phase unless the block is idle. -/
theorem EngineInv.hostAccess_heldChange {a : HostAccess} {s t : State} (h : EngineInv s)
    (ha : Machine.hostAccess a s = .next t) : HeldChange s t := by
  obtain ⟨-, off, -, ⟨-, rfl⟩ | ⟨v, -, rfl⟩⟩ := hostAccess_cases ha
  · exact heldChange_refl s
  · have hheld := memWrite_held off v s
    obtain ⟨-, hb, -⟩ | ⟨-, hp, -⟩ := memWrite_cases off v s
    · have hidle := h.phase_of_notBusy hb
      exact heldChange_of_kept (by simp [hidle]) (by simp [hidle]) hheld
    · exact .inr (.inr ⟨hheld, fun hs => by simp [hp, hs], fun hs => hp.trans hs⟩)

theorem EngineInv.step_heldChange {s t : State} (h : EngineInv s)
    (hr : ∀ rest, s.inputs ≠ .reset :: rest) (ht : Machine.step s = .next t) : HeldChange s t := by
  obtain ⟨rest, ⟨hp, rfl⟩ | rfl | ⟨-, e, he⟩ | ⟨a, -, ha⟩⟩ := step_cases_noReset hr ht
  · exact heldChange_of_kept (by simp [hp]) (by simp [hp]) ((HeldBlind.decodeCase _).held _)
  · exact (heldChange_refl (s.setInputs rest)).of_eq rfl rfl
  · exact (onEvent_heldChange he).of_eq rfl rfl
  · exact ((h.setInputs rest).hostAccess_heldChange ha).of_eq rfl rfl

theorem onStart_setHeld (b : Bool) (st : PhyStatus) (s : State) :
    ∃ b', (s.setHeld b).onStart st = (s.onStart st).setHeld b' := by
  rw [State.onStart, State.onStart]
  cases startVerdict st
  · exact ⟨true, rfl⟩
  · exact ⟨b, HeldBlind.fail .ackError b s⟩
  · exact ⟨b, HeldBlind.fail .busError b s⟩

/-- An event step from another HELD answers the same state but for HELD. -/
theorem onEvent_setHeld {e : PhyEvent} {s t : State} (b : Bool) (h : onEvent e s = .next t) :
    ∃ b', onEvent e (s.setHeld b) = .next (t.setHeld b') := by
  obtain ⟨st, hp, rfl, rfl⟩ | ⟨st, hp, rfl, rfl⟩ | ⟨st, hp, rfl, rfl⟩ | ⟨d, hp, rfl, rfl⟩ |
    ⟨st, hp, rfl, rfl⟩ | ⟨hp, rfl, rfl⟩ := onEvent_cases h <;>
    simp only [onEvent, State.setHeld_phase, hp, Host.Outcome.next.injEq]
  · exact onStart_setHeld b st s
  · exact ⟨b, HeldBlind.onAddr st b s⟩
  · exact ⟨b, HeldBlind.onTxData st b s⟩
  · exact ⟨b, HeldBlind.onRxByte d b s⟩
  · exact ⟨b, HeldBlind.onRxAck st b s⟩
  · exact ⟨s.onStopDone.held, rfl⟩

/-- A command's step from another HELD answers the same state but for HELD. -/
theorem exec_setHeld {i : Instr} {s t : State} (b : Bool) (h : exec i s = .next t) :
    ∃ b', exec i (s.setHeld b) = .next (t.setHeld b') := by
  obtain ⟨hp, rfl⟩ | ⟨hp, rfl⟩ | ⟨hw, hn, ht⟩ | ⟨hw, e, he, hev⟩ := exec_cases h
  · exact ⟨b, exec_idle (s := s.setHeld b) hp⟩
  · refine ⟨b, (exec_decode (s := s.setHeld b) hp).trans ?_⟩
    exact congrArg _ (HeldBlind.decodeCase i b (s.latchOp i.op))
  · refine ⟨b, ?_⟩
    rw [exec_waiting (s := s.setHeld b) hw, eventStep, State.setHeld_phyEvent, hn, ht]
  · rw [exec_event (s := s.setHeld b) hw he]
    exact onEvent_setHeld b hev

/-- Settles O45: the three ways a step treats HELD, and the same command step from the other HELD.
-/
theorem heldRule : Obligations.HeldRule := by
  refine ⟨?steps, ?reset, fun i s t b h => exec_setHeld b h⟩
  case steps =>
    intro s t hinv hr h
    obtain ⟨hp, ht, hh⟩ | ⟨hp, ht, hh⟩ | ⟨hh, hstart, hstop⟩ := hinv.step_heldChange hr h
    · exact ⟨fun _ => .inl ⟨hp, ht, hh⟩, fun _ _ => hh, fun hs => by simp [hp] at hs⟩
    · exact ⟨fun _ => .inr ⟨hp, ht, hh⟩, fun hs => by simp [hp] at hs, fun _ _ => hh⟩
    · exact ⟨fun hne => absurd hh hne, fun hs ht => absurd ht (hstart hs),
        fun hs ht => absurd (hstop hs) ht⟩
  case reset =>
    intro s t rest hi h
    rw [step_reset hi] at h
    cases h; rfl

end Sys2Proof.Machine

namespace Sys2Proof.Machine

/-! ## The registers of the window, by what a write of them does (20_memory R63) -/

/-- The registers written only while BUSY = 0: CMD and the operands of a command (20_memory R64). -/
abbrev Reg.IdleOnly (r : Reg) : Prop :=
  r = .cmd ∨ r = .addr ∨ r = .txlen ∨ r = .rxcnt ∨ ∃ i, r = .txbuf i

/-- The offsets of the read-only and reserved registers (20_memory R63). -/
def readOnlyOffsets : List Offset :=
  [0x02#5, 0x06#5, 0x07#5, 0x10#5, 0x11#5, 0x12#5, 0x13#5, 0x14#5, 0x15#5, 0x16#5, 0x17#5,
    0x1B#5, 0x1C#5, 0x1D#5, 0x1E#5, 0x1F#5]

/-- The registers whose writes are ignored (20_memory R63). -/
def Reg.readOnly : Reg → Bool
  | .outcome | .rxlen | .chkerr | .rxbuf _ | .ckcalc | .ckmatch | .reserved _ => true
  | .cmd | .status | .addr | .txlen | .rxcnt | .txbuf _ | .ckhi | .cklo | .ckrcv => false

theorem idleOnly_of_mem_droppedOffsets : ∀ off ∈ droppedOffsets, (Reg.ofOffset off).IdleOnly := by
  decide

theorem readOnly_of_mem_readOnlyOffsets :
    ∀ off ∈ readOnlyOffsets, (Reg.ofOffset off).readOnly = true := by
  decide

section Writes
variable {r : Reg} {off : Offset} {s : State}

/-- A write of CMD or of an operand while a command runs is dropped (20_memory R64). -/
theorem writeReg_dropped (hr : r.IdleOnly) (v : Byte) (hb : s.busy = true) :
    writeReg r v s = s.drop := by
  obtain rfl | rfl | rfl | rfl | ⟨i, rfl⟩ := hr <;> exact writeWhenIdle_busy hb

theorem writeReg_readOnly (hr : r.readOnly = true) (v : Byte) (s : State) : writeReg r v s = s := by
  cases r with
  | cmd | status | addr | txlen | rxcnt | txbuf | ckhi | cklo | ckrcv => cases hr
  | _ => rfl

theorem memWrite_dropped (hoff : off ∈ droppedOffsets) (v : Byte) (hb : s.busy = true) :
    memWrite off v s = s.drop :=
  writeReg_dropped (idleOnly_of_mem_droppedOffsets off hoff) v hb

theorem memWrite_readOnly (hoff : off ∈ readOnlyOffsets) (v : Byte) (s : State) :
    memWrite off v s = s :=
  writeReg_readOnly (readOnly_of_mem_readOnlyOffsets off hoff) v s

theorem memWrite_status (v : Byte) (s : State) :
    memWrite 0x01#5 v s = if v.getLsbD 2 then s.setOvr false else s := by
  change s.setOvr (ovrAfterStatusWrite v s.ovr) = _
  rw [ovrAfterStatusWrite]
  split <;> rfl

theorem ofOffset_txbuf {i : Nat} (hi : i < 8) :
    Reg.ofOffset (BitVec.ofNat 5 (0x08 + i)) = .txbuf ⟨i, hi⟩ :=
  ofOffset_offset (.txbuf ⟨i, hi⟩)

theorem memRead_txbuf {i : Nat} (hi : i < 8) (s : State) :
    memRead (BitVec.ofNat 5 (0x08 + i)) s = bufGet s.txbuf i := by
  rw [memRead, ofOffset_txbuf hi]; rfl

theorem memWrite_txbuf_idle {i : Nat} (hi : i < 8) (v : Byte) (hb : s.busy = false) :
    memWrite (BitVec.ofNat 5 (0x08 + i)) v s = s.storeTx i v := by
  rw [memWrite, ofOffset_txbuf hi]
  exact writeWhenIdle_idle hb

/-- The step of a byte write in the window. -/
theorem step_write {v : Byte} {rest : List Turn}
    (h : s.inputs = .host ⟨Config.regBase + off.toNat, 8, .write v⟩ :: rest) :
    step s = .next (memWrite off v (s.setInputs rest)) := by
  rw [step_turn h, takeTurn_write]

/-- The step of `wr r, v` (30_encoding R102). -/
theorem step_wr {v : Byte} {rest : List Turn} (h : s.inputs = HostProgram.wr r v :: rest) :
    step s = .next (writeReg r v (s.setInputs rest)) := by
  rw [step_turn h, takeTurn_wr]

end Writes

/-! ## The operands of a running command (20_memory R64) -/

/-- The operand registers of a command are the same in two states. -/
def OperandsKept (s t : State) : Prop :=
  t.addr = s.addr ∧ t.txlen = s.txlen ∧ t.rxcnt = s.rxcnt ∧ t.txbuf = s.txbuf

theorem EngineFrame.operandsKept {s t : State} (h : EngineFrame s t) : OperandsKept s t :=
  ⟨h.addr, h.txlen, h.rxcnt, h.txbuf⟩

theorem decodeCase_operandsKept (i : Instr) (s : State) : OperandsKept s (decodeCase i s) :=
  (decodeCase_frame i s).operandsKept

theorem hostAccess_operandsKept {a : HostAccess} {s t : State} (hb : s.busy = true)
    (h : hostAccess a s = .next t) : OperandsKept s t := by
  obtain ⟨-, off, -, ⟨-, rfl⟩ | ⟨v, -, rfl⟩⟩ := hostAccess_cases h
  · exact ⟨rfl, rfl, rfl, rfl⟩
  · exact ⟨memWrite_addr_busy off v hb, memWrite_txlen_busy off v hb, memWrite_rxcnt_busy off v hb,
      memWrite_txbuf_busy off v hb⟩

/-- No step but the reset changes an operand while a command runs. -/
theorem step_operandsKept {s t : State} (hb : s.busy = true)
    (hr : ∀ rest, s.inputs ≠ .reset :: rest) (h : step s = .next t) : OperandsKept s t := by
  obtain ⟨rest, ⟨-, rfl⟩ | rfl | ⟨-, e, he⟩ | ⟨a, -, ha⟩⟩ := step_cases_noReset hr h
  · exact decodeCase_operandsKept _ ((s.setInputs rest).latchOp _)
  · exact ⟨rfl, rfl, rfl, rfl⟩
  · exact (EngineFrame.onEvent he).operandsKept
  · exact hostAccess_operandsKept (s := s.setInputs rest) hb ha

/-- Settles O42: the engine's steps keep the operands whatever the phase, and the host's writes of
them are dropped. -/
theorem operandsStableWhileBusy : Obligations.OperandsStableWhileBusy := by
  refine ⟨fun s t => step_operandsKept, fun s r v rest hb hr hi => ?dropped⟩
  case dropped =>
    rw [step_wr hi, writeReg_dropped (s := s.setInputs rest) hr v hb]
    rfl

/-! ## The host's view of the window (20_memory R60 to R65) -/

/-- A buffer byte written while idle is the only byte of TXBUF that changes. -/
theorem memWrite_txbuf_idle_bytes {i : Nat} (hi : i < 8) (v : Byte) {s : State}
    (hb : s.busy = false) :
    ∃ b, memWrite (BitVec.ofNat 5 (0x08 + i)) v s = { s with txbuf := b } ∧
      ∀ j < 8, bufGet b j = if j = i then v else bufGet s.txbuf j := by
  refine ⟨bufSet s.txbuf i v, memWrite_txbuf_idle hi v hb, fun j hj => ?_⟩
  simp only [bufGet_bufSet s.txbuf i j v hj, eq_comm]

/-- Settles O10: the offsets by what a write of them does: STATUS, the ignored ones, the checker's,
and those that are done while idle and dropped while BUSY = 1. -/
theorem hostWriteTable : Obligations.HostWriteTable := by
  intro s v
  refine ⟨memWrite_status v s, fun off hoff => memWrite_readOnly hoff v s, rfl, rfl, rfl, ?idle,
    fun hb off hoff => memWrite_dropped hoff v hb, fun off rest hi => step_write hi⟩
  case idle =>
    intro hb
    refine ⟨writeWhenIdle_idle hb, ?addr, writeWhenIdle_idle hb, writeWhenIdle_idle hb,
      fun i hi => memWrite_txbuf_idle_bytes hi v hb⟩
    case addr =>
      rw [← BitVec.setWidth_eq_extractLsb' (by decide)]
      exact writeWhenIdle_idle hb

/-- Settles O11: each register reads its own field by definition, the buffers by their index; a read
step only appends to the host's record. -/
theorem hostReadTable : Obligations.HostReadTable := by
  intro s
  have haddr : s.addr.setWidth 8 = 0#1 ++ s.addr := BitVec.setWidth_eq_append (by decide)
  exact ⟨rfl, rfl, rfl, haddr, rfl, rfl, rfl, rfl,
    fun i hi => ⟨memRead_txbuf hi s, memRead_rxbuf hi s⟩,
    rfl, rfl, rfl, rfl, rfl, rfl, rfl, rfl,
    extractLsb'_eq_zero_of_lt (code_lt s.outcome) 5,
    fun h => extractLsb'_eq_zero_of_lt (k := 2) h.chkerr_lt 6,
    fun off rest hi => ⟨_, step_read hi, rfl⟩⟩

section Accesses
variable {a : HostAccess} {s : State}

theorem hostAccess_width (h : a.width ≠ 8) (s : State) :
    hostAccess a s = .refused (.accessWidth a.width) := by
  rw [hostAccess, if_neg h]

theorem hostAccess_outside (hw : a.width = 8) (ho : routeOffset a.addr = none) (s : State) :
    hostAccess a s = .fault (.outsideWindow a.addr) := by
  rw [hostAccess, if_pos hw, ho]

theorem hostAccess_inside {off : Offset} (hw : a.width = 8) (ho : routeOffset a.addr = some off)
    (s : State) : ∃ t, hostAccess a s = .next t := by
  rw [hostAccess, if_pos hw, ho]
  cases a.op with
  | read => exact ⟨_, rfl⟩
  | write v => exact ⟨_, rfl⟩

theorem routeOffset_inside {n : Nat} (hlo : Config.regBase ≤ n)
    (hhi : n < Config.regBase + Config.regSpan) :
    routeOffset n = some (BitVec.ofNat 5 (n - Config.regBase)) := by
  rw [routeOffset, if_pos ⟨hlo, hhi⟩]

end Accesses

/-- Settles O13: the width is checked first, and an access that answers a state has passed it. -/
theorem onlyByteAccesses : Obligations.OnlyByteAccesses := by
  intro s a rest hi
  rw [step_host hi]
  exact ⟨fun hw => hostAccess_width hw _, fun t h => (hostAccess_cases h).1⟩

/-- Settles O14: the window routes exactly its own 32 addresses to an offset. -/
theorem windowDecides : Obligations.WindowDecides := by
  intro s a rest hi hw
  rw [step_host hi]
  exact ⟨fun hout => hostAccess_outside hw (routeOffset_outside hout) _,
    fun hlo hhi => hostAccess_inside hw (routeOffset_inside hlo hhi) _⟩

/-! ## A command word in TXBUF (20_memory R67, 30_encoding R103) -/

theorem hiByte_append_loByte (w : Word) : hiByte w ++ loByte w = w :=
  BitVec.extractLsb'_append_extractLsb' (w := 8) (len := 8)

section IdleWrites
variable {s : State} (hb : s.busy = false)
include hb

theorem step_wr_txbuf_idle (i : Fin 8) (v : Byte) (rest : List Turn) :
    step (s.setInputs (HostProgram.wr (.txbuf i) v :: rest)) =
      .next ((s.storeTx i.val v).setInputs rest) :=
  (step_wr (r := .txbuf i) rfl).trans
    (congrArg _ (writeWhenIdle_idle (s := s.setInputs rest) hb))

theorem step_wr_txlen_idle (v : Byte) (rest : List Turn) :
    step (s.setInputs (HostProgram.wr .txlen v :: rest)) = .next ((s.setTxlen v).setInputs rest) :=
  (step_wr (r := .txlen) rfl).trans (congrArg _ (writeWhenIdle_idle (s := s.setInputs rest) hb))

/-- The three writes of `ldw16` while idle, one after the other. -/
theorem run_ldw16_idle (w : Word) (rest : List Turn) :
    Host.Core.run Sys2Proof.core 3 (s.setInputs (HostProgram.ldw16 w ++ rest)) =
      .next ((((s.storeTx 0 (hiByte w)).storeTx 1 (loByte w)).setTxlen 0x02#8).setInputs rest) := by
  have high := step_wr_txbuf_idle hb 0 (hiByte w)
  have low := step_wr_txbuf_idle (s := s.storeTx 0 (hiByte w)) hb 1 (loByte w)
  have count := step_wr_txlen_idle
    (s := (s.storeTx 0 (hiByte w)).storeTx 1 (loByte w)) hb 0x02#8 rest
  exact (run_next (high _)).trans ((run_next (low _)).trans (run_next count))

end IdleWrites

/-- Settles O60: the two buffer writes go to different bytes, and the bytes of a word joined again
are the word. -/
theorem commandWordIsBigEndian : Obligations.CommandWordIsBigEndian := by
  intro s w rest hb hi
  have hturns : s.setInputs (HostProgram.ldw16 w ++ rest) = s := by rw [← hi]; rfl
  have hrun := run_ldw16_idle hb w rest
  rw [hturns] at hrun
  simp only [State.storeTx, State.setTxlen, State.setInputs] at hrun
  refine ⟨_, hrun, ?word, fun j _ h2 => ?others⟩
  case word =>
    rw [bufGet_bufSet_ne _ _ (by decide), bufGet_bufSet_same _ _ _ (by decide),
      bufGet_bufSet_same _ _ _ (by decide), hiByte_append_loByte]
  case others =>
    rw [bufGet_bufSet_ne _ _ (by omega), bufGet_bufSet_ne _ _ (by omega)]

end Sys2Proof.Machine

namespace Sys2Proof

/-! ## Encoding and decoding are inverse (30_encoding R91 to R95)

`encodeByte_decodeByte` is one direction. The other, and the place of a command's byte in the table,
are said of each constructor, whose fields are exactly its row's free bits. -/

/-- A command is what its own byte decodes to: no constructor drops a bit of its row. -/
@[simp] theorem decodeByte_encodeByte (i : Instr) : decodeByte (encodeByte i) = i := by
  cases i
  case reservedBit7 low | reservedBit6 low | reservedBit5 low | reservedBit4 low =>
    revert low; decide
  case transmit b | receive b | writeThenRead b | verify b | reservedOp0 b | reservedOp5 b |
      reservedOp6 b | reservedOp7 b =>
    cases b <;> rfl

/-- A command's byte matches its own row of the table and no other. -/
theorem opcodeRows_match_encodeByte (i : Instr) :
    opcodeRows.map (fun row => decide (encodeByte i &&& row.1 = row.2)) =
      (List.range 12).map (fun j => decide (i.row = j)) := by
  cases i
  case reservedBit7 low | reservedBit6 low | reservedBit5 low | reservedBit4 low =>
    revert low; decide
  case transmit b | receive b | writeThenRead b | verify b | reservedOp0 b | reservedOp5 b |
      reservedOp6 b | reservedOp7 b =>
    cases b <;> rfl

/-- The eight legal command bytes, in the order R101 lists the commands. -/
def legalBytes : List Byte :=
  [0x01#8, 0x09#8, 0x02#8, 0x0A#8, 0x03#8, 0x0B#8, 0x04#8, 0x0C#8]

theorem encodeByte_mem_legalBytes {i : Instr} (h : i.op ≠ .reserved) :
    encodeByte i ∈ legalBytes := by
  cases i
  case transmit b | receive b | writeThenRead b | verify b => revert b; decide
  all_goals exact absurd rfl h

/-- Settles O1: the two directions on one byte, `decode` taking just that byte off the list. -/
theorem decodeAndEncodeAgree : Obligations.DecodeAndEncodeAgree := by
  refine ⟨fun i rest => ?_, fun c i rest rest' h => ?_⟩
  · rw [encode, List.singleton_append, decode_cons, decodeByte_encodeByte]
  · rw [decode_cons] at h
    cases h
    exact ⟨rfl, congrArg (fun b => [b]) (encodeByte_decodeByte c)⟩

/-- Settles O2: `decodeOp` is R95's order as written, and each byte is the encoding of its command,
which lies in one row. -/
theorem decodingOrder : Obligations.DecodingOrder := by
  intro c
  have hrows := opcodeRows_match_encodeByte (decodeByte c)
  rw [encodeByte_decodeByte] at hrows
  rw [decodeByte_op]
  exact ⟨fun hhigh => if_pos hhigh, fun hlow => if_neg (not_not_intro hlow), hrows⟩

/-- Settles O3: each legal byte is its command's encoding, and a byte whose command is not RESERVED
is one of them. -/
theorem commandMap : Obligations.CommandMap := by
  refine ⟨decodeByte_encodeByte (.transmit false), decodeByte_encodeByte (.transmit true),
    decodeByte_encodeByte (.receive false), decodeByte_encodeByte (.receive true),
    decodeByte_encodeByte (.writeThenRead false), decodeByte_encodeByte (.writeThenRead true),
    decodeByte_encodeByte (.verify false), decodeByte_encodeByte (.verify true), fun c hc => ?_⟩
  by_contra hop
  have hmem := encodeByte_mem_legalBytes hop
  rw [encodeByte_decodeByte] at hmem
  exact hc hmem

end Sys2Proof

namespace Sys2Proof.Machine

/-! ## The address byte (30_encoding R96, 40_bus R124) -/

/-- Shifting the address left and setting bit 0 puts the direction bit after the seven address bits. -/
theorem addrByte_eq_append (a : Addr7) (dir : Bool) : addrByte a dir = a ++ BitVec.ofBool dir :=
  BitVec.setWidth_append_eq_shiftLeft_setWidth_or.symm.trans (BitVec.setWidth_eq _)

theorem ofBool_dir (l : Leg) : BitVec.ofBool l.dir = if l = .r then 1#1 else 0#1 := by
  cases l <;> rfl

theorem startVerdict_proceed {st : PhyStatus} (h : st = .startSent ∨ st = .repStartSent) :
    startVerdict st = .proceed := if_pos h

theorem onEvent_start {s : State} (hp : s.phase = .start) (st : PhyStatus) :
    onEvent (.done st) s = .next (s.onStart st) := by simp [onEvent, hp]

/-- Once the start is accepted, whichever start it is, the step of any command sends the address. -/
theorem exec_start_accepted {i : Instr} {s : State} {st : PhyStatus} (hp : s.phase = .start)
    (he : s.phyEvent = some (.done st)) (hst : st = .startSent ∨ st = .repStartSent) :
    exec i s = .next s.takeEvent.sendAddress := by
  rw [exec_event (waiting_of_phase hp rfl) he, onEvent_start (s := s.takeEvent) hp, State.onStart,
    startVerdict_proceed hst, State.judge_proceed]

/-- Settles O4: the accepted start sends the address byte of the leg's direction. -/
theorem addressByteFollowsStart : Obligations.AddressByteFollowsStart := by
  intro i s st hp he hst
  refine ⟨_, exec_start_accepted hp he hst, ?_⟩
  rw [State.sendAddress_trace, addrByte_eq_append, ofBool_dir]
  rfl

end Sys2Proof.Machine

namespace Sys2Proof.Machine

/-! ## Which command a step runs (40_bus R121, R122) -/

/-- The command fetched is the one whose byte CMD holds. -/
theorem fetchCommand_of_cmd {s : State} {i : Instr} (h : s.cmd = encodeByte i) :
    fetchCommand s = i := by
  rw [fetchCommand, h, decodeByte_encodeByte]

section LatchedCommand
variable {i : Instr} {s : State}

theorem engineTurn_latched (hc : s.cmd = encodeByte i) (hp : s.phase = .decode) :
    engineTurn s = exec i s := by
  rw [engineTurn_decode hp, fetchCommand_of_cmd hc]

theorem phyTurn_latched (hc : s.cmd = encodeByte i) (hw : s.Waiting) (e : PhyEvent) :
    phyTurn e s = exec i (s.presentEvent e) := by
  rw [phyTurn_waiting e hw, fetchCommand_of_cmd hc]

end LatchedCommand

/-- A placed command is the next one the engine runs, whatever turns come after (log 16). -/
theorem step_placeCommand (i : Instr) (s : State) :
    step (placeCommand (encodeByte i) s) =
      exec i { s with cmd := encodeByte i, busy := true, phase := .decode } := by
  cases hi : s.inputs with
  | nil =>
    rw [step_noTurn (by simp [placeCommand, hi]), engineTurn_latched (i := i) rfl rfl, placeCommand,
      hi]
  | cons u rest =>
    rw [step_turn (u := .engine) (rest := u :: rest) (by simp [placeCommand, hi]), takeTurn,
      engineTurn_latched (i := i) rfl rfl, placeCommand, State.setInputs]

/-- Settles O5: each kind of engine turn fetches the command of CMD, and a placed command is in CMD
with the engine's turn next. -/
theorem stepRunsDecodedCommand : Obligations.StepRunsDecodedCommand := by
  intro i s rest
  refine ⟨fun hc hp hi => ?_, fun hc hp hi => ?_, fun e hc hw hi => ?_, fun c hc hw hi => ?_, ?_⟩
  · rw [step_noTurn hi, engineTurn_latched hc hp]
  · exact (step_turn hi).trans (engineTurn_latched (s := s.setInputs rest) hc hp)
  · exact (step_turn hi).trans (phyTurn_latched (s := s.setInputs rest) hc hw e)
  · exact (step_turn hi).trans (phyTurn_latched (s := s.setInputs rest) hc hw _)
  · have hbyte : BitVec.ofNat 8 ((encodeByte i).toNat % 2 ^ 8) = encodeByte i := by
      rw [Nat.mod_eq_of_lt (encodeByte i).isLt, BitVec.ofNat_toNat, BitVec.setWidth_eq]
    rw [State.withFetchWord, hbyte, step_placeCommand]

/-! ## Acceptance (40_bus R120) -/

/-- Settles O8: the write of CMD is done while idle, where it is the acceptance, and dropped while
BUSY = 1. -/
theorem acceptCommand : Obligations.AcceptCommand := by
  intro s v rest hi
  rw [step_wr hi]
  exact ⟨fun hb => congrArg _ (writeWhenIdle_idle (s := s.setInputs rest) hb),
    fun hb => congrArg _ (writeWhenIdle_busy (s := s.setInputs rest) hb)⟩

/-- Settles O9: in IDLE the shared command step is the acceptance (`exec_idle`). -/
theorem commandAcceptedFromIdle : Obligations.CommandAcceptedFromIdle :=
  fun _ _ hp => exec_idle hp

/-! ## One event, phase by phase (40_bus R122, 10_state R44) -/

section Events
variable {s : State}

theorem onEvent_addr (hp : s.phase = .addr) (st : PhyStatus) :
    onEvent (.done st) s = .next (s.onAddr st) := by simp [onEvent, hp]

theorem onEvent_txData (hp : s.phase = .txData) (st : PhyStatus) :
    onEvent (.done st) s = .next (s.onTxData st) := by simp [onEvent, hp]

theorem onEvent_rxByte (hp : s.phase = .rxByte) (d : Byte) :
    onEvent (.byte d) s = .next (s.onRxByte d) := by simp [onEvent, hp]

theorem onEvent_rxAck (hp : s.phase = .rxAck) (st : PhyStatus) :
    onEvent (.done st) s = .next (s.onRxAck st) := by simp [onEvent, hp]

theorem onEvent_stop (hp : s.phase = .stop) : onEvent .stopDone s = .next s.onStopDone := by
  simp [onEvent, hp]

theorem State.onAddr_write (hl : s.leg = .w) (st : PhyStatus) :
    s.onAddr st = s.judge (addrWVerdict st) State.txNext := by simp [State.onAddr, hl]

theorem State.onAddr_read (hl : s.leg = .r) (st : PhyStatus) :
    s.onAddr st = s.judge (addrRVerdict st) State.beginReceive := by simp [State.onAddr, hl]

variable {i : Instr} {e : PhyEvent} {t : State}

/-- An event has a meaning in a waiting phase only. -/
theorem waiting_of_onEvent (h : onEvent e s = .next t) : s.Waiting := by
  obtain ⟨_, hp, -⟩ | ⟨_, hp, -⟩ | ⟨_, hp, -⟩ | ⟨_, hp, -⟩ | ⟨_, hp, -⟩ | ⟨hp, -⟩ :=
    onEvent_cases h <;> exact waiting_of_phase hp rfl

/-- Every command's step with an event on the port is the event's. -/
theorem exec_of_onEvent (he : s.phyEvent = some e) (h : onEvent e s.takeEvent = .next t) :
    exec i s = .next t := by
  have hw : s.Waiting := waiting_of_onEvent (s := s.takeEvent) h
  rw [exec_event hw he, h]

end Events

/-! ## Verdicts of the statuses (60_exceptions R213) -/

section Verdicts
variable {st : PhyStatus}

theorem startVerdict_busError (h : ¬ (st = .startSent ∨ st = .repStartSent)) :
    startVerdict st = .busError := if_neg h

theorem addrWVerdict_busError (hack : st ≠ .addrWAck) (hnack : st ≠ .addrWNack) :
    addrWVerdict st = .busError := by simp [addrWVerdict, hack, hnack]

theorem addrRVerdict_busError (hack : st ≠ .addrRAck) (hnack : st ≠ .addrRNack) :
    addrRVerdict st = .busError := by simp [addrRVerdict, hack, hnack]

theorem txVerdict_busError (hack : st ≠ .txAck) (hnack : st ≠ .txNack) :
    txVerdict st = .busError := by simp [txVerdict, hack, hnack]

theorem rxAckVerdict_busError (last : Bool) (hack : st ≠ .rxAckSent) (hnack : st ≠ .rxNackSent) :
    rxAckVerdict last st = .busError := by
  cases last <;> simp [rxAckVerdict, expectedHandshake, hack, hnack]

/-- The handshake that the engine did not drive. -/
theorem rxAckVerdict_ackError {last : Bool} (h : st = expectedHandshake !last) :
    rxAckVerdict last st = .ackError := by
  subst h
  cases last <;> rfl

end Verdicts

/-! ## The phases of a leg (40_bus R124 to R131) -/

theorem Leg.dir_eq_decide (l : Leg) : l.dir = decide (l = .r) := by cases l <;> rfl

/-- Settles O16: the accepted start by `exec_start_accepted`, any other status by its verdict. -/
theorem startPhase : Obligations.StartPhase := by
  intro i s st hp he
  refine ⟨fun hst => ?_, fun hst => ?_⟩
  · rw [exec_start_accepted hp he hst, ← Leg.dir_eq_decide]
    rfl
  · refine exec_of_onEvent he ((onEvent_start (s := s.takeEvent) hp st).trans ?_)
    rw [State.onStart, startVerdict_busError hst]
    rfl

/-- Settles O17: the verdict of the status, and `txNext` where it lets the leg go on. -/
theorem addressPhaseOfWriteLeg : Obligations.AddressPhaseOfWriteLeg := by
  intro i s st hp hl he
  have hexec : exec i s = .next (s.takeEvent.judge (addrWVerdict st) State.txNext) := by
    rw [← State.onAddr_write (s := s.takeEvent) hl]
    exact exec_of_onEvent he (onEvent_addr (s := s.takeEvent) hp st)
  rw [hexec]
  refine ⟨?more, ?done, ?nack, ?other⟩
  case more =>
    rintro rfl hlt
    exact congrArg _ (State.txNext_more (s := s.takeEvent) hlt)
  case done =>
    rintro rfl hge
    exact congrArg _ (State.txNext_done (s := s.takeEvent) hge)
  case nack =>
    rintro rfl
    rfl
  case other =>
    intro hack hnack
    rw [addrWVerdict_busError hack hnack]
    rfl

/-- A zero-count read without a stop is done at once: RXLEN is its count, 0 (40_bus R135). -/
theorem State.beginReceive_zero_noStop {s : State} (hl : s.leg = .r) (hn : s.n = 0)
    (hs : s.stop = false) :
    s.beginReceive = ((s.issue .nack0).setRxlen 0x00#8).complete .success := by
  have hread : ¬ ((s.issue .nack0).op = .wtr ∧ (s.issue .nack0).leg = .w) := by simp [hl]
  rw [State.beginReceive_zero hn, State.endLeg_noStop (s := s.issue .nack0) hs,
    State.legDone_finish hread, State.finish_read (s := s.issue .nack0) hl, State.issue_n, hn]

/-- Settles O18: the verdict of the status, and `beginReceive` where it lets the leg go on. -/
theorem addressPhaseOfReadLeg : Obligations.AddressPhaseOfReadLeg := by
  intro i s st hp hl he
  have hexec : exec i s = .next (s.takeEvent.judge (addrRVerdict st) State.beginReceive) := by
    rw [← State.onAddr_read (s := s.takeEvent) hl]
    exact exec_of_onEvent he (onEvent_addr (s := s.takeEvent) hp st)
  rw [hexec]
  refine ⟨?bytes, ?zeroStop, ?zeroNoStop, ?nack, ?other⟩
  case bytes =>
    rintro rfl hn
    exact congrArg _ (State.beginReceive_bytes (s := s.takeEvent) hn)
  case zeroStop =>
    rintro rfl hn hs
    rw [show addrRVerdict .addrRAck = .proceed from rfl, State.judge_proceed,
      State.beginReceive_zero (s := s.takeEvent) hn,
      State.endLeg_stop (s := s.takeEvent.issue .nack0) hs]
    simp [State.issue, State.goto, State.takeEvent]
  case zeroNoStop =>
    rintro rfl hn hs
    exact congrArg _ (State.beginReceive_zero_noStop (s := s.takeEvent) hl hn hs)
  case nack =>
    rintro rfl
    rfl
  case other =>
    intro hack hnack
    rw [addrRVerdict_busError hack hnack]
    rfl

/-- Settles O19: the verdict of the status, and `txNext` at the next index. -/
theorem transmitDataPhase : Obligations.TransmitDataPhase := by
  intro i s st hp he
  have hexec : exec i s =
      .next (s.takeEvent.judge (txVerdict st) (fun m => m.nextIndex.txNext)) :=
    exec_of_onEvent he (onEvent_txData (s := s.takeEvent) hp st)
  rw [hexec]
  refine ⟨?more, ?done, ?nack, ?other⟩
  case more =>
    rintro rfl hlt
    refine congrArg _ ((State.txNext_more (s := s.takeEvent.nextIndex) hlt).trans ?_)
    rw [← hp]
    rfl
  case done =>
    rintro rfl hge
    exact congrArg _ (State.txNext_done (s := s.takeEvent.nextIndex) hge)
  case nack =>
    rintro rfl
    rfl
  case other =>
    intro hack hnack
    rw [txVerdict_busError hack hnack]
    rfl

/-- Being the last byte, said with the index of the last byte. -/
theorem State.lastByte_iff {s : State} (h : s.idx < s.n) : s.lastByte = true ↔ s.idx = s.n - 1 := by
  rw [State.lastByte, decide_eq_true_iff]
  omega

/-- Settles O20: the step is `onRxByte`, whose stored byte is the only one that changes. -/
theorem receiveBytePhase : Obligations.ReceiveBytePhase := by
  intro i s d hp he hlt hn
  refine ⟨bufSet s.rxbuf s.idx d, ?step, fun j hj => ?bytes⟩
  case step =>
    refine (exec_of_onEvent he (onEvent_rxByte (s := s.takeEvent) hp d)).trans ?_
    have hlast : s.takeEvent.lastByte = decide (s.idx = s.n - 1) :=
      Bool.eq_iff_iff.mpr ((State.lastByte_iff hlt).trans decide_eq_true_iff.symm)
    rw [State.onRxByte, hlast]
    simp [State.storeRx, State.issue, State.goto, State.takeEvent]
  case bytes => simp only [bufGet_bufSet s.rxbuf s.idx j d hj, eq_comm]

/-- Settles O21: the verdict of the handshake status, and `rxNext` at the next index. -/
theorem receiveHandshakePhase : Obligations.ReceiveHandshakePhase := by
  intro i s st hp he hlt
  have hexec : exec i s =
      .next (s.takeEvent.judge (rxAckVerdict s.lastByte st) (fun m => m.nextIndex.rxNext)) :=
    exec_of_onEvent he (onEvent_rxAck (s := s.takeEvent) hp st)
  have hlast : s.idx = s.n - 1 → s.lastByte = true := (State.lastByte_iff hlt).mpr
  have hnot : s.idx ≠ s.n - 1 → s.lastByte = false := fun h => by
    simpa using mt (State.lastByte_iff hlt).mp h
  rw [hexec]
  refine ⟨?more, ?done, ?otherHandshake, ?other⟩
  case more =>
    rintro hidx rfl
    rw [hnot hidx]
    exact congrArg _ (State.rxNext_more (s := s.takeEvent.nextIndex) (by simp; omega))
  case done =>
    rintro hidx rfl
    rw [hlast hidx]
    exact congrArg _ (State.rxNext_done (s := s.takeEvent.nextIndex) (by simp; omega))
  case otherHandshake =>
    rintro (⟨hidx, rfl⟩ | ⟨hidx, rfl⟩)
    · rw [hnot hidx]
      rfl
    · rw [hlast hidx]
      rfl
  case other =>
    intro hack hnack
    rw [rxAckVerdict_busError _ hack hnack]
    rfl

/-- Settles O22: the event of the STOP phase carries no status, so the step is `onStopDone`. -/
theorem stopPhase : Obligations.StopPhase :=
  fun _ s hp he => exec_of_onEvent he (onEvent_stop (s := s.takeEvent) hp)

/-! ## The end of a leg (40_bus R130, R132, R136; 41_composite R161) -/

/-- Settles O23: the equations of `endLeg`, `legDone` and `finish`, case by case. -/
theorem legEnds : Obligations.LegEnds := by
  intro s
  refine ⟨State.endLeg_stop, State.endLeg_noStop, State.legDone_chain, fun hop hl => ?_,
    fun hl => ?_⟩
  · rw [State.legDone_finish (by simp [hop]), State.finish_write hl]
    rfl
  · rw [State.legDone_finish (by simp [hl]), State.finish_read hl]
    rfl

/-- Settles O24: `fail` in a write leg is the completion alone, in a read leg it clears the receive
state first. -/
theorem failingLeg : Obligations.FailingLeg :=
  fun o _ => ⟨State.fail_write o, fun hl =>
    ⟨bufZero, State.fail_read o hl, fun j _ => bufGet_bufZero j⟩⟩

/-! ## The decode steps of the bus commands (40_bus R121) -/

theorem countOk_eq_false {c : Byte} (h : 8 < c.toNat) : countOk c = false :=
  decide_eq_false (Nat.not_le.mpr h)

section Decoding
variable {s : State}

theorem decodeTransmit_legal (stop : Bool) (h : s.txlen.toNat ≤ 8) :
    decodeTransmit stop s = s.beginLeg .w stop := if_pos ((countOk_iff _).mpr h)

theorem decodeTransmit_oversize (stop : Bool) (h : 8 < s.txlen.toNat) :
    decodeTransmit stop s = s.complete .paramError := by
  simp [decodeTransmit, countOk_eq_false h]

theorem decodeReceive_legal (stop : Bool) (h : s.rxcnt.toNat ≤ 8) :
    decodeReceive stop s = s.clearRx.beginLeg .r stop := if_pos ((countOk_iff _).mpr h)

theorem decodeReceive_oversize (stop : Bool) (h : 8 < s.rxcnt.toNat) :
    decodeReceive stop s = s.complete .paramError := by
  simp [decodeReceive, countOk_eq_false h]

theorem decodeWriteThenRead_legal (htx : s.txlen.toNat ≤ 8) (hrx : s.rxcnt.toNat ≤ 8) :
    decodeWriteThenRead s = s.clearRx.beginLeg .w false := by
  simp [decodeWriteThenRead, (countOk_iff _).mpr htx, (countOk_iff _).mpr hrx]

theorem decodeWriteThenRead_oversize (h : 8 < s.txlen.toNat ∨ 8 < s.rxcnt.toNat) :
    decodeWriteThenRead s = s.complete .paramError := by
  obtain h | h := h <;> simp [decodeWriteThenRead, countOk_eq_false h]

end Decoding

/-- Settles O25: the count decides between beginning the write leg and PARAM_ERROR. -/
theorem transmitDecodes : Obligations.TransmitDecodes := by
  intro stop s hp
  rw [exec_decode hp]
  exact ⟨fun h => congrArg _ (decodeTransmit_legal (s := s.latchOp .transmit) stop h),
    fun h => congrArg _ (decodeTransmit_oversize (s := s.latchOp .transmit) stop h)⟩

/-- Settles O26: the count decides before the receive state is cleared. -/
theorem receiveDecodes : Obligations.ReceiveDecodes := by
  intro stop s hp
  rw [exec_decode hp]
  exact ⟨fun h => congrArg _ (decodeReceive_legal (s := s.latchOp .receive) stop h),
    fun h => congrArg _ (decodeReceive_oversize (s := s.latchOp .receive) stop h)⟩

/-- Settles O27: both counts decide, and bit 3 of the command is not looked at. -/
theorem writeThenReadDecodes : Obligations.WriteThenReadDecodes := by
  intro x s hp
  rw [exec_decode hp]
  exact ⟨fun htx hrx => congrArg _ (decodeWriteThenRead_legal (s := s.latchOp .wtr) htx hrx),
    fun h => congrArg _ (decodeWriteThenRead_oversize (s := s.latchOp .wtr) h)⟩

end Sys2Proof.Machine

namespace Sys2Proof.Machine

/-! ## An event step fails outright or goes on (40_bus R122, R136) -/

/-- `t` comes of `m` by going on: actions may be issued, and then the engine awaits its next event,
begins the read leg, or completes with SUCCESS. -/
inductive Onward (m : State) : State → Prop
  | awaits (l : List TraceEntry) (p : Phase) (hp : p ≠ .idle) :
    Onward m { m with trace := l, phase := p }
  | chains (l : List TraceEntry) : Onward m (State.beginLeg .r true { m with trace := l })
  | finishes (l : List TraceEntry) : Onward m (State.finish { m with trace := l })

namespace Onward
variable {s m t : State}

theorem of_issue {a : PhyAction} (h : Onward (s.issue a) t) : Onward s t := by
  cases h with
  | awaits l p hp => exact .awaits l p hp
  | chains l => exact .chains l
  | finishes l => exact .finishes l

theorem legDone (s : State) : Onward s s.legDone := by
  by_cases h : s.op = .wtr ∧ s.leg = .w
  · rw [State.legDone_chain h.1 h.2]
    exact .chains s.trace
  · rw [State.legDone_finish h]
    exact .finishes s.trace

theorem endLeg (s : State) : Onward s s.endLeg := by
  cases h : s.stop
  · rw [State.endLeg_noStop h]
    exact legDone s
  · rw [State.endLeg_stop h]
    exact .awaits _ _ (by decide)

theorem txNext (s : State) : Onward s s.txNext := by
  by_cases h : s.idx < s.n
  · rw [State.txNext_more h]
    exact .awaits _ _ (by decide)
  · rw [State.txNext_done h]
    exact endLeg s

theorem rxNext (s : State) : Onward s s.rxNext := by
  by_cases h : s.idx < s.n
  · rw [State.rxNext_more h]
    exact .awaits s.trace _ (by decide)
  · rw [State.rxNext_done h]
    exact endLeg s

theorem beginReceive (s : State) : Onward s s.beginReceive := by
  by_cases h : s.n = 0
  · rw [State.beginReceive_zero h]
    exact of_issue (endLeg _)
  · rw [State.beginReceive_bytes h]
    exact .awaits s.trace _ (by decide)

/-- Going on leaves RXBUF as it is. -/
theorem rxbuf (h : Onward m t) : t.rxbuf = m.rxbuf := by
  cases h with
  | awaits l p hp => rfl
  | chains l => rfl
  | finishes l =>
    obtain ⟨-, hf⟩ | ⟨-, hf⟩ := State.finish_cases { m with trace := l } <;> rw [hf] <;> rfl

/-- Going on ends a command with SUCCESS only. -/
theorem succeeds (h : Onward m t) (ht : t.phase = .idle) : t.outcome = .success := by
  cases h with
  | awaits l p hp => exact absurd ht hp
  | chains l => cases ht
  | finishes l =>
    obtain ⟨-, hf⟩ | ⟨-, hf⟩ := State.finish_cases { m with trace := l } <;> rw [hf] <;> rfl

end Onward

/-- A leg that goes on does so from its own RXBUF, which only a received byte writes. -/
def GoesOn (s t : State) : Prop := ∃ m, (s.phase ≠ .rxByte → m.rxbuf = s.rxbuf) ∧ Onward m t

/-- A leg that fails in one of the two ways a status can make it (60_exceptions R213). -/
def Fails (s t : State) : Prop := ∃ o, (o = .ackError ∨ o = .busError) ∧ t = s.fail o

theorem judge_fails_or_goesOn {s : State} {v : Verdict} {goOn : State → State}
    (h : GoesOn s (goOn s)) : Fails s (s.judge v goOn) ∨ GoesOn s (s.judge v goOn) := by
  obtain ⟨-, hj⟩ | ⟨-, hj⟩ | ⟨-, hj⟩ := State.judge_cases v goOn s <;> rw [hj]
  · exact .inr h
  · exact .inl ⟨_, .inl rfl, rfl⟩
  · exact .inl ⟨_, .inr rfl, rfl⟩

theorem onEvent_fails_or_goesOn {e : PhyEvent} {s t : State} (h : onEvent e s = .next t) :
    Fails s t ∨ GoesOn s t := by
  obtain ⟨st, -, -, rfl⟩ | ⟨st, -, -, rfl⟩ | ⟨st, -, -, rfl⟩ | ⟨d, hp, -, rfl⟩ | ⟨st, -, -, rfl⟩ |
    ⟨-, -, rfl⟩ := onEvent_cases h
  · exact judge_fails_or_goesOn ⟨s.setHeld true, fun _ => rfl, .awaits _ _ (by decide)⟩
  · cases hl : s.leg
    · rw [State.onAddr_write hl]
      exact judge_fails_or_goesOn ⟨s, fun _ => rfl, .txNext s⟩
    · rw [State.onAddr_read hl]
      exact judge_fails_or_goesOn ⟨s, fun _ => rfl, .beginReceive s⟩
  · exact judge_fails_or_goesOn ⟨s.nextIndex, fun _ => rfl, .txNext _⟩
  · exact .inr ⟨s.storeRx d, fun hne => absurd hp hne, .awaits _ _ (by decide)⟩
  · exact judge_fails_or_goesOn ⟨s.nextIndex, fun _ => rfl, .rxNext _⟩
  · exact .inr ⟨s.setHeld false, fun _ => rfl, .legDone _⟩

/-! ## Failing commands (40_bus R136 to R138) -/

@[simp] theorem State.fail_outcome (o : CommandOutcome) (s : State) : (s.fail o).outcome = o := by
  obtain ⟨-, h⟩ | ⟨-, h⟩ := State.fail_cases o s <;> rw [h] <;> rfl

theorem State.Waiting.phase_ne_decode {s : State} (h : s.Waiting) : s.phase ≠ .decode := by
  intro hp
  simp [State.Waiting, Phase.waiting, hp] at h

/-- Outside the waiting phases the engine is idle or about to decode (10_state R38). -/
theorem ready_of_not_waiting {s : State} (h : ¬ s.Waiting) :
    s.phase = .idle ∨ s.phase = .decode := by
  cases hp : s.phase <;> simp_all [State.Waiting, Phase.waiting]

/-- What a command's step can do in a waiting phase: nothing without an event, else the event's
step. -/
theorem exec_waiting_cases {i : Instr} {s t : State} (hw : s.Waiting) (h : exec i s = .next t) :
    t = s ∨ ∃ e, onEvent e s.takeEvent = .next t := by
  obtain ⟨hp, -⟩ | ⟨hp, -⟩ | ⟨-, -, ht⟩ | ⟨-, e, -, he⟩ := exec_cases h
  · exact absurd hp hw.phase_ne_idle
  · exact absurd hp hw.phase_ne_decode
  · exact .inl ht
  · exact .inr ⟨e, he⟩

/-- A command that ends in a waiting phase without SUCCESS has failed outright: before any action of
that step. -/
theorem exec_failure {i : Instr} {s t : State} (hw : s.Waiting) (h : exec i s = .next t)
    (ht : t.phase = .idle) (ho : t.outcome ≠ .success) : Fails s.takeEvent t := by
  obtain rfl | ⟨e, he⟩ := exec_waiting_cases hw h
  · exact absurd ht hw.phase_ne_idle
  · obtain hf | ⟨m, -, hm⟩ := onEvent_fails_or_goesOn he
    · exact hf
    · exact absurd (hm.succeeds ht) ho

/-- Settles O53: the step is `fail` and nothing else, by the direction of its leg. -/
theorem failureIssuesNothing : Obligations.FailureIssuesNothing := by
  intro i s t hw h ht ho
  obtain ⟨o, hcause, rfl⟩ := exec_failure hw h ht ho
  refine ⟨State.fail_trace o s.takeEvent, (HeldBlind.fail o).held s.takeEvent,
    by rwa [State.fail_outcome], fun hl => ?write, fun hl => ?read⟩
  case write =>
    rw [State.fail_write (s := s.takeEvent) o hl]
    exact ⟨rfl, rfl⟩
  case read =>
    rw [State.fail_read (s := s.takeEvent) o hl]
    exact ⟨rfl, fun j _ => bufGet_bufZero j⟩

/-- Settles O54: a failing read leg clears the receive state, and in the write leg of a reading
command it is still clear from the decode step, by the invariant. -/
theorem failedReadLeavesNoData : Obligations.FailedReadLeavesNoData := by
  intro i s t hinv hw hop h ht ho
  obtain ⟨o, -, rfl⟩ := exec_failure hw h ht ho
  have hempty : s.rxlen = 0x00#8 :=
    (hinv.leg_inv hw).rxlen_zero (by obtain hop | hop := hop <;> simp [hop])
  obtain ⟨hl, hf⟩ | ⟨-, hf⟩ := State.fail_cases o s.takeEvent <;> rw [hf]
  · have hzero : ZeroFrom (legFill s.takeEvent) s.rxbuf := hinv.zeroFrom_legFill hw
    rw [legFill_write hl, State.takeEvent_rxlen, hempty] at hzero
    exact ⟨hempty, fun j hj => hzero j hj (Nat.zero_le j)⟩
  · exact ⟨rfl, fun j _ => bufGet_bufZero j⟩

/-! ## Hangs (40_bus R143) -/

theorem step_hung {s : State} (h : Hung s) : step s = .next s := by
  obtain ⟨hw, hi⟩ := h
  rw [step_noTurn hi, engineTurn_other hw.phase_ne_decode]

theorem run_hung {s : State} (h : Hung s) (k : Nat) :
    Host.Core.run Sys2Proof.core k s = .next s := by
  induction k with
  | zero => exact run_zero s
  | succ k ih => exact (run_next (step_hung h)).trans ih

/-- A host access while a command runs leaves its phase, OUTCOME, trace and CMD. -/
theorem hostAccess_busy {a : HostAccess} {s t : State} (hb : s.busy = true)
    (h : hostAccess a s = .next t) :
    t.phase = s.phase ∧ t.busy = true ∧ t.outcome = s.outcome ∧ t.trace = s.trace ∧
      t.cmd = s.cmd := by
  obtain ⟨-, off, -, ⟨-, rfl⟩ | ⟨v, -, rfl⟩⟩ := hostAccess_cases h
  · exact ⟨rfl, hb, rfl, rfl, rfl⟩
  · exact ⟨memWrite_phase_busy off v hb, (memWrite_busy_busy off v hb).trans hb,
      memWrite_outcome off v s, memWrite_trace off v s, memWrite_cmd_busy off v hb⟩

/-- Settles O55: with no turn the step is the state itself; an engine turn lapses in a waiting
phase, and a host access finds BUSY = 1. -/
theorem hangIsForever : Obligations.HangIsForever := by
  refine ⟨fun s k h => run_hung h k, fun s t u rest hinv hw hi hu h => ?_⟩
  have hb : s.busy = true := hinv.busy_of_phase (State.Waiting.phase_ne_idle hw)
  obtain rfl | ⟨a, rfl⟩ := hu
  · have hlapse : step s = .next (s.setInputs rest) :=
      (step_turn hi).trans
        (engineTurn_other (s := s.setInputs rest) (State.Waiting.phase_ne_decode hw))
    cases hlapse.symm.trans h
    exact ⟨rfl, hb, rfl, rfl, rfl, fun v hv => by cases hv⟩
  · have haccess : hostAccess a (s.setInputs rest) = .next t := (step_host hi).symm.trans h
    obtain ⟨hphase, hbusy, hout, htrace, hcmd⟩ := hostAccess_busy (s := s.setInputs rest) hb haccess
    refine ⟨hphase, hbusy, hout, htrace, hcmd, fun v hv => ?_⟩
    rw [hv] at hi
    rw [step_wr hi, writeReg_dropped (s := s.setInputs rest) (.inl rfl) v hb] at h
    exact (Host.Outcome.next.inj h).symm

/-! ## What every command leaves unchanged (20_memory R64, 10_state R25, R35) -/

/-- The registers of the window that no command writes, and OVR. -/
structure WindowFrame (s t : State) : Prop where
  addr : t.addr = s.addr
  txlen : t.txlen = s.txlen
  rxcnt : t.rxcnt = s.rxcnt
  txbuf : t.txbuf = s.txbuf
  ckhi : t.ckhi = s.ckhi
  cklo : t.cklo = s.cklo
  ckrcv : t.ckrcv = s.ckrcv
  ovr : t.ovr = s.ovr

/-- What the engine keeps from a state with the registers of `s` it keeps from `s`. -/
theorem WindowFrame.engine {s m t : State} (h : WindowFrame s m) (h' : EngineFrame m t) :
    WindowFrame s t :=
  ⟨h'.addr.trans h.addr, h'.txlen.trans h.txlen, h'.rxcnt.trans h.rxcnt, h'.txbuf.trans h.txbuf,
    h'.ckhi.trans h.ckhi, h'.cklo.trans h.cklo, h'.ckrcv.trans h.ckrcv, h'.ovr.trans h.ovr⟩

theorem rxbuf_offset_range : ∀ i : Fin 8,
    ¬ ((Reg.rxbuf i).offset.toNat < 0x10 ∨ 0x17 < (Reg.rxbuf i).offset.toNat) := by decide

/-- As the host reads it: every register but CMD, STATUS and OUTCOME, if RXLEN, CHKERR and RXBUF are
kept where they are the register read. -/
theorem WindowFrame.memRead {s t : State} (h : WindowFrame s t) {off : Offset}
    (hcmd : off ≠ 0x00#5) (hstatus : off ≠ 0x01#5) (hout : off ≠ 0x02#5)
    (hrxlen : off = 0x06#5 → t.rxlen = s.rxlen) (hchkerr : off = 0x07#5 → t.chkerr = s.chkerr)
    (hrxbuf : ¬ (off.toNat < 0x10 ∨ 0x17 < off.toNat) → t.rxbuf = s.rxbuf) :
    Machine.memRead off t = Machine.memRead off s := by
  have hoff := offset_ofOffset off
  rw [Machine.memRead, Machine.memRead]
  cases hr : Reg.ofOffset off <;> rw [hr] at hoff <;> simp only [readReg, readRegWith]
  case cmd => exact absurd hoff.symm hcmd
  case status => exact absurd hoff.symm hstatus
  case outcome => exact absurd hoff.symm hout
  case rxlen => exact hrxlen hoff.symm
  case chkerr => exact hchkerr hoff.symm
  case rxbuf i => rw [hrxbuf (hoff ▸ rxbuf_offset_range i)]
  case addr => rw [h.addr]
  case txlen => rw [h.txlen]
  case rxcnt => rw [h.rxcnt]
  case txbuf => rw [h.txbuf]
  case ckhi => rw [h.ckhi]
  case cklo => rw [h.cklo]
  case ckrcv => rw [h.ckrcv]
  case ckcalc => rw [h.ckhi, h.cklo]
  case ckmatch => rw [h.ckhi, h.cklo, h.ckrcv]

section CommandSteps
variable {i : Instr} {s t : State} (h : exec i s = .next t)
include h

theorem exec_windowFrame : WindowFrame s t := by
  obtain ⟨-, rfl⟩ | ⟨-, rfl⟩ | ⟨-, -, rfl⟩ | ⟨-, e, -, he⟩ := exec_cases h
  · constructor <;> rfl
  · exact WindowFrame.engine (by constructor <;> rfl) (decodeCase_frame i (s.latchOp i.op))
  · constructor <;> rfl
  · exact WindowFrame.engine (by constructor <;> rfl) (EngineFrame.onEvent he)

theorem exec_chkerr (hop : i.op ≠ .verify) : t.chkerr = s.chkerr := by
  obtain ⟨-, rfl⟩ | ⟨-, rfl⟩ | ⟨-, -, rfl⟩ | ⟨-, e, -, he⟩ := exec_cases h
  · rfl
  · exact decodeCase_chkerr hop _
  · rfl
  · exact (EngineFrame.onEvent he).chkerr

theorem exec_cmd (hp : s.phase ≠ .idle) : t.cmd = s.cmd := by
  obtain ⟨hidle, -⟩ | ⟨-, rfl⟩ | ⟨-, -, rfl⟩ | ⟨-, e, -, he⟩ := exec_cases h
  · exact absurd hidle hp
  · exact decodeCase_cmd i _
  · rfl
  · exact (EngineFrame.onEvent he).cmd

theorem exec_held (hstart : s.phase ≠ .start) (hstop : s.phase ≠ .stop) : t.held = s.held := by
  obtain ⟨-, rfl⟩ | ⟨-, rfl⟩ | ⟨-, -, rfl⟩ | ⟨-, e, -, he⟩ := exec_cases h
  · rfl
  · exact (HeldBlind.decodeCase i).held (s.latchOp i.op)
  · rfl
  · obtain ⟨hp, -⟩ | ⟨hp, -⟩ | ⟨hh, -⟩ := onEvent_heldChange he
    · exact absurd hp hstart
    · exact absurd hp hstop
    · exact hh

/-- OUTCOME and VALID are written by the step that ends the command (10_state R27). -/
theorem exec_unfinished (ht : t.phase ≠ .idle) : t.outcome = s.outcome ∧ t.valid = s.valid := by
  obtain ⟨-, rfl⟩ | ⟨-, rfl⟩ | ⟨-, -, rfl⟩ | ⟨-, e, -, he⟩ := exec_cases h
  · exact ⟨rfl, rfl⟩
  · obtain hk | hd := decodeCase_lifecycle i (s.latchOp i.op)
    · exact ⟨hk.outcome, hk.valid⟩
    · exact absurd hd.phase ht
  · exact ⟨rfl, rfl⟩
  · obtain hk | hd := (EventResult.of_onEvent he).lifecycle
    · exact ⟨hk.outcome, hk.valid⟩
    · exact absurd hd.phase ht

end CommandSteps

/-! ## The frames of the bus commands (40_bus R133, R134; 41_composite R160) -/

/-- An event of a write leg, which receives no byte, keeps the receive state. -/
theorem onEvent_write_rx {e : PhyEvent} {s t : State} (hl : s.leg = .w) (hp : s.phase ≠ .rxByte)
    (h : onEvent e s = .next t) : t.rxlen = s.rxlen ∧ t.rxbuf = s.rxbuf := by
  constructor
  · by_contra hne
    obtain ⟨hr, -⟩ := (EventResult.of_onEvent h).rxlen hne
    simp [hl] at hr
  · obtain ⟨o, -, rfl⟩ | ⟨m, hm, hon⟩ := onEvent_fails_or_goesOn h
    · rw [State.fail_write o hl]
      rfl
    · exact hon.rxbuf.trans (hm hp)

theorem Running.transmit_leg {stop : Bool} {s : State} (h : Running (.transmit stop) s)
    (hw : s.Waiting) : s.leg = .w ∧ s.phase ≠ .rxByte := by
  obtain ⟨hop, hleg, hrx⟩ := h hw
  cases hl : s.leg with
  | w => exact ⟨rfl, fun hp => by simp [hrx hp] at hl⟩
  | r => simp [legOfOp, hl, Instr.op] at hleg

theorem exec_transmit_rx {stop : Bool} {s t : State} (hrun : Running (.transmit stop) s)
    (h : exec (.transmit stop) s = .next t) : t.rxlen = s.rxlen ∧ t.rxbuf = s.rxbuf := by
  obtain ⟨-, rfl⟩ | ⟨-, rfl⟩ | ⟨-, -, rfl⟩ | ⟨hw, e, -, he⟩ := exec_cases h
  · exact ⟨rfl, rfl⟩
  · rw [decodeCase, decodeTransmit]
    split <;> exact ⟨rfl, rfl⟩
  · exact ⟨rfl, rfl⟩
  · obtain ⟨hl, hp⟩ := hrun.transmit_leg hw
    exact onEvent_write_rx (s := s.takeEvent) hl hp he

/-- Settles O31: what every command leaves unchanged, and the receive state, which a write leg
keeps. -/
theorem transmitFrame : Obligations.TransmitFrame := by
  intro stop s t hrun h
  have hw := exec_windowFrame h
  have hchk : t.chkerr = s.chkerr := exec_chkerr h (by simp [Instr.op])
  obtain ⟨hrxlen, hrxbuf⟩ := exec_transmit_rx hrun h
  exact ⟨fun off hcmd hstatus hout =>
      hw.memRead hcmd hstatus hout (fun _ => hrxlen) (fun _ => hchk) (fun _ => hrxbuf),
    ⟨hw.addr, hw.txlen, hw.rxcnt, hrxlen, hchk, hw.txbuf, hrxbuf, hw.ckhi, hw.cklo, hw.ckrcv⟩,
    hw.ovr, exec_held h, exec_cmd h, exec_unfinished h⟩

/-- Settles O32: what every command leaves unchanged; CHKERR is VERIFY's alone. -/
theorem readingCommandsFrame : Obligations.ReadingCommandsFrame := by
  intro i s t hop _ h
  have hw := exec_windowFrame h
  have hchk : t.chkerr = s.chkerr := exec_chkerr h (by obtain hop | hop := hop <;> simp [hop])
  exact ⟨fun off hcmd hstatus hout hrxlen hrxbuf =>
      hw.memRead hcmd hstatus hout (fun hoff => absurd hoff hrxlen) (fun _ => hchk)
        (fun hoff => absurd hrxbuf hoff),
    ⟨hw.addr, hw.txlen, hw.rxcnt, hchk, hw.txbuf, hw.ckhi, hw.cklo, hw.ckrcv⟩,
    hw.ovr, exec_held h, exec_cmd h, exec_unfinished h⟩

end Sys2Proof.Machine

namespace Sys2Proof.Machine

/-! ## How many answered steps a command can still take (40_bus R142) -/

/-- The events of the data bytes of the present leg: one for a byte sent, two for one received. -/
def dataEvents (s : State) : Nat :=
  match s.leg with
  | .w => s.n
  | .r => 2 * s.n

/-- The events of the read leg that a write leg of WRITE_THEN_READ leads to: the start, the address,
the data and the stop (41_composite R161). -/
def readLegAhead (s : State) : Nat :=
  if s.op = .wtr ∧ s.leg = .w then 3 + 2 * s.rxcnt.toNat else 0

/-- The events after the data of the present leg: its stop, and the leg it leads to. -/
def afterData (s : State) : Nat := (if s.stop then 1 else 0) + readLegAhead s

/-- At most how many answered steps the engine takes until the command ends: none in IDLE, the
decode step and 29 events from DECODE, and in a waiting phase the events of a command without failure. -/
def stepsLeft (s : State) : Nat :=
  match s.phase with
  | .idle => 0
  | .decode => 30
  | .start => 2 + dataEvents s + afterData s
  | .addr => 1 + dataEvents s + afterData s
  | .txData => s.n - s.idx + afterData s
  | .rxByte => 2 * (s.n - s.idx) + afterData s
  | .rxAck => 2 * (s.n - s.idx) - 1 + afterData s
  | .stop => 1 + readLegAhead s

section Counting
variable {s : State}

theorem dataEvents_write (h : s.leg = .w) : dataEvents s = s.n := by simp [dataEvents, h]

theorem dataEvents_read (h : s.leg = .r) : dataEvents s = 2 * s.n := by simp [dataEvents, h]

@[simp] theorem afterData_issue (a : PhyAction) : afterData (s.issue a) = afterData s := rfl
@[simp] theorem afterData_nextIndex : afterData s.nextIndex = afterData s := rfl
@[simp] theorem readLegAhead_setHeld (b : Bool) : readLegAhead (s.setHeld b) = readLegAhead s := rfl

theorem stepsLeft_idle (h : s.phase = .idle) : stepsLeft s = 0 := by simp [stepsLeft, h]

/-- The count of the read leg begun by a write leg of WRITE_THEN_READ is that of the leg ahead. -/
theorem stepsLeft_chain : stepsLeft (s.beginLeg .r true) = 3 + 2 * s.rxcnt.toNat := by
  change 2 + 2 * s.rxcnt.toNat + afterData (s.beginLeg .r true) = _
  rw [afterData, readLegAhead]
  simp
  omega

/-! What going on leaves of the count. -/

theorem stepsLeft_legDone (s : State) : stepsLeft s.legDone = readLegAhead s := by
  by_cases h : s.op = .wtr ∧ s.leg = .w
  · rw [State.legDone_chain h.1 h.2, stepsLeft_chain, readLegAhead, if_pos h]
  · rw [State.legDone_finish h, stepsLeft_idle (ended_finish s).phase, readLegAhead, if_neg h]

theorem stepsLeft_endLeg (s : State) : stepsLeft s.endLeg = afterData s := by
  cases h : s.stop
  · rw [State.endLeg_noStop h, stepsLeft_legDone, afterData, h]
    simp
  · rw [State.endLeg_stop h, afterData, h]
    rfl

theorem stepsLeft_txNext (s : State) : stepsLeft s.txNext = s.n - s.idx + afterData s := by
  by_cases h : s.idx < s.n
  · rw [State.txNext_more h]
    rfl
  · rw [State.txNext_done h, stepsLeft_endLeg]
    omega

theorem stepsLeft_rxNext (s : State) : stepsLeft s.rxNext = 2 * (s.n - s.idx) + afterData s := by
  by_cases h : s.idx < s.n
  · rw [State.rxNext_more h]
    rfl
  · rw [State.rxNext_done h, stepsLeft_endLeg]
    omega

theorem stepsLeft_beginReceive (h : s.idx = 0) :
    stepsLeft s.beginReceive = 2 * s.n + afterData s := by
  by_cases hn : s.n = 0
  · rw [State.beginReceive_zero hn, stepsLeft_endLeg, afterData_issue]
    omega
  · rw [State.beginReceive_bytes hn]
    change 2 * (s.n - s.idx) + afterData s = _
    rw [h, Nat.sub_zero]

/-- A status ends the command or lets it go on. -/
theorem stepsLeft_judge {v : Verdict} {goOn : State → State} {k : Nat}
    (h : stepsLeft (goOn s) < k) : stepsLeft (s.judge v goOn) < k := by
  obtain ⟨-, hj⟩ | ⟨-, hj⟩ | ⟨-, hj⟩ := State.judge_cases v goOn s <;> rw [hj]
  · exact h
  all_goals
    rw [stepsLeft_idle (ended_fail _ s).phase]
    omega

theorem stepsLeft_onAddr (hi : s.idx = 0) (st : PhyStatus) :
    stepsLeft (s.onAddr st) < 1 + dataEvents s + afterData s := by
  cases hl : s.leg
  · rw [State.onAddr_write hl, dataEvents_write hl]
    exact stepsLeft_judge (by rw [stepsLeft_txNext]; omega)
  · rw [State.onAddr_read hl, dataEvents_read hl]
    exact stepsLeft_judge (by rw [stepsLeft_beginReceive hi]; omega)

/-- Each event takes one off the count, or more. -/
theorem EngineInv.stepsLeft_onEvent (h : EngineInv s) {e : PhyEvent} {t : State}
    (ht : Machine.onEvent e s = .next t) : stepsLeft t < stepsLeft s := by
  have hi := (h.leg_inv (waiting_of_onEvent ht)).index_ok
  obtain ⟨st, hp, -, rfl⟩ | ⟨st, hp, -, rfl⟩ | ⟨st, hp, -, rfl⟩ | ⟨d, hp, -, rfl⟩ |
    ⟨st, hp, -, rfl⟩ | ⟨hp, -, rfl⟩ := onEvent_cases ht <;>
    rw [indexOk, hp] at hi <;> rw [stepsLeft.eq_def s, hp] <;> simp only
  · have haddr : stepsLeft s.sendAddress = 1 + dataEvents s + afterData s := rfl
    exact stepsLeft_judge (by omega)
  · exact stepsLeft_onAddr hi st
  · exact stepsLeft_judge (by
      rw [stepsLeft_txNext, afterData_nextIndex, State.nextIndex_n, State.nextIndex_idx]; omega)
  · have hack : stepsLeft (s.onRxByte d) = 2 * (s.n - s.idx) - 1 + afterData s := rfl
    omega
  · exact stepsLeft_judge (by
      rw [stepsLeft_rxNext, afterData_nextIndex, State.nextIndex_n, State.nextIndex_idx]; omega)
  · rw [State.onStopDone, stepsLeft_legDone, readLegAhead_setHeld]
    omega

/-- WRITE_THEN_READ of eight bytes each way has the most to do after its first address byte. -/
theorem LegInv.dataEvents_add_afterData_le (h : LegInv s) : dataEvents s + afterData s ≤ 27 := by
  have hn := h.n_le
  rw [afterData, readLegAhead]
  cases hl : s.leg with
  | w =>
    rw [dataEvents_write hl]
    by_cases hop : s.op = .wtr
    · have hrx := h.wtr_count hop
      have hs : s.stop = false := by simpa [hl] using h.wtr_stop hop
      simp [hop, hs]
      omega
    · simp only [hop, false_and, if_false]
      split <;> omega
  | r =>
    rw [dataEvents_read hl]
    simp only [reduceCtorEq, and_false, if_false]
    split <;> omega

/-- A command whose decode step is done awaits at most 29 events (40_bus R142). -/
theorem EngineInv.stepsLeft_le (h : EngineInv s) (hp : s.phase ≠ .decode) : stepsLeft s ≤ 29 := by
  by_cases hw : s.Waiting
  · have hl := h.leg_inv hw
    have hdata := hl.dataEvents_add_afterData_le
    have hahead : readLegAhead s ≤ afterData s := by rw [afterData]; omega
    have hi := hl.index_ok
    rw [stepsLeft.eq_def]
    cases hph : s.phase <;> rw [indexOk, hph] at hi <;> simp only
    case decode => exact absurd hph hp
    case txData => rw [dataEvents_write hi.1] at hdata; omega
    case rxByte | rxAck => rw [dataEvents_read hi.1] at hdata; omega
    all_goals omega
  · have hidle := (ready_of_not_waiting hw).resolve_right hp
    rw [stepsLeft_idle hidle]
    omega

/-! ## A step the environment answers -/

theorem decodeCase_phase (i : Instr) (s : State) : (decodeCase i s).phase ≠ .decode := by
  obtain ⟨stop, h⟩ | ⟨-, dir, stop, h⟩ | h | ⟨-, m, o, h⟩ | ⟨-, m, h⟩ := decodeCase_cases i s <;>
    rw [h] <;> simp

/-- The answer the environment gives in a waiting phase is an event of the kind expected there. -/
theorem answerTurn_waiting (st : PhyStatus) (d : Byte) (hw : s.Waiting) :
    ∃ e, answerTurn st d s = .phy e ∧ e.fits s.phase = true := by
  cases hp : s.phase <;> simp [answerTurn, hp, PhyEvent.fits] <;>
    simp [State.Waiting, Phase.waiting, hp] at hw

theorem answerTurn_ready (st : PhyStatus) (d : Byte) (hp : s.phase = .idle ∨ s.phase = .decode) :
    answerTurn st d s = .engine := by
  obtain hp | hp := hp <;> simp [answerTurn, hp]

theorem answered_idle (st : PhyStatus) (d : Byte) (hp : s.phase = .idle) :
    step (s.setInputs [answerTurn st d s]) = .next (s.setInputs []) := by
  rw [answerTurn_ready st d (.inl hp)]
  exact engineTurn_other (s := s.setInputs []) (by simp [hp])

/-- Every answered step outside IDLE has a next state, with a smaller count. -/
theorem EngineInv.answered_step (h : EngineInv s) (hp : s.phase ≠ .idle) (st : PhyStatus)
    (d : Byte) :
    ∃ t, Machine.step (s.setInputs [answerTurn st d s]) = .next t ∧ stepsLeft t < stepsLeft s := by
  by_cases hw : s.Waiting
  · obtain ⟨e, hans, hfits⟩ := answerTurn_waiting st d hw
    obtain ⟨t, ht⟩ := onEvent_of_fits (s := (s.setInputs []).takeEvent) hfits
    refine ⟨t, ?_, (h.setInputs []).takeEvent.stepsLeft_onEvent ht⟩
    rw [hans]
    exact (phyTurn_event (s := s.setInputs []) e hw).trans ht
  · have hdec := (ready_of_not_waiting hw).resolve_left hp
    have hstep : Machine.step (s.setInputs [answerTurn st d s]) =
        .next (decodeCase (fetchCommand s) ((s.setInputs []).latchOp (fetchCommand s).op)) := by
      rw [answerTurn_ready st d (.inr hdec)]
      exact (engineTurn_decode (s := s.setInputs []) hdec).trans (exec_decode hdec)
    refine ⟨_, hstep, ?_⟩
    have hle := ((h.setInputs _).step hstep).stepsLeft_le (decodeCase_phase _ _)
    have hthirty : stepsLeft s = 30 := by simp [stepsLeft, hdec]
    omega

theorem answerTurn_ne_reset (st : PhyStatus) (d : Byte) (s : State) :
    answerTurn st d s ≠ .reset := by
  cases hp : s.phase <;> simp [answerTurn, hp]

theorem serve_cons {st : PhyStatus} {d : Byte} {t : State} (answers : List (PhyStatus × Byte))
    (h : step (s.setInputs [answerTurn st d s]) = .next t) :
    serve ((st, d) :: answers) s = serve answers t := by simp [serve, h]

end Counting

/-- With as many answers as the count, or more, the command ends; the answers left over find the
engine idle, where its turn lapses (log 3). -/
theorem EngineInv.serve_ends {s : State} {answers : List (PhyStatus × Byte)} (h : EngineInv s)
    (hvalid : s.phase = .idle → s.valid = true) (hcount : stepsLeft s ≤ answers.length) :
    ∃ t, serve answers s = .next t ∧ Ended t := by
  induction answers generalizing s with
  | nil =>
    have hidle : s.phase = .idle := by
      by_contra hp
      obtain ⟨t, -, hlt⟩ := h.answered_step hp .other 0x00#8
      exact absurd hlt (by simp at hcount; omega)
    exact ⟨s, rfl, hidle, hvalid hidle, by simpa [hidle] using h.busy_iff⟩
  | cons answer answers ih =>
    obtain ⟨st, d⟩ := answer
    by_cases hp : s.phase = .idle
    · rw [serve_cons answers (answered_idle st d hp)]
      exact ih (h.setInputs []) hvalid (by rw [stepsLeft_idle (s := s.setInputs []) hp]; omega)
    · obtain ⟨t, hstep, hlt⟩ := h.answered_step hp st d
      rw [serve_cons answers hstep]
      rw [List.length_cons] at hcount
      refine ih ((h.setInputs _).step hstep) (fun ht => ?_) (by omega)
      have hnoReset : ∀ rest, (s.setInputs [answerTurn st d s]).inputs ≠ .reset :: rest :=
        fun rest hi => answerTurn_ne_reset st d s (List.cons.inj hi).1
      obtain hk | ⟨-, hended⟩ := step_lifecycle hnoReset hstep
      · exact absurd ht (hk.phase hp)
      · exact hended.valid

/-- Settles O38: the count is 30 in DECODE and falls with every answered step. -/
theorem everyAnsweredCommandCompletes : Obligations.EveryAnsweredCommandCompletes := by
  intro s answers h hp hlen
  obtain ⟨t, hserve, hended⟩ := h.serve_ends (answers := answers) (by simp [hp])
    (by simp [stepsLeft, hp, hlen])
  exact ⟨t, hserve, hended.phase, hended.busy, hended.valid⟩

end Sys2Proof.Machine

namespace Sys2Proof.Machine

/-! ## Runs in which every event is the expected one (40_bus R141, R142) -/

/-- A run of `a + b` steps is a run of `b` steps from where `a` steps lead. -/
theorem coreRun_add (M : Host.Core) {a b : Nat} {s t : M.State} (h : M.run a s = .next t) :
    M.run (a + b) s = M.run b t := by
  induction a generalizing s with
  | zero =>
    cases h
    rw [Nat.zero_add]
  | succ a ih =>
    rw [Host.Core.run] at h
    split at h
    · next u hu => rw [Nat.add_right_comm, coreRun_next M hu, ih h]
    · cases h
    · cases h

/-- `k` steps lead from `s` to `t`. -/
def RunsTo (k : Nat) (s t : State) : Prop := Host.Core.run Sys2Proof.core k s = .next t

theorem RunsTo.refl (s : State) : RunsTo 0 s s := run_zero s

theorem RunsTo.of_eq {s t : State} (h : s = t) : RunsTo 0 s t := h ▸ .refl s

theorem RunsTo.step {k : Nat} {s m t : State} (h : Machine.step s = .next m) (h' : RunsTo k m t) :
    RunsTo (k + 1) s t := (run_next h).trans h'

theorem RunsTo.trans {a b : Nat} {s m t : State} (h : RunsTo a s m) (h' : RunsTo b m t) :
    RunsTo (a + b) s t := (coreRun_add Sys2Proof.core h).trans h'

/-! ### The points of a leg -/

/-- `s` further on in its leg: the index is `k`, the entries `l` have been added to the trace, and
the turns still to come are `rest`. -/
def State.advance (k : Nat) (l : List TraceEntry) (rest : List Turn) (s : State) : State :=
  { s with idx := k, trace := s.trace ++ l, phyEvent := none, inputs := rest }

/-- `s`, at START, when the start and the address have been accepted. -/
def State.addressed (rest : List Turn) (s : State) : State :=
  (s.advance s.idx [.action (.send (addrByte s.addr s.leg.dir))] rest).setHeld true

/-- RXBUF with all its bytes given. -/
def State.fillRx (b : Buffer) (s : State) : State := { s with rxbuf := b }

namespace State
variable {s : State} {rest : List Turn}

theorem advance_nil (he : s.phyEvent = none) (hi : s.inputs = rest) :
    s.advance s.idx [] rest = s := by
  rw [advance, List.append_nil, ← he, ← hi]

theorem advance_advance (k k' : Nat) (l l' : List TraceEntry) (r : List Turn) (s : State) :
    (s.advance k l r).advance k' l' rest = s.advance k' (l ++ l') rest := by simp [advance]

theorem issue_advance (a : PhyAction) (k : Nat) (l : List TraceEntry) (s : State) :
    (s.issue a).advance k l rest = s.advance k (.action a :: l) rest := by simp [advance, issue]

theorem goto_advance (p : Phase) (k : Nat) (l : List TraceEntry) (s : State) :
    (s.goto p).advance k l rest = (s.advance k l rest).goto p := rfl

theorem fillRx_advance (b : Buffer) (k : Nat) (l : List TraceEntry) (s : State) :
    (s.fillRx b).advance k l rest = (s.advance k l rest).fillRx b := rfl

theorem setHeld_advance (b : Bool) (k : Nat) (l : List TraceEntry) (s : State) :
    (s.setHeld b).advance k l rest = (s.advance k l rest).setHeld b := rfl

theorem takeEvent_eq_advance (rest : List Turn) (s : State) :
    (s.setInputs rest).takeEvent = s.advance s.idx [] rest := by
  simp [advance, takeEvent, setInputs]

theorem nextIndex_eq_advance (rest : List Turn) (s : State) :
    (s.setInputs rest).takeEvent.nextIndex = s.advance (s.idx + 1) [] rest := by
  simp [advance, takeEvent, setInputs, nextIndex]

/-! What follows a leg, or a byte of it, does not depend on the phase that ended it. -/

theorem finish_goto (p : Phase) (s : State) : (s.goto p).finish = s.finish := by
  obtain ⟨hl, hf⟩ | ⟨hl, hf⟩ := finish_cases s
  · exact (finish_write hl).trans hf.symm
  · exact (finish_read hl).trans hf.symm

theorem legDone_goto (p : Phase) (s : State) : (s.goto p).legDone = s.legDone := by
  by_cases h : s.op = .wtr ∧ s.leg = .w
  · exact (legDone_chain h.1 h.2).trans (legDone_chain h.1 h.2).symm
  · rw [legDone_finish h, ← finish_goto p s]
    exact legDone_finish h

theorem endLeg_goto (p : Phase) (s : State) : (s.goto p).endLeg = s.endLeg := by
  cases h : s.stop
  · rw [endLeg_noStop h, ← legDone_goto p s]
    exact endLeg_noStop h
  · exact (endLeg_stop h).trans (endLeg_stop h).symm

theorem txNext_goto (p : Phase) (s : State) : (s.goto p).txNext = s.txNext := by
  by_cases h : s.idx < s.n
  · exact (txNext_more h).trans (txNext_more h).symm
  · rw [txNext_done h, ← endLeg_goto p s]
    exact txNext_done h

theorem beginReceive_goto (p : Phase) (s : State) : (s.goto p).beginReceive = s.beginReceive := by
  by_cases h : s.n = 0
  · rw [beginReceive_zero h, ← endLeg_goto p (s.issue .nack0)]
    exact beginReceive_zero h
  · exact (beginReceive_bytes h).trans (beginReceive_bytes h).symm

theorem rxNext_goto (p : Phase) (s : State) : (s.goto p).rxNext = s.rxNext := by
  by_cases h : s.idx < s.n
  · exact (rxNext_more h).trans (rxNext_more h).symm
  · rw [rxNext_done h, ← endLeg_goto p s]
    exact rxNext_done h

end State

/-! ### One turn, one expected event -/

section ExpectedEvents
variable {s : State} {rest : List Turn}

/-- The step of an event's turn is the event's own. -/
theorem step_event {t : State} {e : PhyEvent} (hi : s.inputs = .phy e :: rest)
    (h : onEvent e (s.setInputs rest).takeEvent = .next t) : step s = .next t := by
  have hw : (s.setInputs rest).Waiting := waiting_of_onEvent (s := (s.setInputs rest).takeEvent) h
  exact (step_turn hi).trans ((phyTurn_event e hw).trans h)

theorem step_start_accepted {st : PhyStatus} (hp : s.phase = .start)
    (hst : st = .startSent ∨ st = .repStartSent) (hi : s.inputs = .phy (.done st) :: rest) :
    step s = .next ((s.addressed rest).goto .addr) := by
  refine step_event hi ((onEvent_start (s := (s.setInputs rest).takeEvent) hp st).trans ?_)
  rw [State.onStart, startVerdict_proceed hst]
  rfl

theorem step_addrWAck (hp : s.phase = .addr) (hl : s.leg = .w)
    (hi : s.inputs = .phy (.done .addrWAck) :: rest) :
    step s = .next (s.advance s.idx [] rest).txNext := by
  rw [← State.takeEvent_eq_advance]
  refine step_event hi ((onEvent_addr (s := (s.setInputs rest).takeEvent) hp _).trans ?_)
  rw [State.onAddr_write (s := (s.setInputs rest).takeEvent) hl]
  rfl

theorem step_addrRAck (hp : s.phase = .addr) (hl : s.leg = .r)
    (hi : s.inputs = .phy (.done .addrRAck) :: rest) :
    step s = .next (s.advance s.idx [] rest).beginReceive := by
  rw [← State.takeEvent_eq_advance]
  refine step_event hi ((onEvent_addr (s := (s.setInputs rest).takeEvent) hp _).trans ?_)
  rw [State.onAddr_read (s := (s.setInputs rest).takeEvent) hl]
  rfl

theorem step_txAck (hp : s.phase = .txData) (hi : s.inputs = .phy (.done .txAck) :: rest) :
    step s = .next (s.advance (s.idx + 1) [] rest).txNext := by
  rw [← State.nextIndex_eq_advance]
  exact step_event hi (onEvent_txData (s := (s.setInputs rest).takeEvent) hp _)

theorem step_rxByte {d : Byte} (hp : s.phase = .rxByte) (hi : s.inputs = .phy (.byte d) :: rest) :
    step s = .next (((s.advance s.idx [.rx d, .action (if s.lastByte then .nack else .ack)]
      rest).fillRx (bufSet s.rxbuf s.idx d)).goto .rxAck) := by
  refine step_event hi ((onEvent_rxByte (s := (s.setInputs rest).takeEvent) hp d).trans ?_)
  have hlast : (s.setInputs rest).takeEvent.lastByte = s.lastByte := rfl
  rw [State.onRxByte, hlast]
  simp [State.storeRx, State.issue, State.goto, State.advance, State.fillRx, State.takeEvent,
    State.setInputs]

theorem step_handshake {st : PhyStatus} (hp : s.phase = .rxAck)
    (hst : st = expectedHandshake s.lastByte) (hi : s.inputs = .phy (.done st) :: rest) :
    step s = .next (s.advance (s.idx + 1) [] rest).rxNext := by
  have hverdict : rxAckVerdict (s.setInputs rest).takeEvent.lastByte st = .proceed := by
    rw [hst]
    exact rxAckVerdict_expected s.lastByte
  rw [← State.nextIndex_eq_advance]
  refine step_event hi ((onEvent_rxAck (s := (s.setInputs rest).takeEvent) hp st).trans ?_)
  rw [State.onRxAck, hverdict]
  rfl

theorem step_stopDone (hp : s.phase = .stop) (hi : s.inputs = .phy .stopDone :: rest) :
    step s = .next ((s.advance s.idx [] rest).setHeld false).legDone := by
  rw [← State.takeEvent_eq_advance]
  exact step_event hi (onEvent_stop (s := (s.setInputs rest).takeEvent) hp)

/-- The start and the address of a write leg, both accepted. -/
theorem runsTo_addrW {st : PhyStatus} (hp : s.phase = .start) (hl : s.leg = .w)
    (hst : st = .startSent ∨ st = .repStartSent)
    (hi : s.inputs = .phy (.done st) :: .phy (.done .addrWAck) :: rest) :
    RunsTo 2 s (s.addressed rest).txNext := by
  refine .step (step_start_accepted hp hst hi) (.step (step_addrWAck rfl hl rfl) (.of_eq ?_))
  rw [State.goto_advance, State.txNext_goto, State.addressed, State.setHeld_advance,
    State.advance_advance]
  rfl

/-- The start and the address of a read leg, both accepted. -/
theorem runsTo_addrR {st : PhyStatus} (hp : s.phase = .start) (hl : s.leg = .r)
    (hst : st = .startSent ∨ st = .repStartSent)
    (hi : s.inputs = .phy (.done st) :: .phy (.done .addrRAck) :: rest) :
    RunsTo 2 s (s.addressed rest).beginReceive := by
  refine .step (step_start_accepted hp hst hi) (.step (step_addrRAck rfl hl rfl) (.of_eq ?_))
  rw [State.goto_advance, State.beginReceive_goto, State.addressed, State.setHeld_advance,
    State.advance_advance]
  rfl

/-- The end of a leg, with its stop where it has one. -/
theorem runsTo_endLeg (he : s.phyEvent = none)
    (hi : s.inputs = (stopEvents s.stop).map .phy ++ rest) :
    RunsTo (stopEvents s.stop).length s.endLeg
      ((s.advance s.idx (stopTrace s.stop) rest).setHeld (s.held && !s.stop)).legDone := by
  cases h : s.stop <;> rw [h] at hi
  · have hsame : s.advance s.idx (stopTrace false) rest = s := State.advance_nil he hi
    rw [State.endLeg_noStop h, hsame, Bool.not_false, Bool.and_true]
    exact .refl _
  · rw [State.endLeg_stop h, Bool.not_true, Bool.and_false]
    refine .step (step_stopDone rfl hi) ?_
    rw [State.goto_advance, State.issue_advance]
    have hgoto := State.legDone_goto .stop ((s.advance s.idx (stopTrace true) rest).setHeld false)
    exact hgoto ▸ .refl _

end ExpectedEvents

/-! ### The write leg -/

/-- The trace of `k` bytes sent, from the byte at `j` on. -/
def sendTraceFrom (b : Buffer) (j k : Nat) : List TraceEntry :=
  (List.range' j k).map (fun i => .action (.send (bufGet b i)))

theorem sendTraceFrom_zero (b : Buffer) (n : Nat) : sendTraceFrom b 0 n = sendTrace b n := by
  rw [sendTraceFrom, sendTrace, List.range_eq_range']

theorem sendTraceFrom_succ (b : Buffer) (j k : Nat) :
    sendTraceFrom b j (k + 1) = .action (.send (bufGet b j)) :: sendTraceFrom b (j + 1) k := by
  rw [sendTraceFrom, List.range'_succ]
  rfl

section WriteLeg
variable {s : State} {rest : List Turn}

/-- One data byte goes out and is acknowledged. -/
theorem step_txNext (h : s.idx < s.n) (hi : s.inputs = .phy (.done .txAck) :: rest) :
    step s.txNext =
      .next (s.advance (s.idx + 1) [.action (.send (bufGet s.txbuf s.idx))] rest).txNext := by
  rw [State.txNext_more h]
  refine (step_txAck (s := (s.issue _).goto .txData) rfl hi).trans (congrArg _ ?_)
  rw [State.goto_advance, State.txNext_goto, State.issue_advance]
  rfl

/-- The data bytes of a write leg, each acknowledged (40_bus R127). -/
theorem runsTo_txNext {k : Nat} (he : s.phyEvent = none) (hk : s.idx + k = s.n)
    (hi : s.inputs = (List.replicate k (.done .txAck)).map .phy ++ rest) :
    RunsTo k s.txNext (s.advance s.n (sendTraceFrom s.txbuf s.idx k) rest).endLeg := by
  induction k generalizing s with
  | zero =>
    have hsame : s.advance s.n (sendTraceFrom s.txbuf s.idx 0) rest = s := by
      rw [← hk]
      exact State.advance_nil he hi
    rw [State.txNext_done (by omega), hsame]
    exact .refl _
  | succ k ih =>
    have hcount : s.idx + 1 + k = s.n := by omega
    have hrun := ih (s := s.advance (s.idx + 1) [.action (.send (bufGet s.txbuf s.idx))]
      ((List.replicate k (.done .txAck)).map .phy ++ rest)) rfl hcount rfl
    rw [State.advance_advance] at hrun
    rw [sendTraceFrom_succ]
    exact .step (step_txNext (by omega) hi) hrun

/-- `s`, at the START of a write leg, when the events of that leg have all come. -/
def wroteLeg (rest : List Turn) (s : State) : State :=
  (s.advance s.n
    (.action (.send (addrByte s.addr false)) :: sendTrace s.txbuf s.n ++ stopTrace s.stop)
    rest).setHeld !s.stop

theorem writeLegEvents_turns (st : PhyStatus) (n : Nat) (stop : Bool) (rest : List Turn) :
    (writeLegEvents st n stop).map .phy ++ rest =
      .phy (.done st) :: .phy (.done .addrWAck) :: ((List.replicate n (.done .txAck)).map .phy ++
        ((stopEvents stop).map .phy ++ rest)) := by
  simp [writeLegEvents]

/-- A write leg whose events are all the expected ones (40_bus R124, R125, R127, R131). -/
theorem runsTo_writeLeg {st : PhyStatus} (hp : s.phase = .start) (hl : s.leg = .w)
    (hidx : s.idx = 0) (hst : st = .startSent ∨ st = .repStartSent)
    (hi : s.inputs = (writeLegEvents st s.n s.stop).map .phy ++ rest) :
    RunsTo (2 + (s.n + (stopEvents s.stop).length)) s (wroteLeg rest s).legDone := by
  rw [writeLegEvents_turns] at hi
  have hcount : s.idx + s.n = s.n := by omega
  refine (runsTo_addrW hp hl hst hi).trans
    ((runsTo_txNext (s := s.addressed _) rfl hcount rfl).trans
      ((runsTo_endLeg (s := (s.addressed _).advance s.n _ _) rfl rfl).trans (.of_eq ?_)))
  exact congrArg State.legDone (by
    simp [wroteLeg, State.addressed, State.advance, State.setHeld, hl, hidx, Leg.dir,
      sendTraceFrom_zero])

end WriteLeg

/-! ### The read leg -/

/-- The events of a received byte, and of those after it. -/
theorem receiveEvents_cons (d : Byte) (ds : List Byte) :
    receiveEvents (d :: ds) =
      .byte d :: .done (expectedHandshake (decide (ds = []))) :: receiveEvents ds := by
  cases ds <;> rfl

theorem receiveTrace_cons (d : Byte) (ds : List Byte) :
    receiveTrace (d :: ds) =
      .rx d :: .action (if ds = [] then .nack else .ack) :: receiveTrace ds := by
  cases ds <;> rfl

theorem rxImage_nil : rxImage [] = bufZero :=
  buffer_ext fun i hi => by rw [bufGet_rxImage [] i hi, bufGet_bufZero, List.getD_nil]

/-- The image of the bytes so far, with the next one stored. -/
theorem bufSet_rxImage (ds : List Byte) (d : Byte) :
    bufSet (rxImage ds) ds.length d = rxImage (ds ++ [d]) := by
  refine buffer_ext fun i hi => ?_
  rw [bufGet_bufSet _ _ _ _ hi, bufGet_rxImage _ _ hi, bufGet_rxImage _ _ hi]
  obtain hlt | rfl | hgt := Nat.lt_trichotomy i ds.length
  · rw [if_neg hlt.ne', List.getD_append _ _ _ _ hlt]
  · simp
  · rw [if_neg hgt.ne, List.getD_eq_default _ _ hgt.le, List.getD_eq_default]
    simpa using hgt

section ReadLeg
variable {s : State} {rest : List Turn}

/-- One byte comes in and its handshake is the expected one. -/
theorem runsTo_rxNext_byte {d : Byte} (h : s.idx < s.n)
    (hi : s.inputs = .phy (.byte d) :: .phy (.done (expectedHandshake s.lastByte)) :: rest) :
    RunsTo 2 s.rxNext
      ((s.advance (s.idx + 1) [.rx d, .action (if s.lastByte then .nack else .ack)] rest).fillRx
        (bufSet s.rxbuf s.idx d)).rxNext := by
  rw [State.rxNext_more h]
  refine .step (step_rxByte (s := s.goto .rxByte) rfl hi)
    (.step (step_handshake (s := State.goto .rxAck _) rfl rfl rfl) (.of_eq ?_))
  rw [State.goto_advance, State.rxNext_goto, State.fillRx_advance, State.advance_advance,
    State.goto_advance]
  exact State.rxNext_goto .rxByte (State.fillRx _ _)

/-- The data bytes of a read leg: those that have come in are `pre`, those to come `ds`. -/
theorem runsTo_rxNext {pre ds : List Byte} (he : s.phyEvent = none) (hidx : s.idx = pre.length)
    (hn : s.n = pre.length + ds.length) (hbuf : s.rxbuf = rxImage pre)
    (hi : s.inputs = (receiveEvents ds).map .phy ++ rest) :
    RunsTo (2 * ds.length) s.rxNext
      ((s.advance s.n (receiveTrace ds) rest).fillRx (rxImage (pre ++ ds))).endLeg := by
  induction ds generalizing s pre with
  | nil =>
    have hlen : s.n = s.idx := by rw [hidx, hn, List.length_nil, Nat.add_zero]
    have hsame : s.advance s.n (receiveTrace []) rest = s := by
      rw [hlen]
      exact State.advance_nil he hi
    rw [State.rxNext_done (by omega), hsame, List.append_nil, ← hbuf]
    exact .refl _
  | cons d ds ih =>
    rw [List.length_cons] at hn
    have hlast : s.lastByte = decide (ds = []) := by
      rw [State.lastByte, decide_eq_decide, ← List.length_eq_zero_iff]
      omega
    rw [receiveEvents_cons, ← hlast] at hi
    have hbyte := runsTo_rxNext_byte (by omega) hi
    have hstored : bufSet s.rxbuf s.idx d = rxImage (pre ++ [d]) := by
      rw [hbuf, hidx, bufSet_rxImage]
    have htrace : [.rx d, .action (if s.lastByte then .nack else .ack)] ++ receiveTrace ds =
        receiveTrace (d :: ds) := by simp [receiveTrace_cons, hlast]
    have hidx' : s.idx + 1 = (pre ++ [d]).length := by simp [hidx]
    have hn' : s.n = (pre ++ [d]).length + ds.length := by simp [hn]; omega
    have hrun := ih (pre := pre ++ [d]) (s := (s.advance (s.idx + 1)
      [.rx d, .action (if s.lastByte then .nack else .ack)] _).fillRx _) rfl hidx' hn' hstored rfl
    rw [State.fillRx_advance, State.advance_advance, htrace, List.append_assoc] at hrun
    rw [List.length_cons, Nat.mul_succ, Nat.add_comm]
    exact hbyte.trans hrun

/-- The data part of a read leg: its bytes, or NACK0 where the count is 0 (40_bus R135). -/
theorem runsTo_beginReceive {ds : List Byte} (he : s.phyEvent = none) (hidx : s.idx = 0)
    (hn : s.n = ds.length) (hbuf : s.rxbuf = bufZero)
    (hi : s.inputs = (receiveEvents ds).map .phy ++ rest) :
    RunsTo (2 * ds.length) s.beginReceive
      ((s.advance s.n (readDataTrace ds) rest).fillRx (rxImage ds)).endLeg := by
  rw [← rxImage_nil] at hbuf
  cases ds with
  | nil =>
    have hsame : s.advance s.n (readDataTrace []) rest = s.issue .nack0 := by
      rw [hn, List.length_nil, ← hidx]
      exact (State.issue_advance .nack0 s.idx [] s).symm.trans
        (State.advance_nil (s := s.issue .nack0) he hi)
    rw [State.beginReceive_zero hn, hsame, ← hbuf]
    exact .refl _
  | cons d ds =>
    have hsome : s.n ≠ 0 := by simp [hn]
    rw [State.beginReceive_bytes hsome, ← State.rxNext_more (by omega)]
    exact runsTo_rxNext (pre := []) he hidx (by simpa using hn) hbuf hi

/-- `s`, at the START of a read leg, when the events of that leg have all come. -/
def gotLeg (ds : List Byte) (rest : List Turn) (s : State) : State :=
  ((s.advance s.n
    (.action (.send (addrByte s.addr true)) :: readDataTrace ds ++ stopTrace s.stop)
    rest).setHeld !s.stop).fillRx (rxImage ds)

theorem readLegEvents_turns (st : PhyStatus) (ds : List Byte) (stop : Bool) (rest : List Turn) :
    (readLegEvents st ds stop).map .phy ++ rest =
      .phy (.done st) :: .phy (.done .addrRAck) :: ((receiveEvents ds).map .phy ++
        ((stopEvents stop).map .phy ++ rest)) := by
  simp [readLegEvents]

/-- A read leg whose events are all the expected ones (40_bus R124, R126, R128, R129, R131). -/
theorem runsTo_readLeg {st : PhyStatus} {ds : List Byte} (hp : s.phase = .start) (hl : s.leg = .r)
    (hidx : s.idx = 0) (hn : s.n = ds.length) (hbuf : s.rxbuf = bufZero)
    (hst : st = .startSent ∨ st = .repStartSent)
    (hi : s.inputs = (readLegEvents st ds s.stop).map .phy ++ rest) :
    RunsTo (2 + (2 * ds.length + (stopEvents s.stop).length)) s (gotLeg ds rest s).legDone := by
  rw [readLegEvents_turns] at hi
  refine (runsTo_addrR hp hl hst hi).trans
    ((runsTo_beginReceive (s := s.addressed _) rfl hidx hn hbuf rfl).trans
      ((runsTo_endLeg (s := ((s.addressed _).advance s.n _ _).fillRx _) rfl rfl).trans (.of_eq ?_)))
  exact congrArg State.legDone (by
    simp [gotLeg, State.addressed, State.advance, State.setHeld, State.fillRx, hl, Leg.dir])

end ReadLeg

/-! ### Whole commands -/

/-- The decode step of the command in CMD, its turn next. -/
theorem step_decode {i : Instr} {s : State} {rest : List Turn} (hp : s.phase = .decode)
    (hc : s.cmd = encodeByte i) (hi : s.inputs = .engine :: rest) :
    step s = .next (decodeCase i ((s.setInputs rest).latchOp i.op)) :=
  (step_turn hi).trans ((engineTurn_latched (s := s.setInputs rest) hc hp).trans
    (exec_decode (s := s.setInputs rest) hp))

theorem stopEvents_length (stop : Bool) : (stopEvents stop).length = if stop then 1 else 0 := by
  cases stop <;> rfl

/-- Settles O35: the decode step, the write leg, and SUCCESS at its end. -/
theorem transmitRunSucceeds : Obligations.TransmitRunSucceeds := by
  intro s stop st rest hp hc hlen hst hi
  have hdecode := (step_decode hp hc hi).trans
    (congrArg _ (decodeTransmit_legal (s := (s.setInputs _).latchOp .transmit) stop hlen))
  have hleg := runsTo_writeLeg (rest := rest) (s := ((s.setInputs
    ((writeLegEvents st s.txlen.toNat stop).map .phy ++ rest)).latchOp .transmit).beginLeg .w stop)
    rfl rfl rfl hst rfl
  have hcount : 1 + (2 + s.txlen.toNat + if stop then 1 else 0) =
      2 + (s.txlen.toNat + (stopEvents stop).length) + 1 := by
    rw [stopEvents_length]
    omega
  rw [hcount]
  refine RunsTo.step hdecode (hleg.trans (.of_eq ?_))
  rw [State.legDone_finish (s := wroteLeg _ _) (fun h => by cases h.1),
    State.finish_write (s := wroteLeg _ _) rfl]
  simp [wroteLeg, State.advance, State.setHeld, State.complete, State.beginLeg, State.setLeg,
    State.issue, State.goto, State.latchOp, State.setInputs, writeLegTrace]

/-- Settles O36: the decode step, the read leg, and SUCCESS at its end, RXLEN its count. -/
theorem receiveRunSucceeds : Obligations.ReceiveRunSucceeds := by
  intro s stop st ds rest hp hc hlen hds hst hi
  have hdecode := (step_decode hp hc hi).trans
    (congrArg _ (decodeReceive_legal (s := (s.setInputs _).latchOp .receive) stop hlen))
  have hleg := runsTo_readLeg (rest := rest) (s := ((s.setInputs
    ((readLegEvents st ds stop).map .phy ++ rest)).latchOp .receive).clearRx.beginLeg .r stop)
    rfl rfl rfl hds.symm rfl hst rfl
  have hcount : 1 + (2 + 2 * s.rxcnt.toNat + if stop then 1 else 0) =
      2 + (2 * ds.length + (stopEvents stop).length) + 1 := by
    rw [stopEvents_length, hds]
    omega
  rw [hcount]
  refine RunsTo.step hdecode (hleg.trans (.of_eq ?_))
  rw [State.legDone_finish (s := gotLeg _ _ _) (fun h => by cases h.1),
    State.finish_read (s := gotLeg _ _ _) rfl]
  simp [gotLeg, State.advance, State.setHeld, State.complete, State.beginLeg, State.setLeg,
    State.issue, State.goto, State.latchOp, State.setInputs, State.fillRx, State.clearRx,
    State.setRxlen, readLegTrace]

end Sys2Proof.Machine

namespace Sys2Proof.Machine

/-! ### A command of two legs (41_composite R160, R161) -/

section BothLegs
variable {s : State} {rest : List Turn}

@[simp] theorem wroteLeg_rxcnt (s : State) : (wroteLeg rest s).rxcnt = s.rxcnt := rfl

/-- The write leg of a WRITE_THEN_READ, without a stop, leads to the START of its read leg. -/
theorem runsTo_chainedWriteLeg {st : PhyStatus} (hop : s.op = .wtr)
    (hst : st = .startSent ∨ st = .repStartSent)
    (hi : s.inputs = (writeLegEvents st s.txlen.toNat false).map .phy ++ rest) :
    RunsTo (2 + s.txlen.toNat) (s.beginLeg .w false)
      ((wroteLeg rest (s.beginLeg .w false)).beginLeg .r true) := by
  have hleg := runsTo_writeLeg (s := s.beginLeg .w false) rfl rfl rfl hst hi
  rw [State.legDone_chain (s := wroteLeg rest (s.beginLeg .w false)) hop rfl] at hleg
  exact hleg

/-- The read leg, with its stop, leads to the end of the command: it chains to no other leg
(41_composite R163). -/
theorem runsTo_lastReadLeg {st : PhyStatus} {ds : List Byte} (hcount : s.rxcnt.toNat = ds.length)
    (hbuf : s.rxbuf = bufZero) (hst : st = .startSent ∨ st = .repStartSent)
    (hi : s.inputs = (readLegEvents st ds true).map .phy ++ rest) :
    RunsTo (2 + (2 * ds.length + 1)) (s.beginLeg .r true)
      (gotLeg ds rest (s.beginLeg .r true)).finish := by
  have hleg := runsTo_readLeg (s := s.beginLeg .r true) rfl rfl rfl hcount hbuf hst hi
  rw [State.legDone_finish (s := gotLeg _ _ _) (fun h => by cases h.2)] at hleg
  exact hleg

/-- Both legs of a WRITE_THEN_READ whose events are all the expected ones. -/
theorem runsTo_bothLegs {st st' : PhyStatus} {ds : List Byte} (hop : s.op = .wtr)
    (hcount : s.rxcnt.toNat = ds.length) (hbuf : s.rxbuf = bufZero)
    (hst : st = .startSent ∨ st = .repStartSent) (hst' : st' = .startSent ∨ st' = .repStartSent)
    (hi : s.inputs =
      (writeLegEvents st s.txlen.toNat false ++ readLegEvents st' ds true).map .phy ++ rest) :
    RunsTo (2 + s.txlen.toNat + (2 + (2 * ds.length + 1))) (s.beginLeg .w false)
      (gotLeg ds rest ((wroteLeg rest (s.beginLeg .w false)).beginLeg .r true)).finish := by
  rw [List.map_append, List.append_assoc] at hi
  have hread := runsTo_lastReadLeg (rest := rest) (s := wroteLeg
    ((readLegEvents st' ds true).map .phy ++ rest) (s.beginLeg .w false))
    (by simpa using hcount) hbuf hst' rfl
  exact (runsTo_chainedWriteLeg hop hst hi).trans hread

end BothLegs

/-- Settles O37: the decode step, then both legs, and SUCCESS with RXLEN the count of the read leg. -/
theorem writeThenReadRunSucceeds : Obligations.WriteThenReadRunSucceeds := by
  intro s x st st' ds rest hp hc htx hrx hds hst hst' hi
  have hdecode := (step_decode hp hc hi).trans
    (congrArg _ (decodeWriteThenRead_legal (s := (s.setInputs _).latchOp .wtr) htx hrx))
  have hlegs := runsTo_bothLegs (rest := rest) (s := ((s.setInputs
    ((writeLegEvents st s.txlen.toNat false ++ readLegEvents st' ds true).map .phy ++
      rest)).latchOp .wtr).clearRx) rfl (by simpa using hds.symm) rfl hst hst' rfl
  have hsteps : 1 + (2 + s.txlen.toNat) + (2 + 2 * s.rxcnt.toNat + 1) =
      2 + s.txlen.toNat + (2 + (2 * ds.length + 1)) + 1 := by omega
  rw [hsteps]
  refine RunsTo.step hdecode (hlegs.trans (.of_eq ?_))
  rw [State.finish_read (s := gotLeg _ _ _) rfl]
  simp [gotLeg, wroteLeg, State.advance, State.setHeld, State.complete, State.beginLeg,
    State.setLeg, State.issue, State.goto, State.latchOp, State.setInputs, State.fillRx,
    State.clearRx, State.setRxlen, writeLegTrace, readLegTrace]

end Sys2Proof.Machine

namespace Sys2Proof.Machine

/-! ## The outcomes of VERIFY (42_checksum R182 to R186) -/

section Verify
variable {f : Word → Byte} {s : State}

theorem verdictOfMask_zero (s : State) :
    verdictOfMask 0x00#8 s = (s.setChkerr 0x00#8).complete .success := if_pos rfl

theorem verdictOfMask_nonzero {m : Byte} (h : m ≠ 0x00#8) :
    verdictOfMask m s = (s.setChkerr m).clearRx.complete .checksumError := if_neg h

theorem verifyWith_noData (h : s.rxlen.toNat = 0) :
    verifyWith f s = (s.setChkerr 0x00#8).complete .noDataError := if_pos h

theorem verifyWith_partialGroup (h : s.rxlen.toNat % 3 ≠ 0) :
    verifyWith f s = (s.setChkerr 0x00#8).complete .paramError := by
  have hdata : s.rxlen.toNat ≠ 0 := by omega
  rw [verifyWith, if_neg hdata, if_pos h]

theorem verifyWith_groups {k : Nat} (hk : k ≠ 0) (h : s.rxlen.toNat = 3 * k) :
    verifyWith f s = verdictOfMask (mismatchMask f s.rxbuf k) s := by
  have hdata : s.rxlen.toNat ≠ 0 := by omega
  have hwhole : ¬ s.rxlen.toNat % 3 ≠ 0 := by omega
  have hgroups : s.rxlen.toNat / 3 = k := by omega
  rw [verifyWith, if_neg hdata, if_neg hwhole, hgroups]

/-- The four ends of VERIFY; only a mismatch touches the receive state. -/
theorem verifyWith_cases (f : Word → Byte) (s : State) :
    verifyWith f s = (s.setChkerr 0x00#8).complete .noDataError ∨
    verifyWith f s = (s.setChkerr 0x00#8).complete .paramError ∨
    (mismatchMask f s.rxbuf (s.rxlen.toNat / 3) = 0x00#8 ∧
      verifyWith f s = (s.setChkerr 0x00#8).complete .success) ∨
    verifyWith f s = ((s.setChkerr (mismatchMask f s.rxbuf (s.rxlen.toNat / 3))).clearRx).complete
      .checksumError := by
  by_cases hdata : s.rxlen.toNat = 0
  · exact .inl (verifyWith_noData hdata)
  by_cases hwhole : s.rxlen.toNat % 3 = 0
  case neg => exact .inr (.inl (verifyWith_partialGroup hwhole))
  have hgroups := verifyWith_groups (f := f) (s := s) (k := s.rxlen.toNat / 3) (by omega) (by omega)
  rw [hgroups]
  by_cases hm : mismatchMask f s.rxbuf (s.rxlen.toNat / 3) = 0x00#8
  · rw [hm]
    exact .inr (.inr (.inl ⟨rfl, verdictOfMask_zero s⟩))
  · exact .inr (.inr (.inr (verdictOfMask_nonzero hm)))

end Verify

/-- Settles O28: no group is looked at, so CHKERR is 0 and the receive state is kept. -/
theorem verifyWithoutGroups : Obligations.VerifyWithoutGroups := by
  intro x s hp
  rw [exec_decode hp]
  exact ⟨fun h => congrArg _ (verifyWith_noData (s := s.latchOp .verify)
      (congrArg BitVec.toNat h)),
    fun h => congrArg _ (verifyWith_partialGroup (s := s.latchOp .verify) h)⟩

/-! ## The mismatch mask (42_checksum R186) -/

theorem getLsbD_groupBit {g : Nat} (hg : g < 8) (k : Nat) :
    (groupBit k).getLsbD g = decide (g = k) := by
  have hone : groupBit k = BitVec.twoPow 8 k := rfl
  rw [hone, BitVec.getLsbD_twoPow]
  by_cases h : g = k
  · simp [← h, hg]
  · simp [h, Ne.symm h]

/-- Bit `g` of the mask is the verdict of group `g` alone, for each group looked at. -/
theorem getLsbD_mismatchMask (f : Word → Byte) (b : Buffer) {g : Nat} (hg : g < 8) (k : Nat) :
    (mismatchMask f b k).getLsbD g = decide (g < k ∧ f (groupWord b g) ≠ groupCheck b g) := by
  induction k with
  | zero => simp [mismatchMask]
  | succ k ih =>
    have hbit : (if groupBad f b k then groupBit k else 0x00#8).getLsbD g =
        decide (g = k ∧ f (groupWord b g) ≠ groupCheck b g) := by
      by_cases hgk : g = k
      · subst hgk
        by_cases h : f (groupWord b g) = groupCheck b g <;> simp [groupBad, h, getLsbD_groupBit hg]
      · split <;> simp [getLsbD_groupBit hg, hgk]
    rw [mismatchMask, BitVec.getLsbD_or, ih, hbit, ← Bool.decide_or]
    exact decide_eq_decide.mpr (by rw [← or_and_right, Nat.lt_succ_iff_lt_or_eq])

theorem check_of_mismatchMask_zero {f : Word → Byte} {b : Buffer} {k g : Nat}
    (h : mismatchMask f b k = 0x00#8) (hk : k ≤ 8) (hg : g < k) :
    f (groupWord b g) = groupCheck b g := by
  have hbit := getLsbD_mismatchMask f b (hg.trans_le hk) k
  rw [h] at hbit
  simpa [hg] using hbit

/-- Settles O29: the mask has the groups' verdicts for its bits, and decides between the two ends. -/
theorem verifyChecksEveryGroup : Obligations.VerifyChecksEveryGroup := by
  intro x s k hp hk hlen
  have hrxlen : s.rxlen.toNat = 3 * k := by
    rw [hlen, BitVec.toNat_ofNat]
    omega
  rw [exec_decode hp]
  have hend := verifyWith_groups (f := Config.checkFn) (s := s.latchOp .verify) (k := k)
    (by omega) hrxlen
  refine ⟨mismatchMask Config.checkFn s.rxbuf k,
    fun g hg => getLsbD_mismatchMask Config.checkFn s.rxbuf hg k, fun hm => ?success,
    fun hm => ?mismatch⟩
  case success =>
    rw [State.latchOp_rxbuf, hm, verdictOfMask_zero] at hend
    rw [hm]
    exact congrArg _ hend
  case mismatch =>
    rw [State.latchOp_rxbuf, verdictOfMask_nonzero hm] at hend
    exact congrArg _ hend

/-! ## What VERIFY leaves unchanged (42_checksum R193) -/

theorem verifyWith_trace (f : Word → Byte) (s : State) : (verifyWith f s).trace = s.trace := by
  obtain h | h | ⟨-, h⟩ | h := verifyWith_cases f s <;> rw [h] <;> rfl

theorem verifyWith_operandsKept (f : Word → Byte) (s : State) : OperandsKept s (verifyWith f s) := by
  obtain h | h | ⟨-, h⟩ | h := verifyWith_cases f s <;> rw [h] <;> exact ⟨rfl, rfl, rfl, rfl⟩

theorem verifyWith_success {f : Word → Byte} {s : State}
    (h : (verifyWith f s).outcome = .success) :
    mismatchMask f s.rxbuf (s.rxlen.toNat / 3) = 0x00#8 := by
  obtain he | he | ⟨hm, -⟩ | he := verifyWith_cases f s
  · simp [he] at h
  · simp [he] at h
  · exact hm
  · simp [he] at h

/-- A failed check withholds the data, and every other end keeps it (42_checksum R185). -/
theorem verifyWith_rx (f : Word → Byte) (s : State) :
    ((verifyWith f s).outcome = .checksumError ∧ (verifyWith f s).rxlen = 0x00#8 ∧
      (verifyWith f s).rxbuf = bufZero) ∨
    ((verifyWith f s).outcome ≠ .checksumError ∧ (verifyWith f s).rxbuf = s.rxbuf ∧
      (verifyWith f s).rxlen = s.rxlen) := by
  obtain h | h | ⟨-, h⟩ | h := verifyWith_cases f s <;> rw [h]
  case inr.inr.inr => exact .inl ⟨rfl, rfl, rfl⟩
  all_goals exact .inr ⟨by simp, rfl, rfl⟩

/-- Settles O59: the mask's bits, the frame, and the two ends that speak of the data. -/
theorem validatorLaws : Obligations.ValidatorLaws := by
  intro f s hlen
  have hgroups : s.rxlen.toNat / 3 ≤ 8 := by omega
  refine ⟨fun g hg => ?bits, ⟨verifyWith_trace f s, (HeldBlind.verifyWith f).held s,
    verifyWith_operandsKept f s⟩,
    fun hout g hg => check_of_mismatchMask_zero (verifyWith_success hout) hgroups hg,
    fun hout => ?withheld⟩
  case bits =>
    rw [getLsbD_mismatchMask f _ (hg.trans_le hgroups)]
    exact decide_eq_decide.mpr (and_iff_right hg)
  case withheld =>
    obtain ⟨-, hrxlen, hrxbuf⟩ | ⟨hne, -⟩ := verifyWith_rx f s
    · exact ⟨hrxlen, fun j _ => by rw [hrxbuf, bufGet_bufZero]⟩
    · exact absurd hout hne

/-- VERIFY has no leg, so it never waits for an event. -/
theorem Running.verify_not_waiting {x : Bool} {s : State} (h : Running (.verify x) s) :
    ¬ s.Waiting := by
  intro hw
  obtain ⟨-, hleg, -⟩ := h hw
  cases hl : s.leg <;> simp [legOfOp, hl, Instr.op] at hleg

/-- A step of VERIFY is its acceptance or its whole work. -/
theorem exec_verify_cases {x : Bool} {s t : State} (hrun : Running (.verify x) s)
    (h : exec (.verify x) s = .next t) :
    t = s.accept (encodeByte (.verify x)) ∨ t = verifyWith Config.checkFn (s.latchOp .verify) := by
  obtain ⟨-, ht⟩ | ⟨-, ht⟩ | ⟨hw, -⟩ | ⟨hw, -⟩ := exec_cases h
  · exact .inl ht
  · exact .inr ht
  · exact absurd hw hrun.verify_not_waiting
  · exact absurd hw hrun.verify_not_waiting

/-- Settles O33: what every command leaves unchanged, and beside it the trace, HELD and, unless a
check failed, the receive state. -/
theorem verifyFrame : Obligations.VerifyFrame := by
  intro x s t hrun h
  have hw := exec_windowFrame h
  have hready := hrun.verify_not_waiting
  have hheld : t.held = s.held :=
    exec_held h (fun hp => hready (waiting_of_phase hp rfl)) fun hp => hready (waiting_of_phase hp rfl)
  have htrace_rx : t.trace = s.trace ∧
      (t.outcome ≠ .checksumError → t.rxbuf = s.rxbuf ∧ t.rxlen = s.rxlen) := by
    obtain rfl | rfl := exec_verify_cases hrun h
    · exact ⟨rfl, fun _ => ⟨rfl, rfl⟩⟩
    · refine ⟨verifyWith_trace _ _, fun hout => ?_⟩
      obtain ⟨hc, -⟩ | ⟨-, hrx⟩ := verifyWith_rx Config.checkFn (s.latchOp .verify)
      · exact absurd hc hout
      · exact hrx
  obtain ⟨htrace, hrx⟩ := htrace_rx
  exact ⟨fun off hcmd hstatus hout hrxlen hchkerr hrxbuf =>
      hw.memRead hcmd hstatus hout (fun hoff => absurd hoff hrxlen)
        (fun hoff => absurd hoff hchkerr) fun hoff => absurd hrxbuf hoff,
    ⟨hw.addr, hw.txlen, hw.rxcnt, hw.txbuf, hw.ckhi, hw.cklo, hw.ckrcv⟩,
    hheld, hw.ovr, htrace, exec_cmd h, hrx⟩

end Sys2Proof.Machine

namespace Sys2Proof.Machine

/-! ## The checksum functions (42_checksum R190 to R192) -/

@[simp] theorem hiByte_append (hi lo : Byte) : hiByte (hi ++ lo) = hi :=
  BitVec.extractLsb'_append_eq_left

@[simp] theorem loByte_append (hi lo : Byte) : loByte (hi ++ lo) = lo :=
  BitVec.extractLsb'_append_eq_right

theorem xor8_append (hi lo : Byte) : xor8 (hi ++ lo) = hi ^^^ lo := by
  rw [xor8, hiByte_append, loByte_append]

/-- Settles O58: each bit is read in its own byte, and XOR commutes and cancels. -/
theorem xor8Form : Obligations.Xor8Form := by
  refine ⟨fun w j hj => ?bits, fun hi lo => ⟨xor8_append hi lo, ?swap⟩, fun b => ?equal⟩
  case bits =>
    rw [xor8, BitVec.getLsbD_xor, hiByte, loByte, BitVec.getLsbD_extractLsb',
      BitVec.getLsbD_extractLsb']
    simp [hj, Nat.add_comm]
  case swap => rw [xor8_append, xor8_append, BitVec.xor_comm]
  case equal => rw [xor8_append, BitVec.xor_self]

/-! Both forms of `CRC8_31_FF` are affine over XOR, so they agree on every word once they agree on word
0 and on the words of one bit. -/

theorem hiByte_xor (w v : Word) : hiByte (w ^^^ v) = hiByte w ^^^ hiByte v :=
  BitVec.extractLsb'_xor

theorem loByte_xor (w v : Word) : loByte (w ^^^ v) = loByte w ^^^ loByte v :=
  BitVec.extractLsb'_xor

/-- `f` is linear over XOR up to its value at word 0. -/
def XorAffine (f : Word → Byte) : Prop := ∀ w v, f (w ^^^ v) = f w ^^^ f v ^^^ f 0x0000#16

section Affine
variable {f g : Word → Byte} (hf : XorAffine f) (hg : XorAffine g)
  (hzero : f 0x0000#16 = g 0x0000#16)
  (hbit : ∀ i < 16, f (BitVec.twoPow 16 i) = g (BitVec.twoPow 16 i))
include hf hg hzero hbit

theorem XorAffine.eq_of_bits_below (k : Nat) (w : Word) (hw : ∀ i, k ≤ i → w.getLsbD i = false) :
    f w = g w := by
  induction k generalizing w with
  | zero =>
    have hw0 : w = 0x0000#16 := BitVec.eq_of_getLsbD_eq fun i _ => by simp [hw i (Nat.zero_le i)]
    rw [hw0, hzero]
  | succ k ih =>
    cases hk : w.getLsbD k
    case false =>
      refine ih w fun i hi => ?_
      obtain rfl | hlt := Nat.eq_or_lt_of_le hi
      · exact hk
      · exact hw i hlt
    case true =>
      have hk16 : k < 16 := BitVec.lt_of_getLsbD hk
      have hrest : f (w ^^^ BitVec.twoPow 16 k) = g (w ^^^ BitVec.twoPow 16 k) := by
        refine ih _ fun i hi => ?_
        obtain rfl | hlt := Nat.eq_or_lt_of_le hi
        · simp [hk, hk16]
        · simp [hw i hlt, Nat.ne_of_lt hlt]
      calc f w = f ((w ^^^ BitVec.twoPow 16 k) ^^^ BitVec.twoPow 16 k) := by rw [xor_cancel_right]
        _ = g ((w ^^^ BitVec.twoPow 16 k) ^^^ BitVec.twoPow 16 k) := by
          rw [hf, hg, hrest, hbit k hk16, hzero]
        _ = g w := by rw [xor_cancel_right]

/-- Two affine functions are equal if they agree at word 0 and at the words of one bit. -/
theorem XorAffine.eq_of_bits (w : Word) : f w = g w :=
  XorAffine.eq_of_bits_below hf hg hzero hbit 16 w fun i hi => BitVec.getLsbD_of_ge w i hi

end Affine

/-! The serial form. -/

/-- In a sum of two bit steps that both reduce, the polynomial cancels. -/
theorem xor_xor_xor_same (a b k : Byte) : (a ^^^ k) ^^^ (b ^^^ k) = a ^^^ b := by
  rw [BitVec.xor_comm b, BitVec.xor_assoc, xor_cancel_left]

theorem crcBit_xor (a b : Byte) : crcBit (a ^^^ b) = crcBit a ^^^ crcBit b := by
  rw [crcBit, crcBit, crcBit, BitVec.getLsbD_xor, BitVec.shiftLeft_xor_distrib]
  cases a.getLsbD 7 <;> cases b.getLsbD 7
  · rfl
  · exact BitVec.xor_assoc ..
  · change a <<< 1 ^^^ b <<< 1 ^^^ 0x31#8 = (a <<< 1 ^^^ 0x31#8) ^^^ b <<< 1
    ac_rfl
  · exact (xor_xor_xor_same ..).symm

theorem crcByte_xor (c d a b : Byte) :
    crcByte (c ^^^ d) (a ^^^ b) = crcByte c a ^^^ crcByte d b := by
  have hxor : (c ^^^ d) ^^^ (a ^^^ b) = (c ^^^ a) ^^^ (d ^^^ b) := by ac_rfl
  simp only [crcByte, hxor, crcBit_xor]

/-- The seed 0xFF is the XOR of three seeds, one for each word. -/
theorem xorAffine_crc8_31_FF : XorAffine crc8_31_FF := by
  intro w v
  have hseed : 0xFF#8 = 0xFF#8 ^^^ 0xFF#8 ^^^ 0xFF#8 := by decide
  calc crc8_31_FF (w ^^^ v)
      = crcByte (crcByte (0xFF#8 ^^^ 0xFF#8 ^^^ 0xFF#8) (hiByte w ^^^ hiByte v ^^^ 0x00#8))
          (loByte w ^^^ loByte v ^^^ 0x00#8) := by
        rw [crc8_31_FF, hiByte_xor, loByte_xor, BitVec.xor_zero, BitVec.xor_zero, ← hseed]
    _ = crc8_31_FF w ^^^ crc8_31_FF v ^^^ crc8_31_FF 0x0000#16 := by
        simp only [crcByte_xor]
        rfl

/-! The parallel form. -/

theorem xorBits_cons (w : Word) (i : Nat) (bits : List Nat) :
    xorBits w (i :: bits) = xor (w.getLsbD i) (xorBits w bits) := rfl

theorem xorBits_xor (w v : Word) (bits : List Nat) :
    xorBits (w ^^^ v) bits = xor (xorBits w bits) (xorBits v bits) := by
  induction bits with
  | nil => rfl
  | cons i bits ih =>
    rw [xorBits_cons, xorBits_cons, xorBits_cons, ih, BitVec.getLsbD_xor, Bool.xor_assoc,
      Bool.xor_assoc, Bool.xor_left_comm (v.getLsbD i)]

theorem xorBits_zero (bits : List Nat) : xorBits 0x0000#16 bits = false := by
  induction bits with
  | nil => rfl
  | cons i bits ih => rw [xorBits_cons, ih, BitVec.getLsbD_zero]; rfl

theorem byteOfBits_xor (a7 a6 a5 a4 a3 a2 a1 a0 b7 b6 b5 b4 b3 b2 b1 b0 : Bool) :
    byteOfBits (xor a7 b7) (xor a6 b6) (xor a5 b5) (xor a4 b4) (xor a3 b3) (xor a2 b2) (xor a1 b1)
      (xor a0 b0) = byteOfBits a7 a6 a5 a4 a3 a2 a1 a0 ^^^ byteOfBits b7 b6 b5 b4 b3 b2 b1 b0 := by
  simp only [byteOfBits, ← BitVec.ofBool_xor_ofBool, ← BitVec.xor_append]

theorem xorAffine_crc8Parallel : XorAffine crc8Parallel := by
  intro w v
  simp only [crc8Parallel, xorBits_xor, xorBits_zero, ← byteOfBits_xor]
  simp

theorem crc8_31_FF_zero : crc8_31_FF 0x0000#16 = 0x81#8 := by
  simp [crc8_31_FF, crcByte, crcBit, hiByte, loByte]

set_option maxRecDepth 4000 in
theorem crc8Parallel_twoPow :
    ∀ i < 16, crc8Parallel (BitVec.twoPow 16 i) = crc8_31_FF (BitVec.twoPow 16 i) := by decide

/-- Settles O57: both forms are affine over XOR, and agree at word 0 and at the words of one bit. -/
theorem crcParallelIsSerial : Obligations.CrcParallelIsSerial := by
  have hzero : crc8Parallel 0x0000#16 = crc8_31_FF 0x0000#16 := by rw [crc8_31_FF_zero]; decide
  exact ⟨xorAffine_crc8Parallel.eq_of_bits xorAffine_crc8_31_FF hzero crc8Parallel_twoPow,
    crc8_31_FF_zero⟩

/-! ## The checker registers (42_checksum R187, R188) -/

theorem memRead_ckcalc (s : State) : memRead 0x1B#5 s = Config.checkFn (s.ckhi ++ s.cklo) := rfl

theorem memRead_ckmatch (s : State) : memRead 0x1C#5 s =
    (if Config.checkFn (s.ckhi ++ s.cklo) = s.ckrcv then 0x01#8 else 0x00#8) := rfl

/-- No command writes the checker's operands. -/
theorem exec_memRead_checker {i : Instr} {s t : State} (h : exec i s = .next t) :
    memRead 0x1B#5 t = memRead 0x1B#5 s ∧ memRead 0x1C#5 t = memRead 0x1C#5 s := by
  have hw := exec_windowFrame h
  rw [memRead_ckcalc, memRead_ckcalc, memRead_ckmatch, memRead_ckmatch, hw.ckhi, hw.cklo, hw.ckrcv]
  exact ⟨rfl, rfl⟩

/-- Settles O56: the two registers read the checker's operands, which a host write sets whatever BUSY
is and no command writes; at reset they read the check of word 0. -/
theorem checkerIsCombinational : Obligations.CheckerIsCombinational := by
  refine ⟨fun s => ⟨memRead_ckcalc s, memRead_ckmatch s⟩,
    fun s hi lo rcv => ⟨memRead_ckcalc _, memRead_ckmatch _⟩,
    fun i s t h => exec_memRead_checker h, crc8_31_FF_zero, ?crcMatch, by decide, by decide⟩
  case crcMatch =>
    change matchByte (crc8_31_FF 0x0000#16) 0x00#8 = 0x00#8
    rw [crc8_31_FF_zero]
    decide

end Sys2Proof.Machine

namespace Sys2Proof.Machine

/-! ## RESERVED commands (60_exceptions R211) -/

section Reserved
variable {i : Instr} {s t : State} (hop : i.op = .reserved)
include hop

/-- The eight RESERVED rows share one decode case. -/
theorem decodeCase_reserved (s : State) : decodeCase i s = s.complete .paramError := by
  cases i with
  | transmit _ | receive _ | writeThenRead _ | verify _ => cases hop
  | _ => rfl

theorem exec_reserved_decode (hp : s.phase = .decode) :
    exec i s = .next ((s.latchOp .reserved).complete .paramError) := by
  rw [exec_decode hp, hop, decodeCase_reserved hop]

/-- A RESERVED command has no leg, so it never waits for an event. -/
theorem Running.reserved_not_waiting (h : Running i s) : ¬ s.Waiting := by
  intro hw
  obtain ⟨-, hleg, -⟩ := h hw
  cases hl : s.leg <;> simp [legOfOp, hl, hop] at hleg

/-- A step of a RESERVED command is its acceptance or its completion. -/
theorem exec_reserved_cases (hrun : Running i s) (h : exec i s = .next t) :
    t = s.accept (encodeByte i) ∨ t = (s.latchOp .reserved).complete .paramError := by
  obtain hp | hp := ready_of_not_waiting (hrun.reserved_not_waiting hop)
  · exact .inl (Host.Outcome.next.inj ((exec_idle hp).symm.trans h)).symm
  · exact .inr (Host.Outcome.next.inj ((exec_reserved_decode hop hp).symm.trans h)).symm

/-- Neither step of a RESERVED command touches the bus or the received data. -/
theorem exec_reserved_kept (hrun : Running i s) (h : exec i s = .next t) :
    t.trace = s.trace ∧ t.held = s.held ∧ t.rxlen = s.rxlen ∧ t.rxbuf = s.rxbuf := by
  obtain rfl | rfl := exec_reserved_cases hop hrun h <;> exact ⟨rfl, rfl, rfl, rfl⟩

end Reserved

/-- Settles O34: what every command leaves unchanged; CHKERR is VERIFY's alone, and a RESERVED
command has no step but its acceptance and its completion. -/
theorem reservedFrame : Obligations.ReservedFrame := by
  intro i s t hop hrun h
  have hw := exec_windowFrame h
  have hchk : t.chkerr = s.chkerr := exec_chkerr h (by simp [hop])
  obtain ⟨htrace, hheld, hrxlen, hrxbuf⟩ := exec_reserved_kept hop hrun h
  exact ⟨fun off hcmd hstatus hout =>
      hw.memRead hcmd hstatus hout (fun _ => hrxlen) (fun _ => hchk) (fun _ => hrxbuf),
    ⟨hw.addr, hw.txlen, hw.rxcnt, hrxlen, hchk, hw.txbuf, hrxbuf, hw.ckhi, hw.cklo, hw.ckrcv⟩,
    hheld, hw.ovr, htrace, exec_cmd h⟩

/-- Settles O30: the decode step is the completion, and from IDLE the acceptance comes before it. -/
theorem reservedCompletes : Obligations.ReservedCompletes := by
  intro i s hop hp
  refine ⟨exec_reserved_decode hop hp, fun s' hp' => ?_⟩
  have hdecode := exec_reserved_decode (s := s'.accept (encodeByte i)) hop rfl
  exact ⟨_, _, exec_idle hp', hdecode, rfl, rfl, rfl, rfl, rfl, rfl, rfl⟩

/-! ## What a status does to the command (60_exceptions R213, R215) -/

/-- The verdict the engine passes on a status, by its phase and, for an address, by the leg. -/
inductive StatusVerdict (s : State) (st : PhyStatus) : Verdict → Prop
  | start (hp : s.phase = .start) : StatusVerdict s st (startVerdict st)
  | addrW (hp : s.phase = .addr) (hl : s.leg = .w) : StatusVerdict s st (addrWVerdict st)
  | addrR (hp : s.phase = .addr) (hl : s.leg = .r) : StatusVerdict s st (addrRVerdict st)
  | txData (hp : s.phase = .txData) : StatusVerdict s st (txVerdict st)
  | rxAck (hp : s.phase = .rxAck) : StatusVerdict s st (rxAckVerdict s.lastByte st)

section Verdicts
variable {st : PhyStatus}

theorem startVerdict_eq_proceed_iff :
    startVerdict st = .proceed ↔ st = .startSent ∨ st = .repStartSent := by
  cases st <;> decide

theorem startVerdict_ne_ackError : startVerdict st ≠ .ackError := by cases st <;> decide

theorem addrWVerdict_eq_proceed_iff : addrWVerdict st = .proceed ↔ st = .addrWAck := by
  cases st <;> decide

theorem addrWVerdict_eq_ackError_iff : addrWVerdict st = .ackError ↔ st = .addrWNack := by
  cases st <;> decide

theorem addrRVerdict_eq_proceed_iff : addrRVerdict st = .proceed ↔ st = .addrRAck := by
  cases st <;> decide

theorem addrRVerdict_eq_ackError_iff : addrRVerdict st = .ackError ↔ st = .addrRNack := by
  cases st <;> decide

theorem txVerdict_eq_proceed_iff : txVerdict st = .proceed ↔ st = .txAck := by
  cases st <;> decide

theorem txVerdict_eq_ackError_iff : txVerdict st = .ackError ↔ st = .txNack := by
  cases st <;> decide

theorem rxAckVerdict_eq_proceed_iff (last : Bool) :
    rxAckVerdict last st = .proceed ↔ st = expectedHandshake last := by
  cases last <;> cases st <;> decide

theorem rxAckVerdict_eq_ackError_iff (last : Bool) :
    rxAckVerdict last st = .ackError ↔ st = expectedHandshake !last := by
  cases last <;> cases st <;> decide

end Verdicts

section Statuses
variable {s : State} {st : PhyStatus} {v : Verdict}

/-- The handshake the engine drives after a byte, said with the index of the last byte. -/
theorem expectedHandshake_lastByte (hlt : s.idx < s.n) :
    expectedHandshake s.lastByte = if s.idx = s.n - 1 then .rxNackSent else .rxAckSent := by
  simp only [expectedHandshake, State.lastByte_iff hlt]

theorem expectedHandshake_not_lastByte (hlt : s.idx < s.n) :
    expectedHandshake (!s.lastByte) = if s.idx = s.n - 1 then .rxAckSent else .rxNackSent := by
  simp only [← State.lastByte_iff hlt]
  cases s.lastByte <;> rfl

/-- The statuses judged `proceed` are the third column of R213's table. -/
theorem StatusVerdict.proceed_iff (h : StatusVerdict s st v) (hlt : s.phase = .rxAck → s.idx < s.n) :
    v = .proceed ↔ statusGoesOn s st := by
  cases h with
  | start hp => simp [statusGoesOn, hp, startVerdict_eq_proceed_iff]
  | addrW hp hl => simp [statusGoesOn, hp, hl, addrWVerdict_eq_proceed_iff]
  | addrR hp hl => simp [statusGoesOn, hp, hl, addrRVerdict_eq_proceed_iff]
  | txData hp => simp [statusGoesOn, hp, txVerdict_eq_proceed_iff]
  | rxAck hp =>
    rw [rxAckVerdict_eq_proceed_iff, expectedHandshake_lastByte (hlt hp)]
    by_cases hidx : s.idx = s.n - 1 <;> simp [statusGoesOn, hp, hidx]

/-- The statuses judged `ackError` are those R213's table gives ACK_ERROR. -/
theorem StatusVerdict.ackError_iff (h : StatusVerdict s st v) (hlt : s.phase = .rxAck → s.idx < s.n) :
    v = .ackError ↔ statusAckFails s st := by
  cases h with
  | start hp => simp [statusAckFails, hp, startVerdict_ne_ackError]
  | addrW hp hl => simp [statusAckFails, hp, hl, addrWVerdict_eq_ackError_iff]
  | addrR hp hl => simp [statusAckFails, hp, hl, addrRVerdict_eq_ackError_iff]
  | txData hp => simp [statusAckFails, hp, txVerdict_eq_ackError_iff]
  | rxAck hp =>
    rw [rxAckVerdict_eq_ackError_iff, expectedHandshake_not_lastByte (hlt hp)]
    by_cases hidx : s.idx = s.n - 1 <;> simp [statusAckFails, hp, hidx]

theorem StatusVerdict.busFault (h : StatusVerdict s .busFault v) : v = .busError := by
  cases h with
  | start hp => exact startVerdict_busFault
  | addrW hp hl => exact addrWVerdict_busFault
  | addrR hp hl => exact addrRVerdict_busFault
  | txData hp => exact txVerdict_busFault
  | rxAck hp => exact rxAckVerdict_busFault _

/-- In a phase that reads a status, every command's step acts on the verdict; going on is not a
failure. -/
theorem exec_status (i : Instr)
    (hp : s.phase = .start ∨ s.phase = .addr ∨ s.phase = .txData ∨ s.phase = .rxAck)
    (he : s.phyEvent = some (.done st)) :
    ∃ v goOn, StatusVerdict s st v ∧ exec i s = .next (s.takeEvent.judge v goOn) ∧
      GoesOn s.takeEvent (goOn s.takeEvent) := by
  obtain hp | hp | hp | hp := hp
  · exact ⟨_, State.sendAddress, .start hp,
      exec_of_onEvent he (onEvent_start (s := s.takeEvent) hp st),
      s.takeEvent.setHeld true, fun _ => rfl, .awaits _ _ (by decide)⟩
  · have haddr : exec i s = .next (s.takeEvent.onAddr st) :=
      exec_of_onEvent he (onEvent_addr (s := s.takeEvent) hp st)
    cases hl : s.leg
    · rw [State.onAddr_write (s := s.takeEvent) hl] at haddr
      exact ⟨_, _, .addrW hp hl, haddr, s.takeEvent, fun _ => rfl, .txNext _⟩
    · rw [State.onAddr_read (s := s.takeEvent) hl] at haddr
      exact ⟨_, _, .addrR hp hl, haddr, s.takeEvent, fun _ => rfl, .beginReceive _⟩
  · exact ⟨_, fun m => m.nextIndex.txNext, .txData hp,
      exec_of_onEvent he (onEvent_txData (s := s.takeEvent) hp st),
      s.takeEvent.nextIndex, fun _ => rfl, .txNext _⟩
  · exact ⟨_, fun m => m.nextIndex.rxNext, .rxAck hp,
      exec_of_onEvent he (onEvent_rxAck (s := s.takeEvent) hp st),
      s.takeEvent.nextIndex, fun _ => rfl, .rxNext _⟩

theorem GoesOn.succeeds {t : State} (h : GoesOn s t) (ht : t.phase = .idle) :
    t.outcome = .success := by
  obtain ⟨m, -, hm⟩ := h
  exact hm.succeeds ht

end Statuses

/-- Settles O51: in each of the four phases the verdict on BUS_FAULT is `busError`, and the step is
`fail` alone. -/
theorem busFaultTakesPrecedence : Obligations.BusFaultTakesPrecedence := by
  intro i s hp he
  obtain ⟨v, goOn, hv, hexec, -⟩ := exec_status i hp he
  rw [hv.busFault, State.judge_busError] at hexec
  have hend := ended_fail .busError s.takeEvent
  exact ⟨_, hexec, State.fail_outcome _ _, hend.phase, hend.busy, State.fail_trace _ s.takeEvent,
    (HeldBlind.fail .busError).held s.takeEvent⟩

/-- Settles O52: the three verdicts are the three columns of R213's table, and each fixes how the
step can end. -/
theorem statusOutcomeTable : Obligations.StatusOutcomeTable := by
  intro i s st hp he
  have hreads : s.phase = .start ∨ s.phase = .addr ∨ s.phase = .txData ∨ s.phase = .rxAck :=
    hp.imp_right (Or.imp_right (Or.imp_right And.left))
  have hlt : s.phase = .rxAck → s.idx < s.n := fun hack => by simpa [hack] using hp
  obtain ⟨v, goOn, hv, hexec, hon⟩ := exec_status i hreads he
  refine ⟨_, hexec, ?_⟩
  rw [← hv.proceed_iff hlt, ← hv.ackError_iff hlt]
  cases v with
  | proceed => exact ⟨fun _ => hon.succeeds, nofun, fun hne => absurd rfl hne⟩
  | ackError =>
    exact ⟨nofun, fun _ => ⟨(ended_fail _ _).phase, State.fail_outcome _ _⟩,
      fun _ hne => absurd rfl hne⟩
  | busError => exact ⟨nofun, nofun, fun _ _ => ⟨(ended_fail _ _).phase, State.fail_outcome _ _⟩⟩

end Sys2Proof.Machine

namespace Sys2Proof.Machine

/-! ## Reset (70_reset R240) -/

/-- An engine turn in a waiting phase lapses: only the turn is taken off the list. -/
theorem step_engine_waiting {s : State} {rest : List Turn} (hw : s.Waiting)
    (hi : s.inputs = .engine :: rest) : step s = .next (s.setInputs rest) :=
  (step_turn hi).trans (engineTurn_other (s := s.setInputs rest) hw.phase_ne_decode)

/-- Settles O7: the reset step is `applyReset`, which keeps only the turns and the host's record; an
engine turn lapses in a waiting phase, and a host access leaves the phase while BUSY = 1. -/
theorem resetFromAnyState : Obligations.ResetFromAnyState := by
  refine ⟨fun s rest hi => ⟨_, step_reset hi, rfl⟩, fun s t u rest hw hb hi hu h => ?kept⟩
  case kept =>
    obtain rfl | ⟨a, rfl⟩ := hu
    · cases (step_engine_waiting hw hi).symm.trans h
      exact ⟨rfl, hb⟩
    · have haccess : hostAccess a (s.setInputs rest) = .next t := (step_host hi).symm.trans h
      obtain ⟨hphase, hbusy, -⟩ := hostAccess_busy (s := s.setInputs rest) hb haccess
      exact ⟨hphase, hbusy⟩

end Sys2Proof.Machine
